-- ==== Sys2Proof/Word.lean ====
section
/-! DEFINITION. The widths of the block (R5, R22, R31, R49, R61, R67): one name per kind of word. -/

namespace Sys2Proof

/-- A byte of system memory, the unit of `MemRead` (R49). -/
abbrev Byte := BitVec 8

/-- A colour-memory cell and a colour index as a register holds it, 0 to 15 (R31, R43). -/
abbrev Nibble := BitVec 4

/-- A 16-bit address register, `ADDR_W` (R22). -/
abbrev Addr := BitVec 16

/-- A scanline number in `RASTER_W` = 9 bits (R17). -/
abbrev LineNo := BitVec 9

/-- A frame-buffer pixel: a 5-bit palette index (R30). -/
abbrev Pixel := BitVec 5

/-- A host command word (R60). -/
abbrev CmdWord := BitVec 64

/-- A response word, `zext_16(S.line)` (R67). -/
abbrev Response := BitVec 16

end Sys2Proof
end

