-- ==== Sys2Proof/Syntax.lean ====
section
/-! DEFINITION. The 14 host commands of the opcode table (R63), the mode variants (R24), the refusal reasons
(R152) and the assembler's abstract syntax (R69, R70). -/

namespace Sys2Proof

/-- The five display modes (R24), in the order of their codes 0 to 4. -/
inductive ModeVariant where
  | textNormal
  | textMulti
  | textExtended
  | bitmapNormal
  | bitmapMulti
  deriving DecidableEq, Repr

/-- A decoded host command: one constructor per row of the opcode table (R63). Every operand has exactly the
width of its field, so each value of this type is a legal command (R62). -/
inductive Instr where
  /-- `SETADDR char, video, bitmap` (R71). -/
  | setAddr (char video bitmap : Addr)
  /-- `SETMODE b, e, m` (R72). -/
  | setMode (b e m : BitVec 1)
  /-- `TERM` (R73). -/
  | term
  /-- `GETLINE` (R76). -/
  | getLine
  /-- `READY` (R75). -/
  | ready
  /-- `WRBORDER color` (R77). -/
  | wrBorder (color : Nibble)
  /-- `WRRASTER target` (R78). -/
  | wrRaster (target : LineNo)
  /-- `RDRASTER` (R79). -/
  | rdRaster
  /-- `WRDEN v` (R80). -/
  | wrDen (v : BitVec 1)
  /-- `WRVWIDE v` (R81). -/
  | wrVwide (v : BitVec 1)
  /-- `WRHWIDE v` (R82). -/
  | wrHwide (v : BitVec 1)
  /-- `WRYSCROLL v` (R83). -/
  | wrYscroll (v : BitVec 3)
  /-- `WRXSCROLL v` (R84). -/
  | wrXscroll (v : BitVec 3)
  /-- `WRBG idx, color` (R85). -/
  | wrBg (idx : BitVec 2) (color : Nibble)
  deriving DecidableEq, Repr

/-- Why a command is refused (R152). -/
inductive RefuseReason where
  /-- The `OP` field is reserved (R65). -/
  | opcode
  /-- A known `OP` with a reserved bit set (R66). -/
  | reservedBits
  /-- `READY` while a register-port field is `UNSET` (R75). -/
  | unsetRegister
  deriving DecidableEq, Repr

/-- An assembler statement (R69, R70). Operands are naturals as the programmer wrote them; whether each fits its
field is checked by `Asm.wellFormed`. -/
inductive Asm where
  | setAddr (char video bitmap : Nat)
  | setMode (b e m : Nat)
  | term
  | getLine
  | ready
  | wrBorder (color : Nat)
  | wrRaster (target : Nat)
  | rdRaster
  | wrDen (v : Nat)
  | wrVwide (v : Nat)
  | wrHwide (v : Nat)
  | wrYscroll (v : Nat)
  | wrXscroll (v : Nat)
  | wrBg (idx color : Nat)
  /-- The pseudo-instruction `SETMODE <variant>`. -/
  | setModeNamed (m : ModeVariant)
  /-- The pseudo-instruction `BLANK`. -/
  | blank
  /-- The pseudo-instruction `UNBLANK`. -/
  | unblank
  /-- The pseudo-instruction `INITREGS bd, t, den, vw, hw, ys, xs, g0, g1, g2, g3`. -/
  | initRegs (bd t den vw hw ys xs g0 g1 g2 g3 : Nat)
  deriving DecidableEq, Repr

end Sys2Proof
end

