-- ==== Sys2Proof/WellFormed.lean ====
section
/-! DEFINITION. Which assembler statements are well formed: every operand fits its field (R62, R69). A decoded
`Instr` carries its operands at the fields' own widths, so its statement always passes these checks. -/

namespace Sys2Proof

/-- The natural `n` fits a field of `w` bits. -/
def fits (w n : Nat) : Bool := decide (n < 2 ^ w)

/-- Every operand of the statement fits its field (R69); the widths are those of R63. -/
def Asm.wellFormed : Asm → Bool
  | .setAddr c v b => fits 16 c && fits 16 v && fits 16 b
  | .setMode b e m => fits 1 b && fits 1 e && fits 1 m
  | .term => true
  | .getLine => true
  | .ready => true
  | .wrBorder c => fits 4 c
  | .wrRaster t => fits 9 t
  | .rdRaster => true
  | .wrDen v => fits 1 v
  | .wrVwide v => fits 1 v
  | .wrHwide v => fits 1 v
  | .wrYscroll v => fits 3 v
  | .wrXscroll v => fits 3 v
  | .wrBg i c => fits 2 i && fits 4 c
  | .setModeNamed _ => true
  | .blank => true
  | .unblank => true
  | .initRegs bd t den vw hw ys xs g0 g1 g2 g3 =>
    fits 4 bd && fits 9 t && fits 1 den && fits 1 vw && fits 1 hw && fits 3 ys && fits 3 xs
      && fits 4 g0 && fits 4 g1 && fits 4 g2 && fits 4 g3

/-- The assembler statement of a decoded command: its mnemonic and operands (R69). -/
def Instr.toAsm : Instr → Asm
  | .setAddr c v b => .setAddr c.toNat v.toNat b.toNat
  | .setMode b e m => .setMode b.toNat e.toNat m.toNat
  | .term => .term
  | .getLine => .getLine
  | .ready => .ready
  | .wrBorder c => .wrBorder c.toNat
  | .wrRaster t => .wrRaster t.toNat
  | .rdRaster => .rdRaster
  | .wrDen v => .wrDen v.toNat
  | .wrVwide v => .wrVwide v.toNat
  | .wrHwide v => .wrHwide v.toNat
  | .wrYscroll v => .wrYscroll v.toNat
  | .wrXscroll v => .wrXscroll v.toNat
  | .wrBg i c => .wrBg i.toNat c.toNat

/-- A command is well formed when its statement is. -/
def Instr.wellFormed (i : Instr) : Bool := i.toAsm.wellFormed

end Sys2Proof
end

