-- ==== Sys2Proof/Decode.lean ====
section
/-! DEFINITION. The command port's decoder (R63 to R66) and the encoder (R61, R69). -/

namespace Sys2Proof

/-- The operation code, `w[63:56]` (R61). -/
def opOf (w : CmdWord) : BitVec 8 := w.extractLsb' 56 8

/-- The reserved field, `w[55:48]` (R61). -/
def rsvOf (w : CmdWord) : BitVec 8 := w.extractLsb' 48 8

/-- One row of the opcode table (R63): a word matches the row when `w & mask = pattern`, and then stands for
`build w`. -/
structure OpRow where
  mnemonic : String
  op : BitVec 8
  pattern : CmdWord
  mask : CmdWord
  build : CmdWord → Instr

/-- The opcode table of R63, with the match and mask values of `opcode_table.json`. -/
def opcodeTable : List OpRow :=
  [ ⟨"SETADDR", 0x01#8, 0x0100000000000000#64, 0xFFFF000000000000#64,
      fun w => .setAddr (w.extractLsb' 32 16) (w.extractLsb' 16 16) (w.extractLsb' 0 16)⟩,
    ⟨"SETMODE", 0x02#8, 0x0200000000000000#64, 0xFFFFFFFFFFFFFFF8#64,
      fun w => .setMode (w.extractLsb' 2 1) (w.extractLsb' 1 1) (w.extractLsb' 0 1)⟩,
    ⟨"TERM", 0x03#8, 0x0300000000000000#64, 0xFFFFFFFFFFFFFFFF#64, fun _ => .term⟩,
    ⟨"GETLINE", 0x04#8, 0x0400000000000000#64, 0xFFFFFFFFFFFFFFFF#64, fun _ => .getLine⟩,
    ⟨"READY", 0x05#8, 0x0500000000000000#64, 0xFFFFFFFFFFFFFFFF#64, fun _ => .ready⟩,
    ⟨"WRBORDER", 0x10#8, 0x1000000000000000#64, 0xFFFFFFFFFFFFFFF0#64, fun w => .wrBorder (w.extractLsb' 0 4)⟩,
    ⟨"WRRASTER", 0x11#8, 0x1100000000000000#64, 0xFFFFFFFFFFFFFE00#64, fun w => .wrRaster (w.extractLsb' 0 9)⟩,
    ⟨"RDRASTER", 0x12#8, 0x1200000000000000#64, 0xFFFFFFFFFFFFFFFF#64, fun _ => .rdRaster⟩,
    ⟨"WRDEN", 0x13#8, 0x1300000000000000#64, 0xFFFFFFFFFFFFFFFE#64, fun w => .wrDen (w.extractLsb' 0 1)⟩,
    ⟨"WRVWIDE", 0x14#8, 0x1400000000000000#64, 0xFFFFFFFFFFFFFFFE#64, fun w => .wrVwide (w.extractLsb' 0 1)⟩,
    ⟨"WRHWIDE", 0x15#8, 0x1500000000000000#64, 0xFFFFFFFFFFFFFFFE#64, fun w => .wrHwide (w.extractLsb' 0 1)⟩,
    ⟨"WRYSCROLL", 0x16#8, 0x1600000000000000#64, 0xFFFFFFFFFFFFFFF8#64, fun w => .wrYscroll (w.extractLsb' 0 3)⟩,
    ⟨"WRXSCROLL", 0x17#8, 0x1700000000000000#64, 0xFFFFFFFFFFFFFFF8#64, fun w => .wrXscroll (w.extractLsb' 0 3)⟩,
    ⟨"WRBG", 0x18#8, 0x1800000000000000#64, 0xFFFFFFFFFFFFFFC0#64,
      fun w => .wrBg (w.extractLsb' 4 2) (w.extractLsb' 0 4)⟩ ]

/-- The word matches the row (R64). -/
def rowMatches (row : OpRow) (w : CmdWord) : Bool := w &&& row.mask == row.pattern

/-- Decoding a command word (R64): total, a row of the table or one of two named refusals (R65, R66). -/
def decode (w : CmdWord) : Except RefuseReason Instr :=
  match opcodeTable.find? (fun row => rowMatches row w) with
  | some row => .ok (row.build w)
  | none =>
    if opcodeTable.any (fun row => row.op == opOf w) then .error .reservedBits else .error .opcode

/-- The operation code of a command (R63). -/
def opcodeOf : Instr → BitVec 8
  | .setAddr _ _ _ => 0x01#8
  | .setMode _ _ _ => 0x02#8
  | .term => 0x03#8
  | .getLine => 0x04#8
  | .ready => 0x05#8
  | .wrBorder _ => 0x10#8
  | .wrRaster _ => 0x11#8
  | .rdRaster => 0x12#8
  | .wrDen _ => 0x13#8
  | .wrVwide _ => 0x14#8
  | .wrHwide _ => 0x15#8
  | .wrYscroll _ => 0x16#8
  | .wrXscroll _ => 0x17#8
  | .wrBg _ _ => 0x18#8

/-- The 48-bit operand field of a command, unused bits zero (R61, R63). -/
def argOf : Instr → BitVec 48
  | .setAddr char video bitmap => char ++ video ++ bitmap
  | .setMode b e m => (b ++ e ++ m).setWidth 48
  | .term => 0
  | .getLine => 0
  | .ready => 0
  | .wrBorder color => color.setWidth 48
  | .wrRaster target => target.setWidth 48
  | .rdRaster => 0
  | .wrDen v => v.setWidth 48
  | .wrVwide v => v.setWidth 48
  | .wrHwide v => v.setWidth 48
  | .wrYscroll v => v.setWidth 48
  | .wrXscroll v => v.setWidth 48
  | .wrBg idx color => (idx ++ color).setWidth 48

/-- The command word of a command: `OP`, a zero `RSV`, the operand fields (R61, R69). -/
def encode (i : Instr) : CmdWord := opcodeOf i ++ 0#8 ++ argOf i

/-- The numeric code of a refusal (R152). -/
def refuseCode : RefuseReason → Nat
  | .opcode => 1
  | .reservedBits => 2
  | .unsetRegister => 3

/-- The command word made of the low `nbits` bits of `w`, every bit above them zero; bit 0 is the least significant
bit, as the opcode table numbers them. The port takes a command as one 64-bit word, so no byte order arises (R46, R60). -/
def tableWord (nbits w : Nat) : CmdWord := BitVec.ofNat 64 (w % 2 ^ nbits)

/-- What the decoder reads from an opcode-table word, `none` where it refuses. -/
def decodeTableWord (nbits w : Nat) : Option Instr :=
  match decode (tableWord nbits w) with
  | .ok i => some i
  | .error _ => none

end Sys2Proof
end

