-- ==== Sys2Proof/Config.lean ====
section
/-! DEFINITION. The implementation parameters (R5), their constraints (R6), the example configuration EX (R13) and
the free values: constants with no body, of which nothing can be proved. -/

namespace Sys2Proof

/-- `CYCLES_PER_LINE` (R5): cycles the engine advances the shared clock per scanline. -/
def Config.cyclesPerLine : Nat := 64

/-- `BADLINE_PENALTY` (R5): cycles charged against the CPU on a bad line. -/
def Config.badlinePenalty : Nat := 40

/-- `BADLINE_PERIOD` (R5). -/
def Config.badlinePeriod : Nat := 8

/-- `MEM_SIZE` (R5): bytes of the memory read port. -/
def Config.memSize : Nat := 0x10000

/-- `CONTENT_W` (R5): width of the content area in pixels. -/
def Config.contentW : Nat := 320

/-- `CONTENT_H` (R5): height of the content area in pixels. -/
def Config.contentH : Nat := 200

/-- `COLS` (R5): character cells per content row. -/
def Config.cols : Nat := 40

/-- `ROWS` (R5): cell rows. -/
def Config.rows : Nat := 25

/-- `CELL` (R5): the cell's edge in pixels. -/
def Config.cell : Nat := 8

/-- `H_NARROW_L` (R5): columns a wide horizontal border removes on the left. -/
def Config.hNarrowL : Nat := 7

/-- `H_NARROW_R` (R5): columns a wide horizontal border removes on the right. -/
def Config.hNarrowR : Nat := 9

/-- `V_NARROW_T` (R5): rows a wide vertical border removes at the top. -/
def Config.vNarrowT : Nat := 4

/-- `V_NARROW_B` (R5): rows a wide vertical border removes at the bottom. -/
def Config.vNarrowB : Nat := 4

/-- `COLOR_CELLS` (R5): cells of the colour-memory read port. -/
def Config.colorCells : Nat := 1000

/-- `RESET_MODE` (R5). -/
def Config.resetMode : ModeVariant := .textNormal

/-- `IRQ_ON_INVISIBLE` (R5): the raster compare runs on invisible lines too. -/
def Config.irqOnInvisible : Bool := true

/-- The constraints of R6 that speak of settled parameters only. -/
abbrev Config.ConstantsOk : Prop :=
  Config.contentW = Config.cols * Config.cell ∧ Config.contentH = Config.rows * Config.cell ∧
  Config.hNarrowL + Config.hNarrowR < Config.contentW ∧ Config.vNarrowT + Config.vNarrowB < Config.contentH ∧
  Config.cols * Config.rows ≤ Config.colorCells

/-- The OPEN geometry parameters (R5): no source gives a value, so the model takes them as an argument. -/
structure Geometry where
  /-- `TOTAL_LINES`. -/
  totalLines : Nat
  /-- `FRAME_W`. -/
  frameW : Nat
  /-- `FRAME_H`. -/
  frameH : Nat
  /-- `VIS_FIRST`. -/
  visFirst : Nat
  /-- `CONTENT_X0`. -/
  contentX0 : Nat
  /-- `CONTENT_Y0`. -/
  contentY0 : Nat
  /-- `SPRITE_Y_OFFSET`. -/
  spriteYOffset : Nat
  deriving DecidableEq, Repr

/-- The constraints of R6 on the geometry (`RASTER_W` = 9). -/
abbrev Geometry.Ok (g : Geometry) : Prop :=
  1 ≤ g.totalLines ∧ g.totalLines ≤ 2 ^ 9 ∧ 1 ≤ g.frameH ∧ g.visFirst + g.frameH ≤ g.totalLines ∧
  g.contentX0 + Config.contentW ≤ g.frameW ∧ g.contentY0 + Config.contentH ≤ g.frameH

/-- A configuration: a geometry together with the proof that it satisfies R6. A geometry that breaks R6 makes no
`Config`: "no model is built for it". -/
structure Config where
  geo : Geometry
  ok : geo.Ok
  deriving DecidableEq, Repr

/-- Building a configuration: refused when the geometry breaks a constraint of R6. -/
def Config.build (g : Geometry) : Option Config :=
  if h : g.Ok then some { geo := g, ok := h } else none

/-- The example configuration EX of R5 and R13. DESIGN CHOICE: the model's reset state uses it (log 1, unsafe); every
other definition takes the geometry from the state. -/
def Config.ex : Config :=
  { geo := { totalLines := 312, frameW := 384, frameH := 272, visFirst := 15, contentX0 := 32, contentY0 := 36,
             spriteYOffset := 15 },
    ok := by decide }

/-- Which of the fetches of R131 a read is. -/
inductive Fetch where
  | vm
  | cr
  | ch
  | bm
  deriving DecidableEq, Repr

/-- One read of a line step: by `RasterContent` or by `Backfill`, at which content column, and which fetch
(the reads of R139 are told apart by these). -/
structure ReadId where
  content : Bool
  col : Nat
  fetch : Fetch
  deriving DecidableEq, Repr

/-- Free value (log 4, safe): at which instant of its line's interval a read looks, when the location is written in
that interval, by a write that comes after the line step as well (R55, "The oracle chooses the instant per read"). `cycle` tells the line steps apart. -/
opaque Config.readInstant : (cycle : Nat) → ReadId → Nat

/-- Free value (log 7, safe): the frame buffer's contents before the first write, an index in `[0, 17]` (R30, U3). -/
opaque Config.fbPowerOn : (row col : Nat) → Fin 18

/-- Free value (log 13, safe): what the frame buffer holds in a row that a fault has cut short (R151, U4), an index in
`[0, 17]` (R30). `cycle` tells the line steps apart. -/
opaque Config.cutPixel : (cycle row col : Nat) → Fin 18

/-- Free value (log 17, safe): which of the two reserved indices `DEBUG_COLOR` gives a variant (R129). -/
opaque Config.debugColorHigh : ModeVariant → Bool

end Sys2Proof
end

