-- ==== Sys2Proof/Machine/State.lean ====
section
/-! DEFINITION. The whole state of the block (10_state.md) as plain data, with the outputs it has produced (R10, R67)
and the environment's side (R4), the state after reset (R169), and the reasons a step can stop. -/

namespace Sys2Proof.Machine

/-- A finite map from naturals as a list of pairs, keys strictly rising. -/
abbrev Store (α : Type) := List (Nat × α)

/-- `S.phase` (R16). -/
inductive Phase where
  | waitReady
  | running
  | stopped
  | faulted
  deriving DecidableEq, Repr

/-- `S.sub` (R18). -/
inductive SubPos where
  | lineStart
  | advancing
  deriving DecidableEq, Repr

/-- The fault codes of R152 (the spec's own fault, not the model's `Fault`). -/
inductive FaultCode where
  /-- Code 1, `ADDR_RANGE` (R153). -/
  | addrRange
  deriving DecidableEq, Repr

/-- What `ADDR_RANGE` records beside its code: the address and the line (R152). -/
structure FaultInfo where
  addr : Nat
  line : LineNo
  deriving DecidableEq, Repr

/-- One frame-buffer row, column 0 first (R47): `none` is a pixel not written yet, and so is every column past the
end of the list. -/
abbrev Row := List (Option Pixel)

/-- `S.fb` (R30): the rows that have been touched, by row number, top row 0 (R47). -/
abbrev FrameBuffer := Store Row

/-- The observable events (R10). -/
inductive Event where
  | steal (n : Nat)
  | rasterIrq (line : LineNo)
  | advance (n : Nat)
  /-- The published copy of the frame buffer (R56, R98). -/
  | publish (frame : FrameBuffer)
  | resume
  | stopped
  | faulted (code : FaultCode)
  | spriteBack (videoAddr : Addr) (row coord : Nat)
  | spriteFront (row coord : Nat)
  deriving DecidableEq, Repr

/-- A write of the platform to system or colour memory; the block never writes either (R41). -/
inductive MemWrite where
  | sys (addr : Addr) (v : Byte)
  | color (cell : Fin Config.colorCells) (v : Nibble)
  deriving DecidableEq, Repr

/-- What happens next (log 2): any agent may move between any two steps (R53), and when is the environment's choice. -/
inductive Input where
  /-- The host performs this command word (R60). -/
  | command (w : CmdWord)
  /-- The engine takes its next step, or waits if none is enabled; a pending advance stays ungranted. -/
  | engine
  /-- The arbiter grants the pending advance (R147). -/
  | grant
  /-- The platform writes memory now. While an advance is pending, that is inside the interval of the line in progress,
  and the line's reads may have seen it (R55, log 4). -/
  | memWrite (m : MemWrite)
  /-- The platform writes memory at some instant between the current line's snapshot and the end of its advance, left
  open; memory holds the value from the end of the advance on, and the line's reads may or may not see it (R55). -/
  | lineWrite (m : MemWrite)
  deriving DecidableEq, Repr

/-- One draw of the sprite compositor (R117): columns of the row it was called for, with an index 0 to 15 each. -/
abbrev Draw := Store Nibble

/-- Sequencer state (R16 to R21). -/
structure Sequencer where
  phase : Phase
  line : LineNo
  sub : SubPos
  cycle : Nat
  participating : Bool
  frame : Nat
  deriving DecidableEq, Repr

/-- RasterState (R22 to R26); `currentLine` is `Sequencer.line` (R17). -/
structure RasterState where
  charAddr : Addr
  videoAddr : Addr
  bitmapAddr : Addr
  currentMode : ModeVariant
  scheduledMode : Option ModeVariant
  deriving DecidableEq, Repr

/-- Control flags (R27 to R29). -/
structure ControlFlags where
  stopReq : Bool
  ready : Bool
  refused : Bool
  fault : Option FaultCode
  faultInfo : Option FaultInfo
  deriving DecidableEq, Repr

/-- A register-port field of `w` bits (R31): `none` is the spec's distinguished value `UNSET` (R39). -/
abbrev PortField (w : Nat) := Option (BitVec w)

/-- The register-port fields (R31). -/
structure PortRegs where
  border : PortField 4
  rasterTarget : PortField 9
  den : PortField 1
  vwide : PortField 1
  hwide : PortField 1
  yscroll : PortField 3
  xscroll : PortField 3
  bg0 : PortField 4
  bg1 : PortField 4
  bg2 : PortField 4
  bg3 : PortField 4
  deriving DecidableEq, Repr

/-- What the block has put out: the event trace, oldest first (R10), and the response words of the read commands,
oldest first (R67). -/
structure Outputs where
  trace : List Event
  responses : List Response
  deriving DecidableEq, Repr

/-- The external agents' side (R4): memory contents, the platform's writes inside the current line's interval
whose instant is left open (R55), the compositor's coming draws (R117), and what happens next. -/
structure Environment where
  mem : List Host.Cell
  color : Store Nibble
  lineWrites : List MemWrite
  draws : List Draw
  inputs : List Input
  deriving DecidableEq, Repr

/-- The state of the machine. -/
structure State where
  cfg : Config
  seq : Sequencer
  raster : RasterState
  ctl : ControlFlags
  regs : PortRegs
  fb : FrameBuffer
  out : Outputs
  env : Environment
  deriving DecidableEq, Repr

/-- The reset values of the sequencer (R169). -/
def Sequencer.reset : Sequencer :=
  { phase := .waitReady, line := 0, sub := .lineStart, cycle := 0, participating := false, frame := 0 }

/-- The reset values of RasterState (R169). -/
def RasterState.reset : RasterState :=
  { charAddr := 0, videoAddr := 0, bitmapAddr := 0, currentMode := Config.resetMode, scheduledMode := none }

/-- The reset values of the control flags (R169). -/
def ControlFlags.reset : ControlFlags :=
  { stopReq := false, ready := false, refused := false, fault := none, faultInfo := none }

/-- Every register-port field `UNSET` (R31, R169). -/
def PortRegs.reset : PortRegs :=
  { border := none, rasterTarget := none, den := none, vwide := none, hwide := none, yscroll := none,
    xscroll := none, bg0 := none, bg1 := none, bg2 := none, bg3 := none }

/-- Construction with a configuration (R168, R169): no event, no line, every pixel unspecified. The environment's
side is quiet (log 2, log 4, log 5) and no byte of memory is listed (log 6). -/
def State.construct (cfg : Config) : State :=
  { cfg := cfg, seq := .reset, raster := .reset, ctl := .reset, regs := .reset, fb := [],
    out := { trace := [], responses := [] },
    env := { mem := [], color := [], lineWrites := [], draws := [], inputs := [] } }

/-- The machine right after reset, in the example configuration (log 1). -/
def State.reset : State := State.construct Config.ex

/-- Why the machine stops. -/
inductive Fault where
  /-- Raised by every host command, and by every refused word, in `FAULTED`: no command has a step there and the
  host is stuck (R86, U17). Safe: the spec gives no step. -/
  | hostStuck
  /-- Raised by every input other than a command in `FAULTED`: the rendering context is dead, no engine step is
  enabled, and "nothing follows it" (R86, R151). Safe: the spec gives no step. -/
  | engineDead
  /-- Raised by a line step whose snapshot would read an `UNSET` register-port field. `READY` rules this out (R39),
  so no run reaches it. Safe: the model stops (log 14). -/
  | unsetSnapshot
  deriving DecidableEq, Repr

/-- Why a step has no meaning. The spec's refusals are not among them: they are next states with the refusal mark set
(R154, log 9). -/
inductive Refusal where
  /-- Raised by an arm of `exec` that has no meaning yet; none is left. Safe: the model stops. -/
  | notModelled (mnemonic : String)
  deriving DecidableEq, Repr

end Sys2Proof.Machine
end

