-- ==== Sys2Proof/Machine/Ops.lean ====
section
/-! DEFINITION. The named operations over stores, memory, the frame buffer, the outputs and the fault state; every
read and write of the machine goes through them. -/

namespace Sys2Proof.Machine

/-! ### Stores -/

/-- The value listed for key `k`, if any. -/
def storeFind {α : Type} (m : Store α) (k : Nat) : Option α :=
  match m with
  | [] => none
  | (a, v) :: rest => if a = k then some v else storeFind rest k

/-- List `v` for key `k`, keeping the keys strictly rising. -/
def storePut {α : Type} (m : Store α) (k : Nat) (v : α) : Store α :=
  match m with
  | [] => [(k, v)]
  | (a, w) :: rest =>
    if k < a then (k, v) :: (a, w) :: rest
    else if k = a then (k, v) :: rest
    else (a, w) :: storePut rest k v

/-- List nothing for key `k`. -/
def storeDrop {α : Type} (m : Store α) (k : Nat) : Store α :=
  match m with
  | [] => []
  | (a, w) :: rest => if a = k then storeDrop rest k else (a, w) :: storeDrop rest k

/-- The value of key `k` where an unlisted key reads as `d`. -/
def storeRead {α : Type} (d : α) (m : Store α) (k : Nat) : α := (storeFind m k).getD d

/-- Write `v` at key `k` where an unlisted key reads as `d`: writing `d` removes the entry. -/
def storeWrite {α : Type} [DecidableEq α] (d : α) (m : Store α) (k : Nat) (v : α) : Store α :=
  if v = d then storeDrop m k else storePut m k v

/-- The keys are strictly rising. -/
abbrev storeRising {α : Type} (m : Store α) : Prop := m.Pairwise (fun p q => p.1 < q.1)

/-! ### System and colour memory (R40, R42, R43, R55) -/

/-- What an unlisted byte of system memory reads as. DESIGN CHOICE (log 6, unsafe): no source gives contents. -/
def memDefault : Byte := 0

/-- What an unlisted colour cell reads as. DESIGN CHOICE (log 6, unsafe). -/
def colorDefault : Nibble := 0

/-- The byte system memory holds at `addr`. -/
def memByte (m : List Host.Cell) (addr : Nat) : Byte := storeRead memDefault m addr

/-- The nibble colour memory holds in cell `n`. -/
def colorCell (m : Store Nibble) (n : Nat) : Nibble := storeRead colorDefault m n

/-- The canonical form of system memory: addresses strictly rising and below `MEM_SIZE`, no byte listed that an
unlisted address reads as. -/
abbrev Memory.wf (m : List Host.Cell) : Prop :=
  storeRising m ∧ ∀ c ∈ m, c.1 < Config.memSize ∧ c.2 ≠ memDefault

/-- The canonical form of colour memory. -/
abbrev Memory.colorWf (m : Store Nibble) : Prop :=
  storeRising m ∧ ∀ c ∈ m, c.1 < Config.colorCells ∧ c.2 ≠ colorDefault

/-- A platform write carried out on the memories. -/
def applyWrite (e : Environment) (w : MemWrite) : Environment :=
  match w with
  | .sys addr v => { e with mem := storeWrite memDefault e.mem addr.toNat v }
  | .color cell v => { e with color := storeWrite colorDefault e.color cell.val v }

/-- Platform writes carried out in order. -/
def applyWrites (e : Environment) (ws : List MemWrite) : Environment := ws.foldl applyWrite e

/-- The platform's writes among the coming inputs, up to the next grant: a line step is followed by its advance, and the
grant is the end of it, with no input left too (R55, R147, log 3). -/
def comingWrites (is : List Input) : List MemWrite :=
  match is with
  | [] => []
  | .command _ :: rest => comingWrites rest
  | .engine :: rest => comingWrites rest
  | .grant :: _ => []
  | .memWrite m :: rest => m :: comingWrites rest
  | .lineWrite m :: rest => m :: comingWrites rest

/-- Every write of the platform in the interval of the line in progress, from now to the end of its advance: the ones
whose instant is left open, and the ones that come while the advance is pending (R55, log 4). -/
def intervalWrites (e : Environment) : List MemWrite := e.lineWrites ++ comingWrites e.inputs

/-- The values the writes of an interval give to the byte at `addr`, in order. -/
def sysValues (ws : List MemWrite) (addr : Nat) : List Byte :=
  match ws with
  | [] => []
  | .sys a v :: rest => if a.toNat = addr then v :: sysValues rest addr else sysValues rest addr
  | .color _ _ :: rest => sysValues rest addr

/-- The values the writes of an interval give to colour cell `n`, in order. -/
def colorValues (ws : List MemWrite) (n : Nat) : List Nibble :=
  match ws with
  | [] => []
  | .color c v :: rest => if c.val = n then v :: colorValues rest n else colorValues rest n
  | .sys _ _ :: rest => colorValues rest n

/-- The value a location held at the chosen instant: `now` and then the `later` ones. A location that is not
written in the interval has one value, whatever the instant (R55). -/
def heldValue {α : Type} (now : α) (later : List α) (instant : Nat) : α :=
  match later with
  | [] => now
  | v :: rest => (now :: v :: rest).getD (instant % (rest.length + 2)) now

/-- The memory oracle's answer for the byte at `addr` (R55). -/
def memOracle (s : State) (id : ReadId) (addr : Nat) : Byte :=
  heldValue (memByte s.env.mem addr) (sysValues (intervalWrites s.env) addr) (Config.readInstant s.seq.cycle id)

/-- `MemRead(addr, 1)` (R42): `.error addr` is `Fault(ADDR_RANGE, addr)`. -/
def memRead (s : State) (id : ReadId) (addr : Nat) : Except Nat Byte :=
  if Config.memSize ≤ addr then .error addr else .ok (memOracle s id addr)

/-- `ColorRead(n)` (R43): it never faults. -/
def colorRead (s : State) (id : ReadId) (n : Nat) : Nibble :=
  heldValue (colorCell s.env.color n) (colorValues (intervalWrites s.env) n) (Config.readInstant s.seq.cycle id)

/-! ### Frame buffer (R30, R44, R118) -/

/-- The written pixels of row `r`. -/
def fbRow (fb : FrameBuffer) (r : Nat) : Row := storeRead [] fb r

/-- Row `r` becomes `row`. -/
def fbSetRow (fb : FrameBuffer) (r : Nat) (row : Row) : FrameBuffer := storeWrite [] fb r row

/-- The pixel written in column `c` of a row, if one has been written. -/
def rowFind (row : Row) (c : Nat) : Option Pixel := row[c]?.join

/-- The pixel written at (`r`, `c`), if one has been written since construction. -/
def fbFind (fb : FrameBuffer) (r c : Nat) : Option Pixel := rowFind (fbRow fb r) c

/-- The frame buffer's pixel at (`r`, `c`): a free value until it is written (R30, log 7). -/
def fbPixel (fb : FrameBuffer) (r c : Nat) : Pixel :=
  (fbFind fb r c).getD (BitVec.ofNat 5 (Config.fbPowerOn r c).val)

/-- `FbWrite` at one pixel (R118): the old pixel is overwritten by a new one, or stays where none is written. -/
def fbWrite (old new : Option Pixel) : Option Pixel :=
  match new with
  | some v => some v
  | none => old

/-- Column `x` lies in the span `[lo, hi)`. -/
def inSpan (lo hi x : Nat) : Bool := decide (lo ≤ x) && decide (x < hi)

/-- The `n` columns from `x` on, ascending: inside the span `[lo, hi)` each is written with the pixel `g` gives for it,
if any; `row` holds the old pixels from `x` on. -/
def paintFrom (g : Nat → Option Pixel) (lo hi n x : Nat) (row : Row) : Row :=
  match n with
  | 0 => []
  | m + 1 =>
    fbWrite row.head?.join (if inSpan lo hi x then g x else none) :: paintFrom g lo hi m (x + 1) row.tail

/-- `for x in [lo, hi): FbWrite(R, x, g x)` on a row `w` pixels wide (R115 to R118). -/
def paint (w : Nat) (g : Nat → Option Pixel) (lo hi : Nat) (row : Row) : Row := paintFrom g lo hi w 0 row

/-- `paintFrom` where a pixel's computation reads memory: it stops at the first read that faults, and answers the
address (R139). -/
def paintCheckedFrom (f : Nat → Except Nat (Option Pixel)) (lo hi n x : Nat) (row : Row) : Except Nat Row :=
  match n with
  | 0 => .ok []
  | m + 1 =>
    match (if inSpan lo hi x then f x else .ok none) with
    | .error addr => .error addr
    | .ok new => (paintCheckedFrom f lo hi m (x + 1) row.tail).map (fbWrite row.head?.join new :: ·)

/-- `paint` where a pixel's computation reads memory (R137, R138). -/
def paintChecked (w : Nat) (f : Nat → Except Nat (Option Pixel)) (lo hi : Nat) (row : Row) : Except Nat Row :=
  paintCheckedFrom f lo hi w 0 row

/-- Row `r` of a line step that a fault cuts short: a free value in each of its `w` columns (R151, U4, log 13). -/
def cutRow (cycle w r : Nat) : Row := paint w (fun x => some (BitVec.ofNat 5 (Config.cutPixel cycle r x).val)) 0 w []

/-- Row `r` of the machine's frame buffer becomes `row`. -/
def State.setRow (s : State) (r : Nat) (row : Row) : State := { s with fb := fbSetRow s.fb r row }

/-! ### Outputs (R10, R67) -/

/-- `emit E` (R9, R10). -/
def State.emit (s : State) (e : Event) : State := { s with out := { s.out with trace := s.out.trace ++ [e] } }

/-- Return a response word to the host (R67). -/
def State.respond (s : State) (r : Response) : State :=
  { s with out := { s.out with responses := s.out.responses ++ [r] } }

/-! ### Registers -/

/-- Write the sequencer's registers. -/
def State.setSeq (s : State) (q : Sequencer) : State := { s with seq := q }

/-- Write RasterState. -/
def State.setRaster (s : State) (r : RasterState) : State := { s with raster := r }

/-- Write the control flags. -/
def State.setCtl (s : State) (c : ControlFlags) : State := { s with ctl := c }

/-- Write the register-port fields. -/
def State.setRegs (s : State) (r : PortRegs) : State := { s with regs := r }

/-- Change the environment's side. -/
def State.setEnv (s : State) (e : Environment) : State := { s with env := e }

/-! ### Faults and refusals (R151, R154) -/

/-- The numeric code of a fault (R152). -/
def faultCode : FaultCode → Nat
  | .addrRange => 1

/-- `raise Fault(code, info)` inside a line step (R151): the code and what it records are stored, the engine enters
`FAULTED`, `Faulted(code)` is emitted, and everything else is kept. -/
def raiseFault (code : FaultCode) (addr : Nat) (s : State) : State :=
  ((s.setCtl { s.ctl with fault := some code, faultInfo := some { addr := addr, line := s.seq.line } }).setSeq
    { s.seq with phase := .faulted }).emit (.faulted code)

/-- `refuse(reason)` (R154): nothing changes but the refusal mark, whatever the reason. -/
def refuse (_reason : RefuseReason) (s : State) : State := s.setCtl { s.ctl with refused := true }

/-- One atomic step of the host from `s` to `t` (R86): it exists in every phase but `FAULTED`. -/
def hostStep (s t : State) : Host.Outcome State Fault Refusal :=
  if s.seq.phase = .faulted then .fault .hostStuck else .next t

end Sys2Proof.Machine
end

