-- ==== Sys2Proof/Machine/Operands.lean ====
section
/-! DEFINITION. What the commands and the line step make of their operands: the bitmap mask (R71), the mode
precedence (R74), the line snapshot (R91), the window extents (R108), cell addressing and bit fields (R130, R131). -/

namespace Sys2Proof.Machine

/-- `BITMAP & 0xE000`: the low 13 bits cleared (R71). -/
def maskBitmap (a : Addr) : Addr := a &&& 0xE000#16

/-- `ResolveMode(b, e, m)` (R74). -/
def resolveMode (b e m : BitVec 1) : ModeVariant :=
  if b = 1#1 then (if m = 1#1 then .bitmapMulti else .bitmapNormal)
  else if m = 1#1 then .textMulti
  else if e = 1#1 then .textExtended
  else .textNormal

/-- The 3-bit code of a mode variant (R24). -/
def modeCode : ModeVariant → BitVec 3
  | .textNormal => 0
  | .textMulti => 1
  | .textExtended => 2
  | .bitmapNormal => 3
  | .bitmapMulti => 4

/-- The line snapshot (R32): numbers only (R39). -/
structure Snapshot where
  border : Nibble
  rasterTarget : LineNo
  den : BitVec 1
  vwide : BitVec 1
  hwide : BitVec 1
  yscroll : BitVec 3
  xscroll : BitVec 3
  bg0 : Nibble
  bg1 : Nibble
  bg2 : Nibble
  bg3 : Nibble
  charAddr : Addr
  videoAddr : Addr
  bitmapAddr : Addr
  deriving DecidableEq, Repr

/-- `Snapshot()` (R91): one atomic read of the register-port fields and the addresses; none while a field is
`UNSET`, which `READY` rules out (R39). -/
def snapshot (s : State) : Option Snapshot := do
  let border ← s.regs.border
  let rasterTarget ← s.regs.rasterTarget
  let den ← s.regs.den
  let vwide ← s.regs.vwide
  let hwide ← s.regs.hwide
  let yscroll ← s.regs.yscroll
  let xscroll ← s.regs.xscroll
  let bg0 ← s.regs.bg0
  let bg1 ← s.regs.bg1
  let bg2 ← s.regs.bg2
  let bg3 ← s.regs.bg3
  return { border, rasterTarget, den, vwide, hwide, yscroll, xscroll, bg0, bg1, bg2, bg3,
           charAddr := s.raster.charAddr, videoAddr := s.raster.videoAddr, bitmapAddr := s.raster.bitmapAddr }

/-- `BG[i]` of the snapshot. -/
def bgColor (snap : Snapshot) (i : BitVec 2) : Nibble :=
  if i = 0#2 then snap.bg0 else if i = 1#2 then snap.bg1 else if i = 2#2 then snap.bg2 else snap.bg3

/-- `HExtent` (R108): the window's columns `[wl, wr)`. -/
def hExtent (g : Geometry) (hwide : BitVec 1) : Nat × Nat :=
  if hwide = 1#1 then
    (g.contentX0 + Config.hNarrowL, g.contentX0 + Config.contentW - Config.hNarrowR)
  else (g.contentX0, g.contentX0 + Config.contentW)

/-- `VExtent` (R108): the window's rows `[wt, wb)`. -/
def vExtent (g : Geometry) (vwide : BitVec 1) : Nat × Nat :=
  if vwide = 1#1 then
    (g.contentY0 + Config.vNarrowT, g.contentY0 + Config.contentH - Config.vNarrowB)
  else (g.contentY0, g.contentY0 + Config.contentH)

/-- The line is visible (R105). -/
def visible (g : Geometry) (line : Nat) : Bool := decide (g.visFirst ≤ line ∧ line < g.visFirst + g.frameH)

/-- `Row(L) = L - VIS_FIRST` (R105). -/
def rowOf (g : Geometry) (line : Nat) : Nat := line - g.visFirst

/-- Frame row `R` is an in-window row (R109). -/
def inWindowRow (g : Geometry) (snap : Snapshot) (R : Nat) : Bool :=
  decide ((vExtent g snap.vwide).1 ≤ R ∧ R < (vExtent g snap.vwide).2 ∧ snap.den = 1#1)

/-- The cell number `n` of content pixel (`r`, `c`) (R130). -/
def cellOf (r c : Nat) : Nat := (r / Config.cell) * Config.cols + c / Config.cell

/-- `hbit(x)` for column-in-cell `cx`: bit 7 is leftmost (R131). -/
def hbit (x : Byte) (cx : Nat) : Bool := x.getLsbD (7 - cx)

/-- `mpair(x)` for column-in-cell `cx` (R131). -/
def mpair (x : Byte) (cx : Nat) : BitVec 2 := x.extractLsb' (6 - 2 * (cx / 2)) 2

/-- `x[7:4]`. -/
def hiNibble (x : Byte) : Nibble := x.extractLsb' 4 4

/-- `x[3:0]`. -/
def loNibble (x : Byte) : Nibble := x.extractLsb' 0 4

/-- `zext_4(k[2:0])` (R133). -/
def low3 (k : Nibble) : Nibble := (k.extractLsb' 0 3).setWidth 4

/-- `k[3]` (R133). -/
def bit3 (k : Nibble) : Bool := k.getLsbD 3

/-- A colour as a frame-buffer pixel (R30). -/
def toPixel (c : Nibble) : Pixel := c.setWidth 5

end Sys2Proof.Machine
end

