-- ==== Sys2Proof/Machine/Flags.lean ====
section
/-! DEFINITION. The status predicates: the bad-line test (R89), whether every register-port field holds a number
(R75), and the writes of the control flags (R27, R28). There are no condition codes (R35). -/

namespace Sys2Proof.Machine

/-- `IsBadLine(L, ys)` (R89). -/
def isBadLine (line : Nat) (ys : BitVec 3) : Bool := decide (line % Config.badlinePeriod = ys.toNat)

/-- No register-port field is `UNSET` (R75). -/
def allSet (r : PortRegs) : Bool :=
  r.border.isSome && r.rasterTarget.isSome && r.den.isSome && r.vwide.isSome && r.hwide.isSome && r.yscroll.isSome
    && r.xscroll.isSome && r.bg0.isSome && r.bg1.isSome && r.bg2.isSome && r.bg3.isSome

/-- `S.stopReq <- 1` (R73). -/
def requestStop (s : State) : State := s.setCtl { s.ctl with stopReq := true }

/-- `if S.ready = 0: S.ready <- 1`: a one-shot signal (R75). A refused `READY` does not use it up (log 22). -/
def setReady (s : State) : State := if s.ctl.ready then s else s.setCtl { s.ctl with ready := true }

end Sys2Proof.Machine
end

