-- ==== Sys2Proof/Machine/Rasterers.lean ====
section
/-! DEFINITION. The mode rasterers (43_mode_rasterers.md): the five capabilities, the fetches, and the pixel functions
`Back` and `Fore` of the five variants, the default of `MODE_PIXELS` (D24, log 16). -/

namespace Sys2Proof.Machine

/-- `StartFrame(mode, charAddr, videoAddr, bitmapAddr)`: skip for every variant (R127, log 15). -/
def startFrame (mode : ModeVariant) (_char _video _bitmap : Addr) (s : State) : State :=
  match mode with
  | .textNormal => s
  | .textMulti => s
  | .textExtended => s
  | .bitmapNormal => s
  | .bitmapMulti => s

/-- `OnBadLine(mode, L)`: skip for every variant, `BADLINE_HOOK` = identity (R128, log 15). -/
def onBadLine (mode : ModeVariant) (_line : Nat) (s : State) : State :=
  match mode with
  | .textNormal => s
  | .textMulti => s
  | .textExtended => s
  | .bitmapNormal => s
  | .bitmapMulti => s

/-- `DebugColor(mode)` (R129): one of the reserved indices 16 and 17, which one being a free value (log 17). No rule
calls it, since the overlay is disabled (R122). -/
def debugColor (mode : ModeVariant) : Pixel := if Config.debugColorHigh mode then 17 else 16

/-! ### Fetches (R131) -/

/-- `VM(n)`: the video-matrix byte of cell `n`. -/
def fetchVM (s : State) (snap : Snapshot) (content : Bool) (c n : Nat) : Except Nat Byte :=
  memRead s ⟨content, c, .vm⟩ (snap.videoAddr.toNat + n)

/-- `CR(n)`: the colour of cell `n`. -/
def fetchCR (s : State) (content : Bool) (c n : Nat) : Nibble := colorRead s ⟨content, c, .cr⟩ n

/-- `CH(code)` on glyph row `cy`. -/
def fetchCH (s : State) (snap : Snapshot) (content : Bool) (c code cy : Nat) : Except Nat Byte :=
  memRead s ⟨content, c, .ch⟩ (snap.charAddr.toNat + 8 * code + cy)

/-- `BM(n)` on bitmap row `cy`. -/
def fetchBM (s : State) (snap : Snapshot) (content : Bool) (c n cy : Nat) : Except Nat Byte :=
  memRead s ⟨content, c, .bm⟩ (snap.bitmapAddr.toNat + 8 * n + cy)

/-! ### The five variants (R132 to R136): `r`, `c` are the content row and column -/

/-- `Back(TextNormal)` (R132). -/
def backTextNormal (snap : Snapshot) : Except Nat Nibble := .ok snap.bg0

/-- `Fore(TextNormal)` (R132). -/
def foreTextNormal (s : State) (snap : Snapshot) (r c : Nat) : Except Nat (Option Nibble) := do
  let n := cellOf r c
  let v ← fetchVM s snap true c n
  let k := fetchCR s true c n
  let g ← fetchCH s snap true c v.toNat (r % 8)
  return if hbit g (c % 8) then some k else none

/-- `Back(TextMulti)` (R133). -/
def backTextMulti (snap : Snapshot) : Except Nat Nibble := .ok snap.bg0

/-- The colour of a multicolour text pixel from its glyph byte and its cell's colour (R133). -/
def textMultiPixel (snap : Snapshot) (g : Byte) (k : Nibble) (cx : Nat) : Option Nibble :=
  if bit3 k = false then (if hbit g cx then some (low3 k) else none)
  else if mpair g cx = 0b00#2 then none
  else if mpair g cx = 0b01#2 then some snap.bg1
  else if mpair g cx = 0b10#2 then some snap.bg2
  else some (low3 k)

/-- `Fore(TextMulti)` (R133). -/
def foreTextMulti (s : State) (snap : Snapshot) (r c : Nat) : Except Nat (Option Nibble) := do
  let n := cellOf r c
  let v ← fetchVM s snap true c n
  let k := fetchCR s true c n
  let g ← fetchCH s snap true c v.toNat (r % 8)
  return textMultiPixel snap g k (c % 8)

/-- `Back(TextExtended)` (R134): the two high bits of the video byte choose the background. -/
def backTextExtended (s : State) (snap : Snapshot) (r c : Nat) : Except Nat Nibble := do
  let v ← fetchVM s snap false c (cellOf r c)
  return bgColor snap (v.extractLsb' 6 2)

/-- `Fore(TextExtended)` (R134): the glyph code is the low six bits of the video byte. -/
def foreTextExtended (s : State) (snap : Snapshot) (r c : Nat) : Except Nat (Option Nibble) := do
  let n := cellOf r c
  let v ← fetchVM s snap true c n
  let k := fetchCR s true c n
  let g ← fetchCH s snap true c (v.extractLsb' 0 6).toNat (r % 8)
  return if hbit g (c % 8) then some k else none

/-- `Back(BitmapNormal)` (R135). -/
def backBitmapNormal (s : State) (snap : Snapshot) (r c : Nat) : Except Nat Nibble := do
  let v ← fetchVM s snap false c (cellOf r c)
  return loNibble v

/-- `Fore(BitmapNormal)` (R135). -/
def foreBitmapNormal (s : State) (snap : Snapshot) (r c : Nat) : Except Nat (Option Nibble) := do
  let n := cellOf r c
  let v ← fetchVM s snap true c n
  let b ← fetchBM s snap true c n (r % 8)
  return if hbit b (c % 8) then some (hiNibble v) else none

/-- `Back(BitmapMulti)` (R136). -/
def backBitmapMulti (snap : Snapshot) : Except Nat Nibble := .ok snap.bg0

/-- The colour of a multicolour bitmap pixel from its bitmap byte, video byte and colour (R136). -/
def bitmapMultiPixel (b v : Byte) (k : Nibble) (cx : Nat) : Option Nibble :=
  if mpair b cx = 0b00#2 then none
  else if mpair b cx = 0b01#2 then some (hiNibble v)
  else if mpair b cx = 0b10#2 then some (loNibble v)
  else some k

/-- `Fore(BitmapMulti)` (R136). -/
def foreBitmapMulti (s : State) (snap : Snapshot) (r c : Nat) : Except Nat (Option Nibble) := do
  let n := cellOf r c
  let v ← fetchVM s snap true c n
  let k := fetchCR s true c n
  let b ← fetchBM s snap true c n (r % 8)
  return bitmapMultiPixel b v k (c % 8)

/-- `Back(mode, snap, r, c)`: dispatch by the variant, no default case (R126). -/
def back (s : State) (mode : ModeVariant) (snap : Snapshot) (r c : Nat) : Except Nat Nibble :=
  match mode with
  | .textNormal => backTextNormal snap
  | .textMulti => backTextMulti snap
  | .textExtended => backTextExtended s snap r c
  | .bitmapNormal => backBitmapNormal s snap r c
  | .bitmapMulti => backBitmapMulti snap

/-- `Fore(mode, snap, r, c)`: dispatch by the variant, no default case (R126). -/
def fore (s : State) (mode : ModeVariant) (snap : Snapshot) (r c : Nat) : Except Nat (Option Nibble) :=
  match mode with
  | .textNormal => foreTextNormal s snap r c
  | .textMulti => foreTextMulti s snap r c
  | .textExtended => foreTextExtended s snap r c
  | .bitmapNormal => foreBitmapNormal s snap r c
  | .bitmapMulti => foreBitmapMulti s snap r c

/-! ### The span operations (R137, R138) -/

/-- The pixel `Backfill` writes in frame column `x`. -/
def backPixel (s : State) (mode : ModeVariant) (snap : Snapshot) (r x : Nat) : Except Nat (Option Pixel) :=
  match back s mode snap r (x - s.cfg.geo.contentX0) with
  | .error addr => .error addr
  | .ok v => .ok (some (toPixel v))

/-- The pixel `RasterContent` writes in frame column `x`, none where the content is background. -/
def forePixel (s : State) (mode : ModeVariant) (snap : Snapshot) (r x : Nat) : Except Nat (Option Pixel) :=
  match fore s mode snap r (x - s.cfg.geo.contentX0) with
  | .error addr => .error addr
  | .ok v => .ok (v.map toPixel)

/-- `Backfill` of the window span of a row (R111, R137). -/
def backfill (s : State) (mode : ModeVariant) (snap : Snapshot) (r wl wr : Nat) (row : Row) : Except Nat Row :=
  paintChecked s.cfg.geo.frameW (backPixel s mode snap r) wl wr row

/-- `RasterContent` over the window span of a row (R113, R138). -/
def rasterContent (s : State) (mode : ModeVariant) (snap : Snapshot) (r wl wr : Nat) (row : Row) : Except Nat Row :=
  paintChecked s.cfg.geo.frameW (forePixel s mode snap r) wl wr row

end Sys2Proof.Machine
end

