-- ==== Sys2Proof/Machine/Compose.lean ====
section
/-! DEFINITION. Line composition and the frame-buffer write controller (42_line_composition.md). -/

namespace Sys2Proof.Machine

/-- The compositor's next draw: nothing when no draw is pending (R117, log 5). -/
def nextDraw (e : Environment) : Draw := e.draws.headD []

/-- The compositor has made its next draw. -/
def State.dropDraw (s : State) : State := s.setEnv { s.env with draws := s.env.draws.tail }

/-- The pixels of a draw, by column (R117): indices 0 to 15. -/
def drawPixel (d : Draw) (x : Nat) : Option Pixel := (storeFind d x).map toPixel

/-- A draw written into a row (R117): only columns of the row. -/
def paintDraw (w : Nat) (d : Draw) (row : Row) : Row := paint w (drawPixel d) 0 w row

/-- The sprite line coordinate of row `R` (R112, R114). -/
def spriteCoord (g : Geometry) (R : Nat) : Nat := R + g.spriteYOffset

/-- The call `SpriteBack(videoAddr, R, coord)` (R112): its event, and the compositor's draw is used up. -/
def callSpriteBack (snap : Snapshot) (R : Nat) (s : State) : State :=
  (s.emit (.spriteBack snap.videoAddr R (spriteCoord s.cfg.geo R))).dropDraw

/-- The call `SpriteFront(R, coord)` (R114). -/
def callSpriteFront (R : Nat) (s : State) : State :=
  (s.emit (.spriteFront R (spriteCoord s.cfg.geo R))).dropDraw

/-- `BorderStrips(R, b, wl, wr)` (R115). -/
def borderStrips (w : Nat) (b : Nibble) (wl wr : Nat) (row : Row) : Row :=
  paint w (fun _ => some (toPixel b)) wr w (paint w (fun _ => some (toPixel b)) 0 wl row)

/-- `FillBorderRow(R, b)` (R116). -/
def fillBorderRow (w : Nat) (b : Nibble) (row : Row) : Row := paint w (fun _ => some (toPixel b)) 0 w row

/-- `ComposeWindowRow` (R110). A fault answers the address and the state at that point: the events so far, and
every pixel of the row a free value (R151, R158, U4, log 13). -/
def composeWindowRow (R : Nat) (snap : Snapshot) (mode : ModeVariant) (wl wr : Nat) (s : State) :
    Except (Nat × State) State :=
  let r := R - s.cfg.geo.contentY0
  let w := s.cfg.geo.frameW
  match backfill s mode snap r wl wr (fbRow s.fb R) with
  | .error addr => .error (addr, s.setRow R (cutRow s.seq.cycle w R))
  | .ok row1 =>
    let row2 := paintDraw w (nextDraw s.env) row1
    let s2 := callSpriteBack snap R s
    match rasterContent s mode snap r wl wr row2 with
    | .error addr => .error (addr, s2.setRow R (cutRow s.seq.cycle w R))
    | .ok row3 =>
      let row4 := paintDraw w (nextDraw s2.env) row3
      let s4 := callSpriteFront R s2
      .ok (s4.setRow R (borderStrips w snap.border wl wr row4))

/-- `RasterCompare(L, snap)` (R107). -/
def rasterCompare (snap : Snapshot) (s : State) : State :=
  if s.seq.line = snap.rasterTarget then s.emit (.rasterIrq s.seq.line) else s

/-- The pixel work of a visible line `L` (R106 policy steps 3 to 5). -/
def renderRow (line : Nat) (snap : Snapshot) (mode : ModeVariant) (s : State) : Except (Nat × State) State :=
  let g := s.cfg.geo
  let R := rowOf g line
  if inWindowRow g snap R then
    composeWindowRow R snap mode (hExtent g snap.hwide).1 (hExtent g snap.hwide).2 s
  else .ok (s.setRow R (fillBorderRow g.frameW snap.border (fbRow s.fb R)))

/-- `RenderLine(L, snap, mode)` for `L = S.line` (R106). -/
def renderLine (snap : Snapshot) (mode : ModeVariant) (s : State) : Except (Nat × State) State :=
  let line := s.seq.line.toNat
  let s1 := if visible s.cfg.geo line || Config.irqOnInvisible then rasterCompare snap s else s
  if visible s.cfg.geo line then renderRow line snap mode s1 else .ok s1

end Sys2Proof.Machine
end

