-- ==== Sys2Proof/Machine/Sequencer.lean ====
section
/-! DEFINITION. The scanline sequencer, the engine agent's state machine (41_scanline_sequencer.md). -/

namespace Sys2Proof.Machine

/-- `Commit()` (R94). -/
def commit (s : State) : State :=
  match s.raster.scheduledMode with
  | some v => s.setRaster { s.raster with currentMode := v, scheduledMode := none }
  | none => s

/-- The three effects of a bad line, together and in order (R92, R93, R94, R95). -/
def badLineEffects (s : State) : State :=
  let s1 := commit (s.emit (.steal Config.badlinePenalty))
  onBadLine s1.raster.currentMode s.seq.line.toNat s1

/-- `Stop()` at a line boundary (R100). -/
def stop (s : State) : State := (s.setSeq { s.seq with phase := .stopped, participating := false }).emit .stopped

/-- The advance request that ends a line step (R96). -/
def requestAdvance (s : State) : State :=
  (s.emit (.advance Config.cyclesPerLine)).setSeq { s.seq with sub := .advancing }

/-- The state in which the line step renders: the bad-line effects have happened if the line is bad (R90). -/
def beforeRender (snap : Snapshot) (s : State) : State :=
  if isBadLine s.seq.line.toNat snap.yscroll then badLineEffects s else s

/-- The line step after its snapshot (R90, R99). -/
def renderStep (snap : Snapshot) (s : State) : State :=
  let s1 := beforeRender snap s
  match renderLine snap s1.raster.currentMode s1 with
  | .ok s2 => requestAdvance s2
  | .error (addr, s2) => raiseFault .addrRange addr s2

/-- `LineStep` (R90). -/
def lineStep (s : State) : Host.Outcome State Fault Refusal :=
  if s.ctl.stopReq then .next (stop s)
  else
    match snapshot s with
    | some snap => .next (renderStep snap s)
    | none => .fault .unsetSnapshot

/-- `Publish()` (R98): the sink gets a copy of the frame buffer. -/
def publish (s : State) : State := (s.emit (.publish s.fb)).setSeq { s.seq with frame := s.seq.frame + 1 }

/-- The interval of the line is over: the platform's writes whose instant was left open have happened too (R55, log 4). -/
def settleWrites (s : State) : State :=
  s.setEnv { applyWrites s.env s.env.lineWrites with lineWrites := [] }

/-- `AdvanceDone` (R97). -/
def advanceDone (s : State) : State :=
  let s1 := (settleWrites s).setSeq { s.seq with cycle := s.seq.cycle + Config.cyclesPerLine, sub := .lineStart }
  if s1.seq.line.toNat = s1.cfg.geo.totalLines - 1 then
    let s2 := publish s1
    s2.setSeq { s2.seq with line := 0 }
  else s1.setSeq { s1.seq with line := s1.seq.line + 1 }

/-- `StopWaiting` (R101). -/
def stopWaiting (s : State) : State := (s.setSeq { s.seq with phase := .stopped }).emit .stopped

/-- `Start` (R102). -/
def start (s : State) : State := (s.emit .resume).setSeq { s.seq with participating := true, phase := .running }

/-- One turn of the engine: its enabled step, or a wait if none is enabled (R9, R166). `granted` says whether the
arbiter grants a pending advance (R147). -/
def engineStep (granted : Bool) (s : State) : Host.Outcome State Fault Refusal :=
  match s.seq.phase with
  | .waitReady =>
    if s.ctl.stopReq then .next (stopWaiting s)
    else if s.ctl.ready then .next (start s)
    else .next s
  | .running =>
    match s.seq.sub with
    | .lineStart => lineStep s
    | .advancing => if granted then .next (advanceDone s) else .next s
  | .stopped => .next s
  | .faulted => .fault .engineDead

/-- The arbiter's grant: the pending advance completes; with none pending nothing happens (R147, log 3). -/
def grantStep (s : State) : Host.Outcome State Fault Refusal :=
  match s.seq.phase with
  | .waitReady => .next s
  | .running =>
    match s.seq.sub with
    | .lineStart => .next s
    | .advancing => .next (advanceDone s)
  | .stopped => .next s
  | .faulted => .fault .engineDead

/-- The platform writes memory now (R41); reads of a line whose interval this falls in have seen it coming (log 4). -/
def memWriteStep (m : MemWrite) (s : State) : Host.Outcome State Fault Refusal :=
  if s.seq.phase = .faulted then .fault .engineDead else .next (s.setEnv (applyWrite s.env m))

/-- The platform writes memory inside the current line's interval (R55, log 4). -/
def lineWriteStep (m : MemWrite) (s : State) : Host.Outcome State Fault Refusal :=
  if s.seq.phase = .faulted then .fault .engineDead
  else .next (s.setEnv { s.env with lineWrites := s.env.lineWrites ++ [m] })

end Sys2Proof.Machine
end

