-- ==== Sys2Proof/Machine/EngineOps.lean ====
section
/-! DEFINITION. The RasterEngine commands (R71 to R76): SETADDR, SETMODE, TERM, GETLINE, READY. -/

namespace Sys2Proof.Machine

/-- `SETADDR char, video, bitmap` (R71): the three writes and the re-priming are one atomic update. -/
def execSetAddr (char video bitmap : Addr) (s : State) : Host.Outcome State Fault Refusal :=
  let s1 := s.setRaster { s.raster with charAddr := char, videoAddr := video, bitmapAddr := maskBitmap bitmap }
  hostStep s (startFrame s1.raster.currentMode s1.raster.charAddr s1.raster.videoAddr s1.raster.bitmapAddr s1)

/-- `SETMODE b, e, m` (R72): stages the resolved mode, replacing an earlier staged one. -/
def execSetMode (b e m : BitVec 1) (s : State) : Host.Outcome State Fault Refusal :=
  hostStep s (s.setRaster { s.raster with scheduledMode := some (resolveMode b e m) })

/-- `TERM` (R73). -/
def execTerm (s : State) : Host.Outcome State Fault Refusal := hostStep s (requestStop s)

/-- `GETLINE` (R76): the current line, zero-extended to 16 bits (R67). -/
def execGetLine (s : State) : Host.Outcome State Fault Refusal := hostStep s (s.respond (s.seq.line.setWidth 16))

/-- `READY` (R75): refused while a register-port field is `UNSET`. DESIGN CHOICE (log 22, unsafe): R75's prose says that
after a refused `READY` the engine "never starts", its pseudocode and R102 start it on a later `READY` that finds every
field set; the model follows the pseudocode. -/
def execReady (s : State) : Host.Outcome State Fault Refusal :=
  hostStep s (if allSet s.regs then setReady s else refuse .unsetRegister s)

end Sys2Proof.Machine
end

