-- ==== Sys2Proof/Machine/PortOps.lean ====
section
/-! DEFINITION. The register-port commands (R77 to R85): WRBORDER, WRRASTER, RDRASTER, WRDEN, WRVWIDE, WRHWIDE,
WRYSCROLL, WRXSCROLL, WRBG. -/

namespace Sys2Proof.Machine

/-- `WRBORDER color` (R77). -/
def execWrBorder (color : Nibble) (s : State) : Host.Outcome State Fault Refusal :=
  hostStep s (s.setRegs { s.regs with border := some color })

/-- `WRRASTER target` (R78): the write side of the raster register. -/
def execWrRaster (target : LineNo) (s : State) : Host.Outcome State Fault Refusal :=
  hostStep s (s.setRegs { s.regs with rasterTarget := some target })

/-- `RDRASTER` (R79): the read side of the raster register, the current line and never the target. -/
def execRdRaster (s : State) : Host.Outcome State Fault Refusal := hostStep s (s.respond (s.seq.line.setWidth 16))

/-- `WRDEN v` (R80). -/
def execWrDen (v : BitVec 1) (s : State) : Host.Outcome State Fault Refusal :=
  hostStep s (s.setRegs { s.regs with den := some v })

/-- `WRVWIDE v` (R81). -/
def execWrVwide (v : BitVec 1) (s : State) : Host.Outcome State Fault Refusal :=
  hostStep s (s.setRegs { s.regs with vwide := some v })

/-- `WRHWIDE v` (R82). -/
def execWrHwide (v : BitVec 1) (s : State) : Host.Outcome State Fault Refusal :=
  hostStep s (s.setRegs { s.regs with hwide := some v })

/-- `WRYSCROLL v` (R83). -/
def execWrYscroll (v : BitVec 3) (s : State) : Host.Outcome State Fault Refusal :=
  hostStep s (s.setRegs { s.regs with yscroll := some v })

/-- `WRXSCROLL v` (R84). -/
def execWrXscroll (v : BitVec 3) (s : State) : Host.Outcome State Fault Refusal :=
  hostStep s (s.setRegs { s.regs with xscroll := some v })

/-- `BG[IDX] <- COLOR` (R85). -/
def writeBg (idx : BitVec 2) (color : Nibble) (r : PortRegs) : PortRegs :=
  if idx = 0#2 then { r with bg0 := some color }
  else if idx = 1#2 then { r with bg1 := some color }
  else if idx = 2#2 then { r with bg2 := some color }
  else { r with bg3 := some color }

/-- `WRBG idx, color` (R85). -/
def execWrBg (idx : BitVec 2) (color : Nibble) (s : State) : Host.Outcome State Fault Refusal :=
  hostStep s (s.setRegs (writeBg idx color s.regs))

end Sys2Proof.Machine
end

