-- ==== Sys2Proof/Machine/Dispatch.lean ====
section
/-! DEFINITION. The meaning of every host command, one arm per row of the opcode table (R63). -/

namespace Sys2Proof.Machine

def exec (i : Instr) (s : State) : Host.Outcome State Fault Refusal :=
  match i with
  | .setAddr char video bitmap => Sys2Proof.Machine.execSetAddr char video bitmap s
  | .setMode b e m => Sys2Proof.Machine.execSetMode b e m s
  | .term => Sys2Proof.Machine.execTerm s
  | .getLine => Sys2Proof.Machine.execGetLine s
  | .ready => Sys2Proof.Machine.execReady s
  | .wrBorder color => Sys2Proof.Machine.execWrBorder color s
  | .wrRaster target => Sys2Proof.Machine.execWrRaster target s
  | .rdRaster => Sys2Proof.Machine.execRdRaster s
  | .wrDen v => Sys2Proof.Machine.execWrDen v s
  | .wrVwide v => Sys2Proof.Machine.execWrVwide v s
  | .wrHwide v => Sys2Proof.Machine.execWrHwide v s
  | .wrYscroll v => Sys2Proof.Machine.execWrYscroll v s
  | .wrXscroll v => Sys2Proof.Machine.execWrXscroll v s
  | .wrBg idx color => Sys2Proof.Machine.execWrBg idx color s

end Sys2Proof.Machine
end

