-- ==== Sys2Proof/Machine/Inputs.lean ====
section
/-! DEFINITION. What one input makes the machine do: the command port (R60, R64, R86) and the other agents (R4). -/

namespace Sys2Proof.Machine

/-- The host performs one command word: the decoded command's meaning, or a refusal, which also has a step in every
phase but `FAULTED` (R65, R66, R86). -/
def hostWord (w : CmdWord) (s : State) : Host.Outcome State Fault Refusal :=
  match decode w with
  | .ok i => exec i s
  | .error reason => hostStep s (refuse reason s)

/-- One input carried out (log 2). -/
def inputStep (i : Input) (s : State) : Host.Outcome State Fault Refusal :=
  match i with
  | .command w => hostWord w s
  | .engine => engineStep false s
  | .grant => grantStep s
  | .memWrite m => memWriteStep m s
  | .lineWrite m => lineWriteStep m s

/-- One step of the machine: the next input, taken off the list; with no input left the engine runs on and the fair
arbiter grants its advances (R149, log 3). -/
def machineStep (s : State) : Host.Outcome State Fault Refusal :=
  match s.env.inputs with
  | [] => engineStep true s
  | i :: rest => inputStep i (s.setEnv { s.env with inputs := rest })

/-- The next command word the port is given, before every other input. -/
def pushCommand (s : State) (w : CmdWord) : State :=
  s.setEnv { s.env with inputs := .command w :: s.env.inputs }

end Sys2Proof.Machine
end

