-- ==== Sys2Proof/Machine/Step.lean ====
section
/-! DEFINITION. One step of the machine, and a command word placed so that the very next step performs it. -/

namespace Sys2Proof.Machine

/-- One step of the machine (R53: one step of one agent). -/
def step (s : State) : Host.Outcome State Fault Refusal := machineStep s

/-- `s` with the opcode-table word as the next input of the command port (R60, log 12). -/
def State.withFetchWord (s : State) (nbits w : Nat) : State := pushCommand s (tableWord nbits w)

end Sys2Proof.Machine
end

