-- ==== Sys2Proof/Machine/Assembler.lean ====
section
/-! DEFINITION. The assembler: pseudo-instructions (R70), the operand check and the words (R69), and the text form of
a line (R69, log 21). No part of the machine's step. -/

namespace Sys2Proof.Machine

/-- The flags of the name form of `SETMODE` (R70). -/
def modeFlags : ModeVariant → Instr
  | .textNormal => .setMode 0 0 0
  | .textMulti => .setMode 0 0 1
  | .textExtended => .setMode 0 1 0
  | .bitmapNormal => .setMode 1 0 0
  | .bitmapMulti => .setMode 1 0 1

/-- The commands a statement stands for, in order (R69, R70); operands that do not fit are cut, and `assemble` refuses
such a statement. -/
def expand : Asm → List Instr
  | .setAddr c v b => [.setAddr (BitVec.ofNat 16 c) (BitVec.ofNat 16 v) (BitVec.ofNat 16 b)]
  | .setMode b e m => [.setMode (BitVec.ofNat 1 b) (BitVec.ofNat 1 e) (BitVec.ofNat 1 m)]
  | .term => [.term]
  | .getLine => [.getLine]
  | .ready => [.ready]
  | .wrBorder c => [.wrBorder (BitVec.ofNat 4 c)]
  | .wrRaster t => [.wrRaster (BitVec.ofNat 9 t)]
  | .rdRaster => [.rdRaster]
  | .wrDen v => [.wrDen (BitVec.ofNat 1 v)]
  | .wrVwide v => [.wrVwide (BitVec.ofNat 1 v)]
  | .wrHwide v => [.wrHwide (BitVec.ofNat 1 v)]
  | .wrYscroll v => [.wrYscroll (BitVec.ofNat 3 v)]
  | .wrXscroll v => [.wrXscroll (BitVec.ofNat 3 v)]
  | .wrBg i c => [.wrBg (BitVec.ofNat 2 i) (BitVec.ofNat 4 c)]
  | .setModeNamed m => [modeFlags m]
  | .blank => [.wrDen 0]
  | .unblank => [.wrDen 1]
  | .initRegs bd t den vw hw ys xs g0 g1 g2 g3 =>
    [.wrBorder (BitVec.ofNat 4 bd), .wrRaster (BitVec.ofNat 9 t), .wrDen (BitVec.ofNat 1 den),
     .wrVwide (BitVec.ofNat 1 vw), .wrHwide (BitVec.ofNat 1 hw), .wrYscroll (BitVec.ofNat 3 ys),
     .wrXscroll (BitVec.ofNat 3 xs), .wrBg 0 (BitVec.ofNat 4 g0), .wrBg 1 (BitVec.ofNat 4 g1),
     .wrBg 2 (BitVec.ofNat 4 g2), .wrBg 3 (BitVec.ofNat 4 g3)]

/-- The command words of a statement; none when an operand does not fit its field (R69, U11). -/
def assemble (a : Asm) : Option (List CmdWord) := if a.wellFormed then some ((expand a).map encode) else none

/-! ### The text form of one line (R69) -/

/-- Blanks between the parts of a line. -/
def isBlankChar (c : Char) : Bool := c == ' ' || c == '\t'

/-- A text without the blanks around it. -/
def trimBlanks (l : List Char) : List Char := ((l.dropWhile isBlankChar).reverse.dropWhile isBlankChar).reverse

/-- A `;` starts a comment (R69). -/
def dropComment (l : List Char) : List Char := l.takeWhile (· != ';')

/-- The value of a digit, to base 16. -/
def digitValue (c : Char) : Option Nat :=
  let n := c.toNat
  if 48 ≤ n ∧ n ≤ 57 then some (n - 48)
  else if 97 ≤ n ∧ n ≤ 102 then some (n - 87)
  else if 65 ≤ n ∧ n ≤ 70 then some (n - 55)
  else none

/-- The natural the digits write in the base, after the value read so far. -/
def readDigits (base acc : Nat) (l : List Char) : Option Nat :=
  match l with
  | [] => some acc
  | c :: rest =>
    match digitValue c with
    | some d => if d < base then readDigits base (acc * base + d) rest else none
    | none => none

/-- An operand: a decimal or `0x` hexadecimal natural (R69). -/
def readOperand (l : List Char) : Option Nat :=
  match l with
  | [] => none
  | '0' :: 'x' :: [] => none
  | '0' :: 'x' :: d :: ds => readDigits 16 0 (d :: ds)
  | d :: ds => readDigits 10 0 (d :: ds)

/-- The parts of a text between commas. -/
def splitCommas (l : List Char) : List (List Char) :=
  match l with
  | [] => [[]]
  | ',' :: rest => [] :: splitCommas rest
  | c :: rest =>
    match splitCommas rest with
    | [] => [[c]]
    | p :: ps => (c :: p) :: ps

/-- The operands of a line: none after a bare mnemonic, else separated by commas (R69). -/
def readOperands (l : List Char) : Option (List Nat) :=
  if l = [] then some [] else (splitCommas l).mapM (fun p => readOperand (trimBlanks p))

/-- The variant a name stands for (R70). -/
def readMode (l : List Char) : Option ModeVariant :=
  if l = "TextNormal".toList then some .textNormal
  else if l = "TextMulti".toList then some .textMulti
  else if l = "TextExtended".toList then some .textExtended
  else if l = "BitmapNormal".toList then some .bitmapNormal
  else if l = "BitmapMulti".toList then some .bitmapMulti
  else none

/-- The statement of a mnemonic with its operands, in the order of R69; none if the mnemonic is unknown or the number
of operands is wrong. -/
def buildStatement (m : List Char) (ops : List Nat) : Option Asm :=
  match ops with
  | [] =>
    if m = "TERM".toList then some .term
    else if m = "GETLINE".toList then some .getLine
    else if m = "READY".toList then some .ready
    else if m = "RDRASTER".toList then some .rdRaster
    else if m = "BLANK".toList then some .blank
    else if m = "UNBLANK".toList then some .unblank
    else none
  | [a] =>
    if m = "WRBORDER".toList then some (.wrBorder a)
    else if m = "WRRASTER".toList then some (.wrRaster a)
    else if m = "WRDEN".toList then some (.wrDen a)
    else if m = "WRVWIDE".toList then some (.wrVwide a)
    else if m = "WRHWIDE".toList then some (.wrHwide a)
    else if m = "WRYSCROLL".toList then some (.wrYscroll a)
    else if m = "WRXSCROLL".toList then some (.wrXscroll a)
    else none
  | [a, b] => if m = "WRBG".toList then some (.wrBg a b) else none
  | [a, b, c] =>
    if m = "SETADDR".toList then some (.setAddr a b c)
    else if m = "SETMODE".toList then some (.setMode a b c)
    else none
  | [bd, t, den, vw, hw, ys, xs, g0, g1, g2, g3] =>
    if m = "INITREGS".toList then some (.initRegs bd t den vw hw ys xs g0 g1 g2 g3) else none
  | _ => none

/-- The statement on a line of text (R69, R70). -/
def readStatement (l : List Char) : Option Asm :=
  let body := trimBlanks (dropComment l)
  let m := body.takeWhile (fun c => !isBlankChar c)
  let rest := trimBlanks (body.dropWhile (fun c => !isBlankChar c))
  if m = "SETMODE".toList ∧ (readMode rest).isSome then (readMode rest).map .setModeNamed
  else
    match readOperands rest with
    | some ops => buildStatement m ops
    | none => none

/-- The command words of a line of text; none is an assembly error (R69). A line of blanks and comment alone writes no
command. -/
def assembleLine (l : List Char) : Option (List CmdWord) :=
  if trimBlanks (dropComment l) = [] then some []
  else
    match readStatement l with
    | some a => assemble a
    | none => none

end Sys2Proof.Machine
end

