-- ==== Sys2Proof/Safety.lean ====
section
/-! DEFINITION. What counts as a safe run and as a reachable-looking state: the predicates the statements use. -/

namespace Sys2Proof.Machine

/-- The premise R154 asks of a claim: no command was refused and no fault was raised. -/
abbrev State.Clean (s : State) : Prop := s.ctl.refused = false ∧ s.ctl.fault = none

/-- `S.line < TOTAL_LINES` (R17, R33 item 1). -/
abbrev State.LineInRange (s : State) : Prop := s.seq.line.toNat < s.cfg.geo.totalLines

/-- `S.bitmapAddr[12:0] = 0` (R23, R33 item 2). -/
abbrev State.BitmapAligned (s : State) : Prop := s.raster.bitmapAddr.extractLsb' 0 13 = 0

/-- A fault code is recorded exactly in `FAULTED`, together with its address and line (R29, R151, R152). -/
abbrev State.FaultMatches (s : State) : Prop :=
  (s.ctl.fault.isSome ↔ s.seq.phase = .faulted) ∧ s.ctl.faultInfo.isSome = s.ctl.fault.isSome

/-- The engine takes part in arbitration from `Start` until a stop (R20). A fault does not clear the bit (R151). -/
abbrev State.Participates (s : State) : Prop :=
  s.seq.participating = true ↔ s.seq.phase = .running ∨ s.seq.phase = .faulted

/-- No line is processed before `READY`, and `READY` needs every register-port field (R39). -/
abbrev State.PortsReady (s : State) : Prop :=
  (s.seq.phase = .running → s.ctl.ready = true) ∧ (s.ctl.ready = true → allSet s.regs = true)

/-- Only a running engine waits for a grant (R18, R100, R151). -/
abbrev State.SubMatches (s : State) : Prop := s.seq.sub = .advancing → s.seq.phase = .running

/-- The engine stops only on request, and the request is never cleared (R27, R100, R101). -/
abbrev State.StopsOnRequest (s : State) : Prop := s.seq.phase = .stopped → s.ctl.stopReq = true

/-- Before `Start` the engine is at line 0 of frame 0 (R102). -/
abbrev State.WaitsAtStart (s : State) : Prop :=
  s.seq.phase = .waitReady → s.seq.line = 0 ∧ s.seq.frame = 0 ∧ s.seq.cycle = 0

/-- The cycle count is `CYCLES_PER_LINE` for each completed line (R19, R104). -/
abbrev State.CycleCounts (s : State) : Prop :=
  s.seq.cycle = Config.cyclesPerLine * (s.seq.frame * s.cfg.geo.totalLines + s.seq.line.toNat)

/-- Both memories are in canonical form. -/
abbrev State.MemoryCanonical (s : State) : Prop := Memory.wf s.env.mem ∧ Memory.colorWf s.env.color

/-- A row holds palette indices 0 to `top` only, in at most `w` columns. -/
abbrev rowSound (top w : Nat) (row : Row) : Prop := row.length ≤ w ∧ ∀ o ∈ row, (o.getD 0).toNat ≤ top

/-- Every pixel of a row `w` pixels wide has been written. -/
abbrev rowComplete (w : Nat) (row : Row) : Prop := ∀ x, x < w → (rowFind row x).isSome = true

/-- The frame buffer lists its rows in canonical form, inside its dimensions, with indices 0 to 17 (R30). -/
abbrev FrameBuffer.Canonical (g : Geometry) (fb : FrameBuffer) : Prop :=
  storeRising fb ∧ ∀ p ∈ fb, p.1 < g.frameH ∧ p.2 ≠ [] ∧ rowSound 17 g.frameW p.2

/-- The two reserved indices 16 and 17 are never written (R122); the row of a faulting line holds any value (U4). -/
abbrev State.PaletteUsed (s : State) : Prop :=
  s.seq.phase ≠ .faulted → ∀ p ∈ s.fb, rowSound 15 s.cfg.geo.frameW p.2

/-- Every pixel of the frame has been written, with an index 0 to 15 (R121, R122). -/
abbrev FrameBuffer.Complete (g : Geometry) (fb : FrameBuffer) : Prop :=
  ∀ R, R < g.frameH → rowSound 15 g.frameW (fbRow fb R) ∧ rowComplete g.frameW (fbRow fb R)

/-- The lines of the current frame whose line step is done. -/
def linesDone (q : Sequencer) : Nat := q.line.toNat + (if q.sub = .advancing then 1 else 0)

/-- The rows of the lines already processed in this frame are painted, and all rows once a frame is complete (R119,
R121). -/
abbrev State.PaintedSoFar (s : State) : Prop :=
  ∀ R, R < s.cfg.geo.frameH → (s.seq.frame ≠ 0 ∨ s.cfg.geo.visFirst + R < linesDone s.seq) →
    rowComplete s.cfg.geo.frameW (fbRow s.fb R)

/-- The frame an event publishes, if it is a publication. -/
def publishedFrame (e : Event) : Option FrameBuffer :=
  match e with
  | .publish fb => some fb
  | .steal _ => none
  | .rasterIrq _ => none
  | .advance _ => none
  | .resume => none
  | .stopped => none
  | .faulted _ => none
  | .spriteBack _ _ _ => none
  | .spriteFront _ _ => none

/-- The frames published so far, in order. -/
def publishedFrames (trace : List Event) : List FrameBuffer := trace.filterMap publishedFrame

/-- `S.frame` counts the published frames, and each of them is complete (R21, R98, R121). -/
abbrev State.PublishesComplete (s : State) : Prop :=
  (publishedFrames s.out.trace).length = s.seq.frame ∧
    ∀ fb ∈ publishedFrames s.out.trace, FrameBuffer.Complete s.cfg.geo fb

/-- The invariant of the machine: holds after construction and is kept by every step. -/
structure State.Inv (s : State) : Prop where
  line : s.LineInRange
  bitmap : s.BitmapAligned
  fault : s.FaultMatches
  participates : s.Participates
  ports : s.PortsReady
  sub : s.SubMatches
  stops : s.StopsOnRequest
  waits : s.WaitsAtStart
  cycles : s.CycleCounts
  memory : s.MemoryCanonical
  canonical : FrameBuffer.Canonical s.cfg.geo s.fb
  palette : s.PaletteUsed
  painted : s.PaintedSoFar
  publishes : s.PublishesComplete

/-- The engine is about to take the line step of line `S.line`, with no stop requested. -/
abbrev State.AtLine (s : State) : Prop :=
  s.seq.phase = .running ∧ s.seq.sub = .lineStart ∧ s.ctl.stopReq = false

/-- The mode a line step renders in: the staged mode on a bad line, if one is staged, else the current one (R90,
R94). -/
def lineMode (s : State) (snap : Snapshot) : ModeVariant :=
  if isBadLine s.seq.line.toNat snap.yscroll then s.raster.scheduledMode.getD s.raster.currentMode
  else s.raster.currentMode

/-- The frame row of the line in progress (R105). -/
def State.row (s : State) : Nat := rowOf s.cfg.geo s.seq.line.toNat

/-- The content row of the line in progress (R110). -/
def State.contentRow (s : State) : Nat := s.row - s.cfg.geo.contentY0

/-- The line in progress is visible and its row is an in-window row (R109). -/
abbrev State.InWindow (s : State) (snap : Snapshot) : Prop :=
  visible s.cfg.geo s.seq.line.toNat = true ∧ inWindowRow s.cfg.geo snap s.row = true

/-- Frame column `x` lies in the window of the snapshot (R108). -/
abbrev State.InColumns (s : State) (snap : Snapshot) (x : Nat) : Prop :=
  (hExtent s.cfg.geo snap.hwide).1 ≤ x ∧ x < (hExtent s.cfg.geo snap.hwide).2

/-- Host commands performed one after another, as far as they have a step. -/
def execAll (is : List Instr) (s : State) : Host.Outcome State Fault Refusal :=
  match is with
  | [] => .next s
  | i :: rest =>
    match exec i s with
    | .next t => execAll rest t
    | .fault f => .fault f
    | .refused r => .refused r

/-- `n` steps of the machine, as far as each has a next state. -/
def runSteps (n : Nat) (s : State) : Host.Outcome State Fault Refusal :=
  match n with
  | 0 => .next s
  | m + 1 =>
    match step s with
    | .next t => runSteps m t
    | .fault f => .fault f
    | .refused r => .refused r

/-- The interrupts among some events, in order (R107). -/
def interrupts (es : List Event) : List Event :=
  es.filter fun e =>
    match e with
    | .rasterIrq _ => true
    | .steal _ => false
    | .advance _ => false
    | .publish _ => false
    | .resume => false
    | .stopped => false
    | .faulted _ => false
    | .spriteBack _ _ _ => false
    | .spriteFront _ _ => false

/-- The first bad line at or after line `L` lies `d` lines on, lines counted in frame order across the wrap (R103). -/
abbrev badLineAfter (totalLines L d : Nat) (ys : BitVec 3) : Prop :=
  isBadLine ((L + d) % totalLines) ys = true ∧ ∀ e, e < d → isBadLine ((L + e) % totalLines) ys = false

end Sys2Proof.Machine
end

