-- ==== Sys2Proof/Certificates/Slice0/Obligations.lean ====
section
/-! DEFINITION. The statements about the model, one for each entry of OBLIGATIONS.json. -/

open Sys2Proof Sys2Proof.Machine

/-! ### The command port -/

/-- Words of 95_test_vectors family A decode as listed there (R63 to R66). -/
def Obligations.SampleWordsDecode : Prop :=
  decode 0x0100100004002000#64 = .ok (.setAddr 0x1000 0x0400 0x2000) ∧
  decode 0x0200000000000006#64 = .ok (.setMode 1 1 0) ∧
  decode 0x0500000000000000#64 = .ok .ready ∧
  decode 0x1100000000000137#64 = .ok (.wrRaster 311) ∧
  decode 0x1800000000000036#64 = .ok (.wrBg 3 6) ∧
  decode 0x1000000000000010#64 = .error .reservedBits ∧
  decode 0x0301000000000000#64 = .error .reservedBits ∧
  decode 0x1900000000000000#64 = .error .opcode

/-- Every command decodes from its own word with every operand at every value, from the opcode table's numbering of
the bits too (R61 to R64). -/
def Obligations.DecodeOfEncode : Prop :=
  ∀ i : Instr, decode (encode i) = .ok i ∧ decodeTableWord 64 (encode i).toNat = some i

/-- A word that decodes is the word of the decoded command: no bit of it is dropped (R61 to R64). -/
def Obligations.EncodeOfDecode : Prop :=
  ∀ (w : CmdWord) (i : Instr), decode w = .ok i → encode i = w

/-- R65: exactly the words with an operation code 0x00, 0x06 to 0x0F or 0x19 to 0xFF are refused as
`REFUSE_OPCODE`, and such a word changes nothing but the refusal mark, in every phase but `FAULTED` (R86). -/
def Obligations.ReservedOpcodesRefused : Prop :=
  (∀ w : CmdWord, decode w = .error .opcode ↔
    ((opOf w).toNat = 0 ∨ (0x06 ≤ (opOf w).toNat ∧ (opOf w).toNat ≤ 0x0F) ∨ 0x19 ≤ (opOf w).toNat)) ∧
  ∀ (w : CmdWord) (s : State), decode w = .error .opcode → s.seq.phase ≠ .faulted →
    hostWord w s = .next { s with ctl := { s.ctl with refused := true } }

/-- R66: exactly the words with a known operation code and a 1 in a bit the layout does not use are refused as
`REFUSE_RESERVED_BITS`, with the same effect; every value of the three mode flags is a legal command. -/
def Obligations.ReservedBitsRefused : Prop :=
  (∀ w : CmdWord, decode w = .error .reservedBits ↔
    ∃ row ∈ opcodeTable, row.op = opOf w ∧ w &&& row.mask ≠ row.pattern) ∧
  (∀ (w : CmdWord) (s : State), decode w = .error .reservedBits → s.seq.phase ≠ .faulted →
    hostWord w s = .next { s with ctl := { s.ctl with refused := true } }) ∧
  ∀ b e m : BitVec 1, ∃ w : CmdWord, decode w = .ok (.setMode b e m)

/-- At most one row of the opcode table matches any word (R63): no two places of the table hold rows that match a
common word, so two rows that match one word are one row. -/
def Obligations.AtMostOneRowMatches : Prop :=
  opcodeTable.Pairwise (fun r1 r2 => ∀ w : CmdWord, ¬ (rowMatches r1 w = true ∧ rowMatches r2 w = true)) ∧
  ∀ (w : CmdWord) (r1 r2 : OpRow), r1 ∈ opcodeTable → r2 ∈ opcodeTable →
    rowMatches r1 w = true → rowMatches r2 w = true → r1 = r2

/-- Every statement with naturals as operands, one clause for each mnemonic, assembles to `(OP << 56) | operand fields`,
and to no word when an operand does not fit its field (R69); every pseudo-instruction assembles to the words of its
expansion: `SETMODE` with each variant's name, `BLANK`, `UNBLANK` and `INITREGS` (R70). -/
def Obligations.StatementsAssemble : Prop :=
  (∀ c v b : Nat, assemble (.setAddr c v b) = if c < 0x10000 ∧ v < 0x10000 ∧ b < 0x10000 then
    some [BitVec.ofNat 64 (0x01 * 2 ^ 56 + c * 2 ^ 32 + v * 2 ^ 16 + b)] else none) ∧
  (∀ b e m : Nat, assemble (.setMode b e m) = if b < 2 ∧ e < 2 ∧ m < 2 then
    some [BitVec.ofNat 64 (0x02 * 2 ^ 56 + b * 4 + e * 2 + m)] else none) ∧
  (∀ c : Nat, assemble (.wrBorder c) = if c < 16 then some [BitVec.ofNat 64 (0x10 * 2 ^ 56 + c)] else none) ∧
  (∀ t : Nat, assemble (.wrRaster t) = if t < 512 then some [BitVec.ofNat 64 (0x11 * 2 ^ 56 + t)] else none) ∧
  (∀ v : Nat, assemble (.wrDen v) = if v < 2 then some [BitVec.ofNat 64 (0x13 * 2 ^ 56 + v)] else none) ∧
  (∀ v : Nat, assemble (.wrVwide v) = if v < 2 then some [BitVec.ofNat 64 (0x14 * 2 ^ 56 + v)] else none) ∧
  (∀ v : Nat, assemble (.wrHwide v) = if v < 2 then some [BitVec.ofNat 64 (0x15 * 2 ^ 56 + v)] else none) ∧
  (∀ v : Nat, assemble (.wrYscroll v) = if v < 8 then some [BitVec.ofNat 64 (0x16 * 2 ^ 56 + v)] else none) ∧
  (∀ v : Nat, assemble (.wrXscroll v) = if v < 8 then some [BitVec.ofNat 64 (0x17 * 2 ^ 56 + v)] else none) ∧
  (∀ i c : Nat, assemble (.wrBg i c) = if i < 4 ∧ c < 16 then
    some [BitVec.ofNat 64 (0x18 * 2 ^ 56 + i * 16 + c)] else none) ∧
  assemble .term = some [BitVec.ofNat 64 (0x03 * 2 ^ 56)] ∧
  assemble .getLine = some [BitVec.ofNat 64 (0x04 * 2 ^ 56)] ∧
  assemble .ready = some [BitVec.ofNat 64 (0x05 * 2 ^ 56)] ∧
  assemble .rdRaster = some [BitVec.ofNat 64 (0x12 * 2 ^ 56)] ∧
  assemble (.setModeNamed .textNormal) = assemble (.setMode 0 0 0) ∧
  assemble (.setModeNamed .textMulti) = assemble (.setMode 0 0 1) ∧
  assemble (.setModeNamed .textExtended) = assemble (.setMode 0 1 0) ∧
  assemble (.setModeNamed .bitmapNormal) = assemble (.setMode 1 0 0) ∧
  assemble (.setModeNamed .bitmapMulti) = assemble (.setMode 1 0 1) ∧
  assemble .blank = assemble (.wrDen 0) ∧ assemble .unblank = assemble (.wrDen 1) ∧
  ∀ bd t den vw hw ys xs g0 g1 g2 g3 : Nat,
    assemble (.initRegs bd t den vw hw ys xs g0 g1 g2 g3) =
      ([.wrBorder bd, .wrRaster t, .wrDen den, .wrVwide vw, .wrHwide hw, .wrYscroll ys, .wrXscroll xs, .wrBg 0 g0,
        .wrBg 1 g1, .wrBg 2 g2, .wrBg 3 g3].mapM assemble).map List.flatten

/-- `INITREGS` with operands that fit, performed from any state that is not `FAULTED`, writes every register-port
field and nothing else; `READY` after it is accepted (R70, R75, R171), a refused `READY` before it or not: that is the
model's choice (log 22). -/
def Obligations.InitRegsPreparesReady : Prop :=
  ∀ (s : State) (bd t den vw hw ys xs g0 g1 g2 g3 : Nat), s.seq.phase ≠ .faulted →
    (Asm.initRegs bd t den vw hw ys xs g0 g1 g2 g3).wellFormed = true →
    ∃ u, execAll (expand (.initRegs bd t den vw hw ys xs g0 g1 g2 g3)) s = .next u ∧
      u = { s with regs :=
        { border := some (BitVec.ofNat 4 bd), rasterTarget := some (BitVec.ofNat 9 t),
          den := some (BitVec.ofNat 1 den), vwide := some (BitVec.ofNat 1 vw), hwide := some (BitVec.ofNat 1 hw),
          yscroll := some (BitVec.ofNat 3 ys), xscroll := some (BitVec.ofNat 3 xs), bg0 := some (BitVec.ofNat 4 g0),
          bg1 := some (BitVec.ofNat 4 g1), bg2 := some (BitVec.ofNat 4 g2), bg3 := some (BitVec.ofNat 4 g3) } } ∧
      exec .ready u = .next { u with ctl := { u.ctl with ready := true } }

/-- A step whose next input is a word that decodes to a command is that command's meaning, on the state with the word
taken off the list (R53, R60, R64). A step whose next input is a word that does not decode, whatever the reason, only
sets the refusal mark, in every phase but `FAULTED`, where it has no step (R65, R66, R86; the model's fault
`hostStuck`, log 8; the reason is not kept, log 9). That a list in the state says who moves next is the model's choice
(log 2), and so is that the word `withFetchWord` places comes before every other input, so that the very next step
performs it (log 12). -/
def Obligations.StepRunsDecodedCommand : Prop :=
  (∀ (s : State) (w : CmdWord) (rest : List Input) (i : Instr), s.env.inputs = .command w :: rest →
    decode w = .ok i → step s = exec i { s with env := { s.env with inputs := rest } }) ∧
  (∀ (s : State) (w : CmdWord) (rest : List Input) (reason : RefuseReason), s.env.inputs = .command w :: rest →
    decode w = .error reason →
    (s.seq.phase ≠ .faulted →
      step s = .next { s with ctl := { s.ctl with refused := true }, env := { s.env with inputs := rest } }) ∧
    (s.seq.phase = .faulted → step s = .fault .hostStuck)) ∧
  (∀ (s : State) (nbits w : Nat) (i : Instr), decodeTableWord nbits w = some i →
    step (s.withFetchWord nbits w) = exec i s) ∧
  ∀ (s : State) (nbits w : Nat), decodeTableWord nbits w = none → s.seq.phase ≠ .faulted →
    step (s.withFetchWord nbits w) = .next { s with ctl := { s.ctl with refused := true } }

/-- A step whose next input is not a command is that agent's step, on the state with the input taken off the list: a turn
of the engine, a grant of the arbiter, a write of the platform now or inside the line's interval; with no input left the
engine takes its turn and a pending advance is granted. In `FAULTED` none of them has a step, and the model answers its
fault `engineDead`. The input list, the empty list's meaning and that fault are the model's choice (log 2, log 3,
log 8), and so is that a write whose instant in the interval is left open waits in `env.lineWrites`, memory untouched
until the advance is done (log 4). -/
def Obligations.StepRunsOtherAgents : Prop :=
  ∀ s : State,
    (s.env.inputs = [] → step s = engineStep true s) ∧
    (∀ rest, s.env.inputs = .engine :: rest → step s = engineStep false { s with env := { s.env with inputs := rest } }) ∧
    (∀ rest, s.env.inputs = .grant :: rest → step s = grantStep { s with env := { s.env with inputs := rest } }) ∧
    (∀ rest m, s.env.inputs = .memWrite m :: rest → s.seq.phase ≠ .faulted →
      step s = .next { s with env := applyWrite { s.env with inputs := rest } m }) ∧
    (∀ rest m, s.env.inputs = .lineWrite m :: rest → s.seq.phase ≠ .faulted →
      step s = .next { s with env := { s.env with inputs := rest, lineWrites := s.env.lineWrites ++ [m] } }) ∧
    (s.env.inputs = [] → s.seq.phase = .faulted → step s = .fault .engineDead) ∧
    ∀ i rest, s.env.inputs = i :: rest → (∀ w, i ≠ .command w) → s.seq.phase = .faulted → step s = .fault .engineDead

/-! ### Host commands (40_commands.md) -/

/-- Acceptance by phase (R86): outside `FAULTED` every command has a step, and in `FAULTED` neither a command nor a
refused word has one (that the model then answers a fault of its own name is its choice, log 8). -/
def Obligations.CommandsAcceptedByPhase : Prop :=
  (∀ (i : Instr) (s : State), s.seq.phase ≠ .faulted → ∃ t, exec i s = .next t) ∧
  (∀ (i : Instr) (s : State), s.seq.phase = .faulted → exec i s = .fault .hostStuck) ∧
  ∀ (w : CmdWord) (s : State), s.seq.phase = .faulted → hostWord w s = .fault .hostStuck

/-- `SETADDR` stores the three addresses in one step, the bitmap address with its low 13 bits cleared, and changes
nothing else (R71). -/
def Obligations.SetAddrStoresAddresses : Prop :=
  ∀ (c v b : Addr) (s : State), s.seq.phase ≠ .faulted →
    ∃ r : RasterState,
      exec (.setAddr c v b) s = .next { s with raster := r } ∧ r.charAddr = c ∧ r.videoAddr = v ∧
      r.bitmapAddr.toNat = b.toNat / 8192 * 8192 ∧ r.currentMode = s.raster.currentMode ∧
      r.scheduledMode = s.raster.scheduledMode

/-- `SETMODE` stages the resolved mode, whatever was staged before, and writes nothing else: never `currentMode`
(R72). -/
def Obligations.SetModeStages : Prop :=
  ∀ (b e m : BitVec 1) (s : State), s.seq.phase ≠ .faulted →
    exec (.setMode b e m) s =
      .next { s with raster := { s.raster with scheduledMode := some (resolveMode b e m) } }

/-- R74: the precedence of the mode flags, all eight inputs. -/
def Obligations.ResolveModePrecedence : Prop :=
  resolveMode 0 0 0 = .textNormal ∧ resolveMode 0 0 1 = .textMulti ∧ resolveMode 0 1 0 = .textExtended ∧
  resolveMode 0 1 1 = .textMulti ∧ resolveMode 1 0 0 = .bitmapNormal ∧ resolveMode 1 0 1 = .bitmapMulti ∧
  resolveMode 1 1 0 = .bitmapNormal ∧ resolveMode 1 1 1 = .bitmapMulti

/-- `TERM` sets the stop request and nothing else; a repeated `TERM` has no further effect (R73). -/
def Obligations.TermRequestsStop : Prop :=
  ∀ s : State, s.seq.phase ≠ .faulted →
    exec .term s = .next { s with ctl := { s.ctl with stopReq := true } } ∧
    (s.ctl.stopReq = true → exec .term s = .next s)

/-- `GETLINE` and `RDRASTER` both return `zext_16(S.line)` and change nothing else, whatever the raster target (R67,
R76, R79). -/
def Obligations.LineReadsReturnLine : Prop :=
  ∀ s : State, s.seq.phase ≠ .faulted →
    exec .getLine s = .next { s with out := { s.out with responses := s.out.responses ++ [s.seq.line.zeroExtend 16] } } ∧
    exec .rdRaster s = .next { s with out := { s.out with responses := s.out.responses ++ [s.seq.line.zeroExtend 16] } }

/-- The raster register's asymmetry (R79, R177): after a write of any target, the read still returns the current line,
and two states that differ only in the target get the same response. -/
def Obligations.RasterReadIgnoresTarget : Prop :=
  (∀ (target : LineNo) (s t u : State), exec (.wrRaster target) s = .next t → exec .rdRaster t = .next u →
    u.out.responses = s.out.responses ++ [s.seq.line.zeroExtend 16]) ∧
  ∀ (s t u : State) (target : PortField 9), exec .rdRaster s = .next t →
    exec .rdRaster { s with regs := { s.regs with rasterTarget := target } } = .next u →
    u.out = t.out

/-- `READY` is accepted exactly when no register-port field is `UNSET`; a later `READY` changes nothing, and a refused
one sets the refusal mark only (R75). That a `READY` is accepted after a refused one too is the model's choice between
R75's pseudocode and its prose (log 22). -/
def Obligations.ReadyNeedsEveryField : Prop :=
  ∀ s : State, s.seq.phase ≠ .faulted →
    (allSet s.regs = true → exec .ready s = .next { s with ctl := { s.ctl with ready := true } }) ∧
    (allSet s.regs = true → s.ctl.ready = true → exec .ready s = .next s) ∧
    (allSet s.regs = false → exec .ready s = .next { s with ctl := { s.ctl with refused := true } }) ∧
    (allSet s.regs = true ↔ s.regs.border ≠ none ∧ s.regs.rasterTarget ≠ none ∧ s.regs.den ≠ none ∧
      s.regs.vwide ≠ none ∧ s.regs.hwide ≠ none ∧ s.regs.yscroll ≠ none ∧ s.regs.xscroll ≠ none ∧
      s.regs.bg0 ≠ none ∧ s.regs.bg1 ≠ none ∧ s.regs.bg2 ≠ none ∧ s.regs.bg3 ≠ none)

/-- The single-field register-port writes store their operand in their own field and change nothing else (R77, R78,
R80 to R84). -/
def Obligations.PortWritesStoreOneField : Prop :=
  ∀ s : State, s.seq.phase ≠ .faulted →
    (∀ c, exec (.wrBorder c) s = .next { s with regs := { s.regs with border := some c } }) ∧
    (∀ t, exec (.wrRaster t) s = .next { s with regs := { s.regs with rasterTarget := some t } }) ∧
    (∀ v, exec (.wrDen v) s = .next { s with regs := { s.regs with den := some v } }) ∧
    (∀ v, exec (.wrVwide v) s = .next { s with regs := { s.regs with vwide := some v } }) ∧
    (∀ v, exec (.wrHwide v) s = .next { s with regs := { s.regs with hwide := some v } }) ∧
    (∀ v, exec (.wrYscroll v) s = .next { s with regs := { s.regs with yscroll := some v } }) ∧
    ∀ v, exec (.wrXscroll v) s = .next { s with regs := { s.regs with xscroll := some v } }

/-- `WRBG idx, color` stores the colour in `BG[idx]`, each of the four, and changes nothing else (R85). -/
def Obligations.WrBgStoresIndexedColour : Prop :=
  ∀ (c : Nibble) (s : State), s.seq.phase ≠ .faulted →
    exec (.wrBg 0 c) s = .next { s with regs := { s.regs with bg0 := some c } } ∧
    exec (.wrBg 1 c) s = .next { s with regs := { s.regs with bg1 := some c } } ∧
    exec (.wrBg 2 c) s = .next { s with regs := { s.regs with bg2 := some c } } ∧
    exec (.wrBg 3 c) s = .next { s with regs := { s.regs with bg3 := some c } }

/-- R88: no host command writes `fb`, `currentMode`, `line`, `sub`, `cycle` or `frame`, none blocks (a command that has
a step needs no grant), and none emits an event. Nor does one change the phase, the fault record, the configuration,
any byte of memory, any colour cell, or any other field of the environment. -/
def Obligations.CommandFrame : Prop :=
  ∀ (i : Instr) (s t : State), exec i s = .next t →
    t.fb = s.fb ∧ t.raster.currentMode = s.raster.currentMode ∧ t.seq = s.seq ∧ t.out.trace = s.out.trace ∧
    t.cfg = s.cfg ∧ t.ctl.fault = s.ctl.fault ∧ t.ctl.faultInfo = s.ctl.faultInfo ∧
    (∀ R c, fbPixel t.fb R c = fbPixel s.fb R c) ∧
    (∀ a, memByte t.env.mem a = memByte s.env.mem a) ∧
    (∀ n, colorCell t.env.color n = colorCell s.env.color n) ∧ t.env = s.env

/-- Which commands can change what (R34): the address registers change only by `SETADDR`, the staged mode only by
`SETMODE`, the stop request only by `TERM`, the ready flag and the refusal mark only by `READY`, the responses only by
the two reads, and the register-port fields only by the register-port writes. -/
def Obligations.CommandWriteRights : Prop :=
  ∀ (i : Instr) (s t : State), exec i s = .next t →
    ((t.raster.charAddr ≠ s.raster.charAddr ∨ t.raster.videoAddr ≠ s.raster.videoAddr ∨
        t.raster.bitmapAddr ≠ s.raster.bitmapAddr) → ∃ c v b, i = .setAddr c v b) ∧
    (t.raster.scheduledMode ≠ s.raster.scheduledMode → ∃ b e m, i = .setMode b e m) ∧
    (t.ctl.stopReq ≠ s.ctl.stopReq → i = .term) ∧
    (t.ctl.ready ≠ s.ctl.ready → i = .ready) ∧
    (t.ctl.refused ≠ s.ctl.refused → i = .ready) ∧
    (t.out.responses ≠ s.out.responses → i = .getLine ∨ i = .rdRaster) ∧
    (t.regs.border ≠ s.regs.border → ∃ c, i = .wrBorder c) ∧
    (t.regs.rasterTarget ≠ s.regs.rasterTarget → ∃ c, i = .wrRaster c) ∧
    (t.regs.den ≠ s.regs.den → ∃ v, i = .wrDen v) ∧
    (t.regs.vwide ≠ s.regs.vwide → ∃ v, i = .wrVwide v) ∧
    (t.regs.hwide ≠ s.regs.hwide → ∃ v, i = .wrHwide v) ∧
    (t.regs.yscroll ≠ s.regs.yscroll → ∃ v, i = .wrYscroll v) ∧
    (t.regs.xscroll ≠ s.regs.xscroll → ∃ v, i = .wrXscroll v) ∧
    ((t.regs.bg0 ≠ s.regs.bg0 ∨ t.regs.bg1 ≠ s.regs.bg1 ∨ t.regs.bg2 ≠ s.regs.bg2 ∨ t.regs.bg3 ≠ s.regs.bg3) →
      ∃ x c, i = .wrBg x c)

/-! ### Reset and whole-machine rules -/

/-- R169: every piece of state after construction, for every configuration; no event has been emitted and no pixel
has been written. -/
def Obligations.ResetState : Prop :=
  ∀ cfg : Config,
    (State.construct cfg).cfg = cfg ∧
    (State.construct cfg).seq.phase = .waitReady ∧ (State.construct cfg).seq.line = 0 ∧
    (State.construct cfg).seq.sub = .lineStart ∧ (State.construct cfg).seq.cycle = 0 ∧
    (State.construct cfg).seq.participating = false ∧ (State.construct cfg).seq.frame = 0 ∧
    (State.construct cfg).raster.charAddr = 0 ∧ (State.construct cfg).raster.videoAddr = 0 ∧
    (State.construct cfg).raster.bitmapAddr = 0 ∧ (State.construct cfg).raster.currentMode = .textNormal ∧
    (State.construct cfg).raster.scheduledMode = none ∧
    (State.construct cfg).ctl.stopReq = false ∧ (State.construct cfg).ctl.ready = false ∧
    (State.construct cfg).ctl.refused = false ∧ (State.construct cfg).ctl.fault = none ∧
    (State.construct cfg).regs.border = none ∧ (State.construct cfg).regs.rasterTarget = none ∧
    (State.construct cfg).regs.den = none ∧ (State.construct cfg).regs.vwide = none ∧
    (State.construct cfg).regs.hwide = none ∧ (State.construct cfg).regs.yscroll = none ∧
    (State.construct cfg).regs.xscroll = none ∧ (State.construct cfg).regs.bg0 = none ∧
    (State.construct cfg).regs.bg1 = none ∧ (State.construct cfg).regs.bg2 = none ∧
    (State.construct cfg).regs.bg3 = none ∧ (State.construct cfg).out.trace = [] ∧
    ∀ R c, fbFind (State.construct cfg).fb R c = none

/-- The invariant holds after construction, in every configuration. -/
def Obligations.ConstructionMeetsInvariant : Prop :=
  ∀ cfg : Config, (State.construct cfg).Inv

/-- Every step keeps the invariant: the line in range, the bitmap address aligned, the fault record (its address and line
are the model's field, log 10) and the phase in agreement, no unset field while running, the cycle count, the canonical
form of both memories, a frame buffer painted as far as the frame has come, with indices 0 to 15 until a fault cuts a
row short (R122, U4), and every published frame complete. -/
def Obligations.StepKeepsInvariant : Prop :=
  ∀ s t : State, s.Inv → step s = .next t → t.Inv

/-- R33: the block's invariants, which hold after construction and are each kept by every step: the line stays in
range; the low 13 bits of the bitmap address stay zero; `currentMode` changes only in the line step of a bad line; a
pixel changes only in the line step of the visible line that owns its row. -/
def Obligations.BlockInvariants : Prop :=
  (∀ cfg : Config, (State.construct cfg).LineInRange ∧ (State.construct cfg).BitmapAligned) ∧
  ∀ s t : State, step s = .next t →
    (s.LineInRange → t.LineInRange) ∧
    (s.BitmapAligned → t.BitmapAligned) ∧
    (t.raster.currentMode ≠ s.raster.currentMode →
      s.AtLine ∧ ∃ snap, snapshot s = some snap ∧ isBadLine s.seq.line.toNat snap.yscroll = true ∧
        s.raster.scheduledMode = some t.raster.currentMode ∧ t.raster.scheduledMode = none) ∧
    ∀ R c, fbFind t.fb R c ≠ fbFind s.fb R c →
      s.AtLine ∧ visible s.cfg.geo s.seq.line.toNat = true ∧ R = s.row

/-- R39: when `READY` has been accepted only with every field set, a step never reads an `UNSET` field, and no step
makes a field `UNSET` again. R91: with every field set there is a snapshot, and a snapshot holds, under each name, the
value of that register-port field or address. -/
def Obligations.UnsetIsNeverRead : Prop :=
  (∀ s : State, s.PortsReady → step s ≠ .fault .unsetSnapshot) ∧
  (∀ s t : State, step s = .next t →
    (s.regs.border ≠ none → t.regs.border ≠ none) ∧ (s.regs.rasterTarget ≠ none → t.regs.rasterTarget ≠ none) ∧
    (s.regs.den ≠ none → t.regs.den ≠ none) ∧ (s.regs.vwide ≠ none → t.regs.vwide ≠ none) ∧
    (s.regs.hwide ≠ none → t.regs.hwide ≠ none) ∧ (s.regs.yscroll ≠ none → t.regs.yscroll ≠ none) ∧
    (s.regs.xscroll ≠ none → t.regs.xscroll ≠ none) ∧ (s.regs.bg0 ≠ none → t.regs.bg0 ≠ none) ∧
    (s.regs.bg1 ≠ none → t.regs.bg1 ≠ none) ∧ (s.regs.bg2 ≠ none → t.regs.bg2 ≠ none) ∧
    (s.regs.bg3 ≠ none → t.regs.bg3 ≠ none)) ∧
  (∀ s : State, allSet s.regs = true → ∃ snap, snapshot s = some snap) ∧
  ∀ (s : State) (snap : Snapshot), snapshot s = some snap →
    s.regs.border = some snap.border ∧ s.regs.rasterTarget = some snap.rasterTarget ∧ s.regs.den = some snap.den ∧
    s.regs.vwide = some snap.vwide ∧ s.regs.hwide = some snap.hwide ∧ s.regs.yscroll = some snap.yscroll ∧
    s.regs.xscroll = some snap.xscroll ∧ s.regs.bg0 = some snap.bg0 ∧ s.regs.bg1 = some snap.bg1 ∧
    s.regs.bg2 = some snap.bg2 ∧ s.regs.bg3 = some snap.bg3 ∧ s.raster.charAddr = snap.charAddr ∧
    s.raster.videoAddr = snap.videoAddr ∧ s.raster.bitmapAddr = snap.bitmapAddr

/-- Nothing clears the stop request, the ready flag, the refusal mark or a fault; `STOPPED` and `FAULTED` are never
left (R16, R27 to R29). `FAULTED` is not left because no agent has a step in it: R86 and R151 say so of the host and the
engine, and that the platform's writes have none either is the model's choice (log 8). The clause on a recorded fault
is therefore about states that no run reaches, with a fault recorded in another phase (R29, R151). -/
def Obligations.FlagsAreNeverCleared : Prop :=
  ∀ s t : State, step s = .next t →
    (s.ctl.stopReq = true → t.ctl.stopReq = true) ∧ (s.ctl.ready = true → t.ctl.ready = true) ∧
    (s.ctl.refused = true → t.ctl.refused = true) ∧ (s.seq.phase = .stopped → t.seq.phase = .stopped) ∧
    s.seq.phase ≠ .faulted ∧ (s.ctl.fault ≠ none → t.ctl.fault ≠ none)

/-- What agents other than the host cannot change (R34): the address registers, the register-port fields, the stop
request, the ready flag, the refusal mark and the responses; and a staged mode is kept or committed: where it is
cleared, the current mode is the mode that was staged (R94). -/
def Obligations.OnlyHostWritesHostState : Prop :=
  ∀ s t : State, step s = .next t → (∀ w rest, s.env.inputs ≠ .command w :: rest) →
    t.regs = s.regs ∧ t.raster.charAddr = s.raster.charAddr ∧ t.raster.videoAddr = s.raster.videoAddr ∧
    t.raster.bitmapAddr = s.raster.bitmapAddr ∧ t.ctl.stopReq = s.ctl.stopReq ∧ t.ctl.ready = s.ctl.ready ∧
    t.ctl.refused = s.ctl.refused ∧ t.out.responses = s.out.responses ∧
    (t.raster.scheduledMode = s.raster.scheduledMode ∨
      t.raster.scheduledMode = none ∧ s.raster.scheduledMode = some t.raster.currentMode) ∧ t.cfg = s.cfg

/-- The event trace and the responses only grow: what has been published, a frame's copy among it, is never changed by
a later step (R10, R56). -/
def Obligations.OutputsOnlyGrow : Prop :=
  ∀ s t : State, step s = .next t →
    (∃ es, t.out.trace = s.out.trace ++ es) ∧ ∃ rs, t.out.responses = s.out.responses ++ rs

/-- Every publication carries the complete frame buffer of that moment: every pixel of it has been written, with an
index 0 to 15 (R98, R121, R122). -/
def Obligations.PublishedFramesAreComplete : Prop :=
  ∀ (s t : State) (es : List Event), s.Inv → step s = .next t → t.out.trace = s.out.trace ++ es →
    ∀ fb ∈ publishedFrames es, fb = s.fb ∧ ∀ R x, R < s.cfg.geo.frameH → x < s.cfg.geo.frameW →
      ∃ v, fbFind fb R x = some v ∧ v.toNat ≤ 15

/-! ### The scanline sequencer (41_scanline_sequencer.md) -/

/-- A line is bad exactly when `(line mod 8)` equals the vertical scroll (R89), which is when the low three bits of
the line register equal it. -/
def Obligations.BadLineIsLineModEight : Prop :=
  ∀ (L : Nat) (line : LineNo) (ys : BitVec 3),
    (isBadLine L ys = true ↔ L % 8 = ys.toNat) ∧
    (isBadLine line.toNat ys = true ↔ line.extractLsb' 0 3 = ys)

/-- The three bad-line effects fire together and only on a bad line (R92 to R95): a line step that completes charges 40
cycles and commits the staged mode if its line is bad, and charges nothing and leaves the modes alone if it is not. -/
def Obligations.BadLineEffectsTogether : Prop :=
  ∀ (g : Bool) (s t : State) (snap : Snapshot), s.AtLine → snapshot s = some snap → engineStep g s = .next t →
    (isBadLine s.seq.line.toNat snap.yscroll = true →
      (∃ es, t.out.trace = s.out.trace ++ .steal 40 :: es ∧ ∀ n, .steal n ∉ es) ∧
      t.raster.currentMode = s.raster.scheduledMode.getD s.raster.currentMode ∧ t.raster.scheduledMode = none) ∧
    (isBadLine s.seq.line.toNat snap.yscroll = false →
      (∃ es, t.out.trace = s.out.trace ++ es ∧ ∀ n, .steal n ∉ es) ∧ t.raster = s.raster)

/-- The order of a completed line step's events (R99): the charge on a bad line, the raster interrupt if the line is
the target, the two sprite calls of an in-window row, the advance request. The line step itself keeps the
sequencer but for its position within the line, the addresses of RasterState, the register-port fields, the control
flags and the configuration; the modes of RasterState change on a bad line only (R94). -/
def Obligations.LineStepEventOrder : Prop :=
  ∀ (g : Bool) (s t : State) (snap : Snapshot), s.AtLine → snapshot s = some snap → engineStep g s = .next t →
    t.seq.phase = .running →
    t.out.trace = s.out.trace ++
      ((if isBadLine s.seq.line.toNat snap.yscroll then [.steal 40] else []) ++
        (if s.seq.line = snap.rasterTarget then [.rasterIrq s.seq.line] else []) ++
        (if visible s.cfg.geo s.seq.line.toNat && inWindowRow s.cfg.geo snap s.row then
          [.spriteBack snap.videoAddr s.row (s.row + s.cfg.geo.spriteYOffset),
           .spriteFront s.row (s.row + s.cfg.geo.spriteYOffset)] else []) ++ [.advance 64]) ∧
    t.seq = { s.seq with sub := .advancing } ∧ t.regs = s.regs ∧ t.ctl = s.ctl ∧ t.cfg = s.cfg ∧
    t.raster.charAddr = s.raster.charAddr ∧ t.raster.videoAddr = s.raster.videoAddr ∧
    t.raster.bitmapAddr = s.raster.bitmapAddr ∧
    (isBadLine s.seq.line.toNat snap.yscroll = false → t.raster = s.raster)

/-- The raster interrupt (R107, R176): a line step emits `RasterIrq(L)` exactly when `L` is the target of its snapshot,
visible line or not, and the line register still holds `L` afterwards, so a handler that reads the line gets `L`. -/
def Obligations.RasterInterruptAtTarget : Prop :=
  ∀ (g : Bool) (s t : State) (snap : Snapshot), s.AtLine → snapshot s = some snap → engineStep g s = .next t →
    t.seq.line = s.seq.line ∧
    ∃ es, t.out.trace = s.out.trace ++ es ∧
      interrupts es = (if s.seq.line = snap.rasterTarget then [.rasterIrq s.seq.line] else [])

/-- R97: the granted advance adds 64 cycles and moves to the next line, or publishes the frame and wraps to line 0
after the last line, whether or not a stop has been requested; RasterState, the flags, the register-port fields and
the frame buffer are unchanged. -/
def Obligations.AdvanceMovesToNextLine : Prop :=
  ∀ s : State, s.seq.phase = .running → s.seq.sub = .advancing →
    ∃ t, engineStep true s = .next t ∧ grantStep s = .next t ∧
      t.raster = s.raster ∧ t.ctl = s.ctl ∧ t.regs = s.regs ∧ t.fb = s.fb ∧ t.cfg = s.cfg ∧
      (s.seq.line.toNat = s.cfg.geo.totalLines - 1 →
        t.seq = { s.seq with cycle := s.seq.cycle + 64, sub := .lineStart, line := 0, frame := s.seq.frame + 1 } ∧
        t.out = { s.out with trace := s.out.trace ++ [.publish s.fb] }) ∧
      (s.seq.line.toNat ≠ s.cfg.geo.totalLines - 1 →
        t.seq = { s.seq with cycle := s.seq.cycle + 64, sub := .lineStart, line := s.seq.line + 1 } ∧
        t.out = s.out)

/-- Without a grant the engine takes no step while it waits for one, and a grant with no advance pending does nothing
(R147; the second is the model's reading, log 3). -/
def Obligations.AdvanceWaitsForGrant : Prop :=
  (∀ s : State, s.seq.phase = .running → s.seq.sub = .advancing → engineStep false s = .next s) ∧
  ∀ s : State, s.seq.phase ≠ .faulted → ¬ (s.seq.phase = .running ∧ s.seq.sub = .advancing) → grantStep s = .next s

/-- The platform's writes inside the line's interval have all happened when the advance is done: every byte and every
colour cell holds the last value written to it, and one not written is unchanged (R55). The reads of a line may answer
the value of any write in the interval, one made while the advance is pending too: a read looks at the interval's values
of its location at a free instant, and each of them is the value at some instant; a line step keeps memory and the
interval's writes, and whatever a step then makes a location hold, up to the end of the advance, is among the values
that the interval had for it before the step. That the interval's writes are read off the input list is the model's
way to leave the choice free (log 4). -/
def Obligations.IntervalWritesSettle : Prop :=
  (∀ (s : State) (id : ReadId) (a n : Nat),
    memOracle s id a = heldValue (memByte s.env.mem a) (sysValues (intervalWrites s.env) a)
      (Config.readInstant s.seq.cycle id) ∧
    colorRead s id n = heldValue (colorCell s.env.color n) (colorValues (intervalWrites s.env) n)
      (Config.readInstant s.seq.cycle id)) ∧
  (∀ (α : Type) (now : α) (later : List α) (v : α), v ∈ now :: later → ∃ i, heldValue now later i = v) ∧
  (∀ (g : Bool) (s t : State), s.AtLine → engineStep g s = .next t →
    t.env.mem = s.env.mem ∧ t.env.color = s.env.color ∧ intervalWrites t.env = intervalWrites s.env) ∧
  (∀ s t : State, s.seq.phase = .running → s.seq.sub = .advancing → step s = .next t →
    (∀ a, memByte t.env.mem a ∈ memByte s.env.mem a :: sysValues (intervalWrites s.env) a) ∧
    (∀ n, colorCell t.env.color n ∈ colorCell s.env.color n :: colorValues (intervalWrites s.env) n) ∧
    (t.seq.sub = .advancing →
      (∀ a, ∀ v ∈ sysValues (intervalWrites t.env) a, v ∈ sysValues (intervalWrites s.env) a) ∧
      ∀ n, ∀ v ∈ colorValues (intervalWrites t.env) n, v ∈ colorValues (intervalWrites s.env) n)) ∧
  ∀ s t : State, s.seq.phase = .running → s.seq.sub = .advancing → engineStep true s = .next t →
    (∀ a, memByte t.env.mem a = (sysValues s.env.lineWrites a).getLast?.getD (memByte s.env.mem a)) ∧
    (∀ n, colorCell t.env.color n = (colorValues s.env.lineWrites n).getLast?.getD (colorCell s.env.color n)) ∧
    t.env.lineWrites = [] ∧ t.env.draws = s.env.draws ∧ t.env.inputs = s.env.inputs

/-- R100: a requested stop is taken at the head of the line step: no line is rendered, the line and the frame buffer
keep their values, the engine leaves arbitration and emits `Stopped`, and is final. -/
def Obligations.StopAtLineBoundary : Prop :=
  ∀ (g : Bool) (s : State), s.seq.phase = .running → s.seq.sub = .lineStart → s.ctl.stopReq = true →
    ∃ t, engineStep g s = .next t ∧
      t = { s with seq := { s.seq with phase := .stopped, participating := false },
                   out := { s.out with trace := s.out.trace ++ [.stopped] } } ∧
      engineStep g t = .next t

/-- R101: a stop requested before `Start` takes priority over it: the engine stops and emits `Stopped` only. -/
def Obligations.StopBeforeStart : Prop :=
  ∀ (g : Bool) (s : State), s.seq.phase = .waitReady → s.ctl.stopReq = true →
    engineStep g s = .next { s with seq := { s.seq with phase := .stopped },
                                    out := { s.out with trace := s.out.trace ++ [.stopped] } }

/-- R102: after `READY`, with no stop requested, the engine resumes participation and runs, its position unchanged,
which is line 0 of frame 0; before `READY` the engine waits, with no line step and no event. -/
def Obligations.StartOnReady : Prop :=
  (∀ (g : Bool) (s : State), s.seq.phase = .waitReady → s.ctl.ready = true → s.ctl.stopReq = false →
    engineStep g s = .next { s with seq := { s.seq with phase := .running, participating := true },
                                    out := { s.out with trace := s.out.trace ++ [.resume] } }) ∧
  (∀ (g : Bool) (s : State), s.seq.phase = .waitReady → s.ctl.ready = false → s.ctl.stopReq = false →
    engineStep g s = .next s) ∧
  ∀ s : State, s.Inv → s.seq.phase = .waitReady → s.seq.line = 0 ∧ s.seq.sub = .lineStart ∧ s.seq.frame = 0

/-- How far the next bad line is (R103): at most 7 lines on when the lines per frame are a multiple of 8, at most 14
otherwise, counted across the wrap. The premise of at least 8 lines per frame is the model's: with fewer there may be
no bad line at all. -/
def Obligations.BadLineDistance : Prop :=
  ∀ (totalLines L : Nat) (ys : BitVec 3), 8 ≤ totalLines → L < totalLines →
    ∃ d, badLineAfter totalLines L d ys ∧ (totalLines % 8 = 0 → d ≤ 7) ∧ d ≤ 14

/-- Commit latency (R103): with a mode staged before line `L`, the vertical scroll unchanged and no further input, the
mode in effect does not change before the line step of the first bad line at or after `L`, and is the staged mode
after it. Counting two steps a line rests on the model's choice that with no input left an advance is granted at once
(log 3). -/
def Obligations.ModeCommitsAtFirstBadLine : Prop :=
  ∀ (s : State) (snap : Snapshot) (v : ModeVariant) (d : Nat), s.AtLine → s.LineInRange → s.env.inputs = [] →
    snapshot s = some snap → s.raster.scheduledMode = some v →
    badLineAfter s.cfg.geo.totalLines s.seq.line.toNat d snap.yscroll →
    (∀ k t, k ≤ 2 * d → runSteps k s = .next t →
      t.raster.currentMode = s.raster.currentMode ∧ t.raster.scheduledMode = some v) ∧
    ∀ t, runSteps (2 * d + 1) s = .next t → t.raster.currentMode = v ∧ t.raster.scheduledMode = none

/-! ### Line composition (42_line_composition.md) -/

/-- R108: the window extents, from the two wide-border bits independently, inside the content area, which does not
move. -/
def Obligations.WindowExtents : Prop :=
  ∀ g : Geometry,
    hExtent g 0 = (g.contentX0, g.contentX0 + 320) ∧ hExtent g 1 = (g.contentX0 + 7, g.contentX0 + 311) ∧
    vExtent g 0 = (g.contentY0, g.contentY0 + 200) ∧ vExtent g 1 = (g.contentY0 + 4, g.contentY0 + 196)

/-- A line step completes, whatever the mode, when every covered pixel's background and foreground can be computed;
the frame buffer's row of the line then holds, in every column, the pixel of R120: the front draw, else the foreground,
else the back draw, else the background inside the window of an in-window row, and the border colour elsewhere. An
in-window row lies inside the vertical extent with `DEN` = 1 (R109). Every other row is unchanged. That the back draw is
the first pending draw and the front draw the second, none pending drawing nothing, is the model's choice (log 5). -/
def Obligations.LineStepPaintsFinalPixels : Prop :=
  ∀ (g : Bool) (s : State) (snap : Snapshot), s.AtLine → snapshot s = some snap →
    visible s.cfg.geo s.seq.line.toNat = true →
    (snap.den = 1 → (vExtent s.cfg.geo snap.vwide).1 ≤ s.row → s.row < (vExtent s.cfg.geo snap.vwide).2 →
      ∀ x, s.InColumns snap x →
      (∃ b, back s (lineMode s snap) snap s.contentRow (x - s.cfg.geo.contentX0) = .ok b) ∧
      ∃ f, fore s (lineMode s snap) snap s.contentRow (x - s.cfg.geo.contentX0) = .ok f) →
    ∃ t, engineStep g s = .next t ∧ t.seq.phase = .running ∧ t.seq.sub = .advancing ∧
      (snap.den = 1 → (vExtent s.cfg.geo snap.vwide).1 ≤ s.row → s.row < (vExtent s.cfg.geo snap.vwide).2 →
        ∀ x, x < s.cfg.geo.frameW → s.InColumns snap x → ∀ b f, back s (lineMode s snap) snap s.contentRow (x - s.cfg.geo.contentX0) = .ok b →
          fore s (lineMode s snap) snap s.contentRow (x - s.cfg.geo.contentX0) = .ok f →
          fbPixel t.fb s.row x =
            ((((drawPixel (s.env.draws.tail.headD []) x).or (f.map toPixel)).or
              (drawPixel (s.env.draws.headD []) x)).getD (toPixel b))) ∧
      (∀ x, x < s.cfg.geo.frameW →
        ¬ (snap.den = 1 ∧ (vExtent s.cfg.geo snap.vwide).1 ≤ s.row ∧ s.row < (vExtent s.cfg.geo snap.vwide).2 ∧
          s.InColumns snap x) →
        fbPixel t.fb s.row x = toPixel snap.border) ∧
      ∀ R c, R ≠ s.row → fbPixel t.fb R c = fbPixel s.fb R c

/-- R116: a visible line whose row is no in-window row (the screen disabled, or outside the vertical extent) completes,
fills the whole row with the border colour, calls no sprite and uses up no draw, and cannot fault. -/
def Obligations.BorderRowsFillAndCannotFault : Prop :=
  ∀ (g : Bool) (s : State) (snap : Snapshot), s.AtLine → snapshot s = some snap →
    visible s.cfg.geo s.seq.line.toNat = true →
    (snap.den = 0 ∨ ¬ ((vExtent s.cfg.geo snap.vwide).1 ≤ s.row ∧ s.row < (vExtent s.cfg.geo snap.vwide).2)) →
    ∃ t, engineStep g s = .next t ∧ t.seq.phase = .running ∧ t.ctl.fault = s.ctl.fault ∧ t.env = s.env ∧
      (∀ x, x < s.cfg.geo.frameW → fbPixel t.fb s.row x = toPixel snap.border) ∧
      ∃ es, t.out.trace = s.out.trace ++ es ∧ (∀ v R c, .spriteBack v R c ∉ es) ∧ ∀ R c, .spriteFront R c ∉ es

/-- A line outside the visible range does no pixel work (R105, R106): the line step completes, the frame buffer and the
environment are unchanged. -/
def Obligations.InvisibleLinesDrawNothing : Prop :=
  ∀ (g : Bool) (s : State) (snap : Snapshot), s.AtLine → snapshot s = some snap →
    ¬ (s.cfg.geo.visFirst ≤ s.seq.line.toNat ∧ s.seq.line.toNat < s.cfg.geo.visFirst + s.cfg.geo.frameH) →
    ∃ t, engineStep g s = .next t ∧ t.seq.phase = .running ∧ t.fb = s.fb ∧ t.env = s.env

/-- R115: the border strips colour the columns left and right of the window and leave the window as it was. -/
def Obligations.BorderStripsCoverOutside : Prop :=
  ∀ (cfg : Config) (b : Nibble) (h : BitVec 1) (row : Row) (x : Nat), x < cfg.geo.frameW →
    rowFind (borderStrips cfg.geo.frameW b (hExtent cfg.geo h).1 (hExtent cfg.geo h).2 row) x =
      if (hExtent cfg.geo h).1 ≤ x ∧ x < (hExtent cfg.geo h).2 then rowFind row x else some (toPixel b)

/-- A frame with the screen disabled (R104, R123): from line 0, with `DEN` = 0, no stop requested and no input, the
frame runs through, advances the clock 64 cycles a line, and publishes exactly one buffer, every pixel of which is the
border colour. Two steps a line over an empty input list rest on the model's choice that the engine then runs and its
advances are granted at once (log 3). -/
def Obligations.BlankFrameIsAllBorder : Prop :=
  ∀ (s : State) (snap : Snapshot), s.AtLine → s.seq.line = 0 → s.env.inputs = [] → snapshot s = some snap →
    snap.den = 0 →
    ∃ t es fb, runSteps (2 * s.cfg.geo.totalLines) s = .next t ∧ t.out.trace = s.out.trace ++ es ∧
      publishedFrames es = [fb] ∧
      (∀ R x, R < s.cfg.geo.frameH → x < s.cfg.geo.frameW → fbFind fb R x = some (toPixel snap.border)) ∧
      t.seq = { s.seq with cycle := s.seq.cycle + 64 * s.cfg.geo.totalLines, frame := s.seq.frame + 1 } ∧
      t.regs = s.regs ∧ t.ctl = s.ctl

/-- Two renderings of one line with equal snapshots, equal modes, equal memory that nobody writes, and equal draws
complete together and paint equal rows, whatever the frame buffer held before (R124, R140). That nobody writes says so
of the whole interval from the line step to the end of its advance (R55). -/
def Obligations.EqualInputsPaintEqualRows : Prop :=
  ∀ (g : Bool) (s s' t : State) (snap : Snapshot), s.AtLine → s'.AtLine → s.cfg = s'.cfg →
    s.seq.line = s'.seq.line → snapshot s = some snap → snapshot s' = some snap →
    lineMode s snap = lineMode s' snap → intervalWrites s.env = [] → intervalWrites s'.env = [] →
    s.env.mem = s'.env.mem → s.env.color = s'.env.color → s.env.draws = s'.env.draws →
    visible s.cfg.geo s.seq.line.toNat = true → engineStep g s = .next t → t.seq.phase = .running →
    ∃ t', engineStep g s' = .next t' ∧ t'.seq.phase = .running ∧
      ∀ x, x < s.cfg.geo.frameW → fbFind t'.fb s.row x = fbFind t.fb s.row x

/-! ### Mode rasterers and memory (43_mode_rasterers.md, 20_memory.md) -/

/-- R42: a memory read at or above 0x10000 is the fault with that address, not wrapped and not clipped; a read below
answers the oracle's byte. -/
def Obligations.MemReadFaultsAboveMemory : Prop :=
  ∀ (s : State) (id : ReadId) (a : Nat),
    (0x10000 ≤ a → memRead s id a = .error a) ∧ (a < 0x10000 → memRead s id a = .ok (memOracle s id a))

/-- The memory oracle (R55): a read answers a value the location holds in the line's interval, its value at the snapshot
or that of any write from there to the end of the advance, and a location not written in it has its one value. -/
def Obligations.OracleReadsHeldValue : Prop :=
  ∀ (s : State) (id : ReadId) (a n : Nat),
    memOracle s id a ∈ memByte s.env.mem a :: sysValues (intervalWrites s.env) a ∧
    (sysValues (intervalWrites s.env) a = [] → memOracle s id a = memByte s.env.mem a) ∧
    colorRead s id n ∈ colorCell s.env.color n :: colorValues (intervalWrites s.env) n ∧
    (colorValues (intervalWrites s.env) n = [] → colorRead s id n = colorCell s.env.color n)

/-- Cell addressing and the two pixel selectors (R130, R131): a content pixel's cell number is below 1000, bit 7 is
the leftmost pixel of a byte, and the two columns of a double-wide pixel share their pair. -/
def Obligations.CellsAndPixelOrder : Prop :=
  (∀ r c : Nat, r < 200 → c < 320 → cellOf r c = r / 8 * 40 + c / 8 ∧ cellOf r c < 1000) ∧
  (∀ (x : Byte) (cx : Nat), cx < 8 → hbit x cx = decide (x.toNat / 2 ^ (7 - cx) % 2 = 1)) ∧
  ∀ (x : Byte) (k : Nat), k < 4 →
    (mpair x (2 * k)).toNat = x.toNat / 2 ^ (6 - 2 * k) % 4 ∧ mpair x (2 * k + 1) = mpair x (2 * k)

/-- A bitmap read never faults, the bitmap address being aligned (R131, R153). -/
def Obligations.BitmapReadNeverFaults : Prop :=
  ∀ (s : State) (snap : Snapshot) (content : Bool) (c n cy : Nat),
    snap.bitmapAddr.extractLsb' 0 13 = 0 → n < 1000 → cy < 8 →
    ∃ v, fetchBM s snap content c n cy = .ok v

/-- The text modes' pixels from the video byte `v`, the colour and the glyph byte: the default of the parameter
`MODE_PIXELS` (R132, R133, R134), which the spec takes from general knowledge (log 16). -/
def Obligations.TextModePixels : Prop :=
  ∀ (s : State) (snap : Snapshot) (r c : Nat) (v g : Byte),
    fetchVM s snap true c (cellOf r c) = .ok v →
    (back s .textNormal snap r c = .ok snap.bg0 ∧ back s .textMulti snap r c = .ok snap.bg0) ∧
    (fetchCH s snap true c v.toNat (r % 8) = .ok g →
      fore s .textNormal snap r c = .ok (if hbit g (c % 8) then some (fetchCR s true c (cellOf r c)) else none) ∧
      ((fetchCR s true c (cellOf r c)).toNat < 8 → fore s .textMulti snap r c =
        .ok (if hbit g (c % 8) then some (BitVec.ofNat 4 ((fetchCR s true c (cellOf r c)).toNat % 8)) else none)) ∧
      (8 ≤ (fetchCR s true c (cellOf r c)).toNat →
        (mpair g (c % 8) = 0 → fore s .textMulti snap r c = .ok none) ∧
        (mpair g (c % 8) = 1 → fore s .textMulti snap r c = .ok (some snap.bg1)) ∧
        (mpair g (c % 8) = 2 → fore s .textMulti snap r c = .ok (some snap.bg2)) ∧
        (mpair g (c % 8) = 3 → fore s .textMulti snap r c =
          .ok (some (BitVec.ofNat 4 ((fetchCR s true c (cellOf r c)).toNat % 8)))))) ∧
    (fetchCH s snap true c (v.toNat % 64) (r % 8) = .ok g →
      fore s .textExtended snap r c = .ok (if hbit g (c % 8) then some (fetchCR s true c (cellOf r c)) else none)) ∧
    ∀ u, fetchVM s snap false c (cellOf r c) = .ok u →
      (u.toNat / 64 = 0 → back s .textExtended snap r c = .ok snap.bg0) ∧
      (u.toNat / 64 = 1 → back s .textExtended snap r c = .ok snap.bg1) ∧
      (u.toNat / 64 = 2 → back s .textExtended snap r c = .ok snap.bg2) ∧
      (u.toNat / 64 = 3 → back s .textExtended snap r c = .ok snap.bg3)

/-- The bitmap modes' pixels from the video byte `v`, the colour and the bitmap byte: the default of the parameter
`MODE_PIXELS` (R135, R136), which the spec takes from general knowledge (log 16). -/
def Obligations.BitmapModePixels : Prop :=
  ∀ (s : State) (snap : Snapshot) (r c : Nat) (v b : Byte),
    fetchVM s snap true c (cellOf r c) = .ok v → fetchBM s snap true c (cellOf r c) (r % 8) = .ok b →
    fore s .bitmapNormal snap r c =
      .ok (if hbit b (c % 8) then some (BitVec.ofNat 4 (v.toNat / 16)) else none) ∧
    (mpair b (c % 8) = 0 → fore s .bitmapMulti snap r c = .ok none) ∧
    (mpair b (c % 8) = 1 → fore s .bitmapMulti snap r c = .ok (some (BitVec.ofNat 4 (v.toNat / 16)))) ∧
    (mpair b (c % 8) = 2 → fore s .bitmapMulti snap r c = .ok (some (BitVec.ofNat 4 (v.toNat % 16)))) ∧
    (mpair b (c % 8) = 3 → fore s .bitmapMulti snap r c = .ok (some (fetchCR s true c (cellOf r c)))) ∧
    back s .bitmapMulti snap r c = .ok snap.bg0 ∧
    ∀ u, fetchVM s snap false c (cellOf r c) = .ok u →
      back s .bitmapNormal snap r c = .ok (BitVec.ofNat 4 (u.toNat % 16))

/-- The named codes of the variants, the identity hooks and the reserved debug indices (R24, R127 to R129). -/
def Obligations.VariantCapabilities : Prop :=
  (modeCode .textNormal = 0 ∧ modeCode .textMulti = 1 ∧ modeCode .textExtended = 2 ∧ modeCode .bitmapNormal = 3 ∧
    modeCode .bitmapMulti = 4) ∧
  ∀ (m : ModeVariant) (s : State) (c v b : Addr) (L : Nat),
    startFrame m c v b s = s ∧ onBadLine m L s = s ∧ (debugColor m = 16 ∨ debugColor m = 17)

/-! ### Faults (60_exceptions.md) -/

/-- A line step that faults stores the code, enters `FAULTED` and emits `Faulted` in that same step, last of its
events; the line, the position, the cycle and frame counts are kept, no front call and no advance is requested, and no
row but the line's own has changed (R151, R118; the line's own row is a free value, log 13). What the fault records is
the line and the address of the first read that faults (R139, R152; the model's field, log 10): that of the first
covered column whose background cannot be computed, or, when every background of the row can, of the first whose
foreground cannot; the address lies outside memory. Which bytes a mode reads is the default of `MODE_PIXELS` (log 16).
No step of any agent follows: R86 and R151 say it of the host and the engine, and the model's fault says it of the
platform too (log 8). -/
def Obligations.FaultEndsTheEngine : Prop :=
  ∀ (g : Bool) (s t : State), s.AtLine → engineStep g s = .next t → t.seq.phase = .faulted →
    t.ctl.fault = some .addrRange ∧ faultCode .addrRange = 1 ∧
    (∃ a snap x, t.ctl.faultInfo = some { addr := a, line := s.seq.line } ∧ 0x10000 ≤ a ∧
      snapshot s = some snap ∧ s.InWindow snap ∧ s.InColumns snap x ∧
      (back s (lineMode s snap) snap s.contentRow (x - s.cfg.geo.contentX0) = .error a ∧
          (∀ y, s.InColumns snap y → y < x →
            ∃ b, back s (lineMode s snap) snap s.contentRow (y - s.cfg.geo.contentX0) = .ok b) ∨
        fore s (lineMode s snap) snap s.contentRow (x - s.cfg.geo.contentX0) = .error a ∧
          (∀ y, s.InColumns snap y →
            ∃ b, back s (lineMode s snap) snap s.contentRow (y - s.cfg.geo.contentX0) = .ok b) ∧
          ∀ y, s.InColumns snap y → y < x →
            ∃ f, fore s (lineMode s snap) snap s.contentRow (y - s.cfg.geo.contentX0) = .ok f)) ∧
    t.seq = { s.seq with phase := .faulted } ∧
    (∃ es, t.out.trace = s.out.trace ++ es ++ [.faulted .addrRange] ∧ (∀ n, .advance n ∉ es) ∧
      ∀ R c, .spriteFront R c ∉ es) ∧
    (∀ R c, R ≠ s.row → fbFind t.fb R c = fbFind s.fb R c) ∧
    ∀ u, step t ≠ .next u

/-- The line step of an in-window row faults exactly when the window covers a cell whose video-matrix address reaches
0x10000, or, in a text mode, whose glyph address does; with memory that nobody writes in the line's interval (R131, R139,
R153). Which bytes a mode fetches is the default of `MODE_PIXELS` (log 16). -/
def Obligations.FaultsExactlyWhenOutOfRange : Prop :=
  ∀ (g : Bool) (s : State) (snap : Snapshot), s.AtLine → s.BitmapAligned → snapshot s = some snap →
    s.InWindow snap → intervalWrites s.env = [] →
    ∃ t, engineStep g s = .next t ∧
      (t.seq.phase = .faulted ↔ ∃ x, s.InColumns snap x ∧
        (0x10000 ≤ snap.videoAddr.toNat + cellOf s.contentRow (x - s.cfg.geo.contentX0) ∨
          ((lineMode s snap = .textNormal ∨ lineMode s snap = .textMulti) ∧
            0x10000 ≤ snap.charAddr.toNat + s.contentRow % 8 +
              8 * (memByte s.env.mem (snap.videoAddr.toNat + cellOf s.contentRow (x - s.cfg.geo.contentX0))).toNat) ∨
          (lineMode s snap = .textExtended ∧
            0x10000 ≤ snap.charAddr.toNat + s.contentRow % 8 +
              8 * ((memByte s.env.mem
                (snap.videoAddr.toNat + cellOf s.contentRow (x - s.cfg.geo.contentX0))).toNat % 64))))

/-- Addresses that leave room for the whole area never fault (R153): with the video matrix at most at 0xFC18 and the
character set at most at 0xF800, every line step completes, whatever the mode, the window and the platform's writes. -/
def Obligations.RoomyAddressesNeverFault : Prop :=
  ∀ (g : Bool) (s : State) (snap : Snapshot), s.AtLine → s.BitmapAligned → snapshot s = some snap →
    snap.videoAddr.toNat ≤ 0xFC18 → snap.charAddr.toNat ≤ 0xF800 →
    ∃ t, engineStep g s = .next t ∧ t.seq.phase = .running ∧ t.seq.sub = .advancing
end

