-- ==== Sys2Proof/Laws/Encoding.lean ====
section
/-! SUPPORT. Bit-level lemmas of the command word (R61, R63): a word's three fields, and when a row matches it. -/

namespace Sys2Proof

/-- The operation code of a word built from its fields. -/
@[simp] theorem opOf_append (op rsv : BitVec 8) (arg : BitVec 48) : opOf (op ++ rsv ++ arg) = op := by
  ext i hi
  simp only [opOf, BitVec.getElem_extractLsb', BitVec.getLsbD_append]
  have h1 : ¬ 56 + i < 48 := by omega
  have h2 : ¬ 56 + i - 48 < 8 := by omega
  simp only [h1, h2, if_false]
  rw [show 56 + i - 48 - 8 = i by omega, BitVec.getLsbD_eq_getElem hi]

/-- The reserved field of a word built from its fields. -/
@[simp] theorem rsvOf_append (op rsv : BitVec 8) (arg : BitVec 48) : rsvOf (op ++ rsv ++ arg) = rsv := by
  ext i hi
  simp only [rsvOf, BitVec.getElem_extractLsb', BitVec.getLsbD_append]
  have h1 : ¬ 48 + i < 48 := by omega
  have h2 : 48 + i - 48 < 8 := by omega
  simp only [h1, h2, if_false, if_true]
  rw [show 48 + i - 48 = i by omega, BitVec.getLsbD_eq_getElem hi]

/-- A field of the operand part of a word is that field of the operand. -/
theorem extract_append (op rsv : BitVec 8) (arg : BitVec 48) (k n : Nat) (h : k + n ≤ 48) :
    (op ++ rsv ++ arg).extractLsb' k n = arg.extractLsb' k n := by
  ext i hi
  simp only [BitVec.getElem_extractLsb', BitVec.getLsbD_append]
  have h1 : k + i < 48 := by omega
  simp [h1]

/-- Masking a word built from its fields: the operation code and reserved bits are compared whole, the operand
through its own mask. -/
theorem masked_word (op : BitVec 8) (arg m : BitVec 48) (h : arg &&& m = 0) :
    (op ++ 0#8 ++ arg) &&& (0xFFFF#16 ++ m) = op ++ 0#8 ++ 0#48 := by
  apply BitVec.eq_of_getLsbD_eq
  intro i hi
  have hm : (arg &&& m).getLsbD i = false := by rw [h]; simp
  rw [BitVec.getLsbD_and] at hm
  have ha : ∀ j, j < 16 → (0xFFFF#16).getLsbD j = true := by decide
  simp only [BitVec.getLsbD_and, BitVec.getLsbD_append]
  by_cases h48 : i < 48
  · simpa [h48] using hm
  · simp [h48, ha (i - 48) (by omega)]

/-- An operand of `n` bits, zero-extended, has no bit where the mask has ones only above it. -/
theorem small_masked {n : Nat} (x : BitVec n) (m : BitVec 48) (h : ∀ i, i < n → m.getLsbD i = false) :
    x.setWidth 48 &&& m = 0 := by
  apply BitVec.eq_of_getLsbD_eq
  intro i hi
  by_cases hn : i < n
  · simp [h i hn]
  · simp [BitVec.getLsbD_of_ge x i (by omega)]

end Sys2Proof
end

