-- ==== Sys2Proof/Laws/State.lean ====
section
/-! SUPPORT. What each update of `State` does to each field, so that no proof unfolds a record update. -/

namespace Sys2Proof.Machine

variable (s : State)

@[simp] theorem State.emit_cfg (e : Event) : (s.emit e).cfg = s.cfg := rfl
@[simp] theorem State.emit_seq (e : Event) : (s.emit e).seq = s.seq := rfl
@[simp] theorem State.emit_raster (e : Event) : (s.emit e).raster = s.raster := rfl
@[simp] theorem State.emit_ctl (e : Event) : (s.emit e).ctl = s.ctl := rfl
@[simp] theorem State.emit_regs (e : Event) : (s.emit e).regs = s.regs := rfl
@[simp] theorem State.emit_fb (e : Event) : (s.emit e).fb = s.fb := rfl
@[simp] theorem State.emit_out (e : Event) : (s.emit e).out = { s.out with trace := s.out.trace ++ [e] } := rfl
@[simp] theorem State.emit_env (e : Event) : (s.emit e).env = s.env := rfl

@[simp] theorem State.respond_cfg (r : Response) : (s.respond r).cfg = s.cfg := rfl
@[simp] theorem State.respond_seq (r : Response) : (s.respond r).seq = s.seq := rfl
@[simp] theorem State.respond_raster (r : Response) : (s.respond r).raster = s.raster := rfl
@[simp] theorem State.respond_ctl (r : Response) : (s.respond r).ctl = s.ctl := rfl
@[simp] theorem State.respond_regs (r : Response) : (s.respond r).regs = s.regs := rfl
@[simp] theorem State.respond_fb (r : Response) : (s.respond r).fb = s.fb := rfl
@[simp] theorem State.respond_out (r : Response) : (s.respond r).out = { s.out with responses := s.out.responses ++ [r] } := rfl
@[simp] theorem State.respond_env (r : Response) : (s.respond r).env = s.env := rfl

@[simp] theorem State.setRow_cfg (r : Nat) (row : Row) : (s.setRow r row).cfg = s.cfg := rfl
@[simp] theorem State.setRow_seq (r : Nat) (row : Row) : (s.setRow r row).seq = s.seq := rfl
@[simp] theorem State.setRow_raster (r : Nat) (row : Row) : (s.setRow r row).raster = s.raster := rfl
@[simp] theorem State.setRow_ctl (r : Nat) (row : Row) : (s.setRow r row).ctl = s.ctl := rfl
@[simp] theorem State.setRow_regs (r : Nat) (row : Row) : (s.setRow r row).regs = s.regs := rfl
@[simp] theorem State.setRow_fb (r : Nat) (row : Row) : (s.setRow r row).fb = fbSetRow s.fb r row := rfl
@[simp] theorem State.setRow_out (r : Nat) (row : Row) : (s.setRow r row).out = s.out := rfl
@[simp] theorem State.setRow_env (r : Nat) (row : Row) : (s.setRow r row).env = s.env := rfl

@[simp] theorem State.setSeq_cfg (q : Sequencer) : (s.setSeq q).cfg = s.cfg := rfl
@[simp] theorem State.setSeq_seq (q : Sequencer) : (s.setSeq q).seq = q := rfl
@[simp] theorem State.setSeq_raster (q : Sequencer) : (s.setSeq q).raster = s.raster := rfl
@[simp] theorem State.setSeq_ctl (q : Sequencer) : (s.setSeq q).ctl = s.ctl := rfl
@[simp] theorem State.setSeq_regs (q : Sequencer) : (s.setSeq q).regs = s.regs := rfl
@[simp] theorem State.setSeq_fb (q : Sequencer) : (s.setSeq q).fb = s.fb := rfl
@[simp] theorem State.setSeq_out (q : Sequencer) : (s.setSeq q).out = s.out := rfl
@[simp] theorem State.setSeq_env (q : Sequencer) : (s.setSeq q).env = s.env := rfl

@[simp] theorem State.setRaster_cfg (r : RasterState) : (s.setRaster r).cfg = s.cfg := rfl
@[simp] theorem State.setRaster_seq (r : RasterState) : (s.setRaster r).seq = s.seq := rfl
@[simp] theorem State.setRaster_raster (r : RasterState) : (s.setRaster r).raster = r := rfl
@[simp] theorem State.setRaster_ctl (r : RasterState) : (s.setRaster r).ctl = s.ctl := rfl
@[simp] theorem State.setRaster_regs (r : RasterState) : (s.setRaster r).regs = s.regs := rfl
@[simp] theorem State.setRaster_fb (r : RasterState) : (s.setRaster r).fb = s.fb := rfl
@[simp] theorem State.setRaster_out (r : RasterState) : (s.setRaster r).out = s.out := rfl
@[simp] theorem State.setRaster_env (r : RasterState) : (s.setRaster r).env = s.env := rfl

@[simp] theorem State.setCtl_cfg (c : ControlFlags) : (s.setCtl c).cfg = s.cfg := rfl
@[simp] theorem State.setCtl_seq (c : ControlFlags) : (s.setCtl c).seq = s.seq := rfl
@[simp] theorem State.setCtl_raster (c : ControlFlags) : (s.setCtl c).raster = s.raster := rfl
@[simp] theorem State.setCtl_ctl (c : ControlFlags) : (s.setCtl c).ctl = c := rfl
@[simp] theorem State.setCtl_regs (c : ControlFlags) : (s.setCtl c).regs = s.regs := rfl
@[simp] theorem State.setCtl_fb (c : ControlFlags) : (s.setCtl c).fb = s.fb := rfl
@[simp] theorem State.setCtl_out (c : ControlFlags) : (s.setCtl c).out = s.out := rfl
@[simp] theorem State.setCtl_env (c : ControlFlags) : (s.setCtl c).env = s.env := rfl

@[simp] theorem State.setRegs_cfg (r : PortRegs) : (s.setRegs r).cfg = s.cfg := rfl
@[simp] theorem State.setRegs_seq (r : PortRegs) : (s.setRegs r).seq = s.seq := rfl
@[simp] theorem State.setRegs_raster (r : PortRegs) : (s.setRegs r).raster = s.raster := rfl
@[simp] theorem State.setRegs_ctl (r : PortRegs) : (s.setRegs r).ctl = s.ctl := rfl
@[simp] theorem State.setRegs_regs (r : PortRegs) : (s.setRegs r).regs = r := rfl
@[simp] theorem State.setRegs_fb (r : PortRegs) : (s.setRegs r).fb = s.fb := rfl
@[simp] theorem State.setRegs_out (r : PortRegs) : (s.setRegs r).out = s.out := rfl
@[simp] theorem State.setRegs_env (r : PortRegs) : (s.setRegs r).env = s.env := rfl

@[simp] theorem State.setEnv_cfg (e : Environment) : (s.setEnv e).cfg = s.cfg := rfl
@[simp] theorem State.setEnv_seq (e : Environment) : (s.setEnv e).seq = s.seq := rfl
@[simp] theorem State.setEnv_raster (e : Environment) : (s.setEnv e).raster = s.raster := rfl
@[simp] theorem State.setEnv_ctl (e : Environment) : (s.setEnv e).ctl = s.ctl := rfl
@[simp] theorem State.setEnv_regs (e : Environment) : (s.setEnv e).regs = s.regs := rfl
@[simp] theorem State.setEnv_fb (e : Environment) : (s.setEnv e).fb = s.fb := rfl
@[simp] theorem State.setEnv_out (e : Environment) : (s.setEnv e).out = s.out := rfl
@[simp] theorem State.setEnv_env (e : Environment) : (s.setEnv e).env = e := rfl

@[simp] theorem State.dropDraw_cfg : (s.dropDraw).cfg = s.cfg := rfl
@[simp] theorem State.dropDraw_seq : (s.dropDraw).seq = s.seq := rfl
@[simp] theorem State.dropDraw_raster : (s.dropDraw).raster = s.raster := rfl
@[simp] theorem State.dropDraw_ctl : (s.dropDraw).ctl = s.ctl := rfl
@[simp] theorem State.dropDraw_regs : (s.dropDraw).regs = s.regs := rfl
@[simp] theorem State.dropDraw_fb : (s.dropDraw).fb = s.fb := rfl
@[simp] theorem State.dropDraw_out : (s.dropDraw).out = s.out := rfl
@[simp] theorem State.dropDraw_env : (s.dropDraw).env = { s.env with draws := s.env.draws.tail } := rfl

end Sys2Proof.Machine
end

