-- ==== Sys2Proof/Laws/Host.lean ====
section
/-! SUPPORT. What a host command can do: `exec_next_cases` says it once for all 14 commands. -/

namespace Sys2Proof.Machine

/-- A host step exists exactly outside `FAULTED`, and is then the given effect (R86). -/
theorem hostStep_next_iff {s t u : State} : hostStep s t = .next u ↔ s.seq.phase ≠ .faulted ∧ u = t := by
  unfold hostStep
  split <;> simp_all [eq_comm]

@[simp] theorem hostStep_of_alive {s : State} (t : State) (h : s.seq.phase ≠ .faulted) : hostStep s t = .next t := by
  simp [hostStep, h]

@[simp] theorem hostStep_of_faulted {s : State} (t : State) (h : s.seq.phase = .faulted) :
    hostStep s t = .fault .hostStuck := by simp [hostStep, h]

/-- A host step fails only in `FAULTED`, and always under the same name (R86). -/
theorem hostStep_fault_iff {s t : State} {f : Fault} :
    hostStep s t = .fault f ↔ s.seq.phase = .faulted ∧ f = .hostStuck := by
  by_cases h : s.seq.phase = .faulted <;> simp [h, eq_comm]

/-- Priming has no effect of its own (R127). -/
@[simp] theorem startFrame_eq (mode : ModeVariant) (c v b : Addr) (s : State) : startFrame mode c v b s = s := by
  cases mode <;> rfl

/-- The hook has no effect (R128). -/
@[simp] theorem onBadLine_eq (mode : ModeVariant) (l : Nat) (s : State) : onBadLine mode l s = s := by
  cases mode <;> rfl

/-- The masked bitmap address lies on an 8 KiB boundary (R71). -/
theorem maskBitmap_aligned (a : Addr) : (maskBitmap a).extractLsb' 0 13 = 0 := by
  unfold maskBitmap
  ext i hi
  simp only [BitVec.getElem_extractLsb', BitVec.getLsbD_and, Nat.zero_add]
  have : ∀ i, i < 13 → (0xE000#16).getLsbD i = false := by decide
  simp [this i hi]

theorem allSet_writeBg {r : PortRegs} (idx : BitVec 2) (c : Nibble) (h : allSet r = true) :
    allSet (writeBg idx c r) = true := by
  simp only [allSet, Bool.and_eq_true] at h
  unfold writeBg
  repeat' split
  all_goals simp [allSet, h]

/-- A command that has a step changes RasterState, or the control flags, or the response list, or the register-port
fields, and nothing else; each in the way the case says. -/
theorem exec_next_cases {i : Instr} {s t : State} (h : exec i s = .next t) :
    s.seq.phase ≠ .faulted ∧
      ((∃ r, t = s.setRaster r ∧ r.currentMode = s.raster.currentMode ∧
          (r.bitmapAddr = s.raster.bitmapAddr ∨ r.bitmapAddr.extractLsb' 0 13 = 0)) ∨
        (∃ c, t = s.setCtl c ∧ c.fault = s.ctl.fault ∧ c.faultInfo = s.ctl.faultInfo ∧
          (s.ctl.stopReq = true → c.stopReq = true) ∧ (s.ctl.refused = true → c.refused = true) ∧
          (s.ctl.ready = true → c.ready = true) ∧ (c.ready = true → s.ctl.ready = true ∨ allSet s.regs = true)) ∨
        (∃ r, t = s.respond r) ∨
        (∃ r, t = s.setRegs r ∧ (allSet s.regs = true → allSet r = true))) := by
  have port : ∀ {r : PortRegs}, hostStep s (s.setRegs r) = .next t → (allSet s.regs = true → allSet r = true) →
      s.seq.phase ≠ .faulted ∧ ∃ r, t = s.setRegs r ∧ (allSet s.regs = true → allSet r = true) :=
    fun h ha => ⟨(hostStep_next_iff.mp h).1, _, (hostStep_next_iff.mp h).2, ha⟩
  cases i <;> simp only [exec] at h
  case setAddr c v b =>
    simp only [execSetAddr, startFrame_eq, hostStep_next_iff] at h
    exact ⟨h.1, .inl ⟨_, h.2, rfl, .inr (maskBitmap_aligned b)⟩⟩
  case setMode b e m =>
    simp only [execSetMode, hostStep_next_iff] at h
    exact ⟨h.1, .inl ⟨_, h.2, rfl, .inl rfl⟩⟩
  case term =>
    simp only [execTerm, hostStep_next_iff] at h
    exact ⟨h.1, .inr (.inl ⟨_, h.2, rfl, rfl, fun _ => rfl, id, id, .inl⟩)⟩
  case getLine =>
    simp only [execGetLine, hostStep_next_iff] at h
    exact ⟨h.1, .inr (.inr (.inl ⟨_, h.2⟩))⟩
  case rdRaster =>
    simp only [execRdRaster, hostStep_next_iff] at h
    exact ⟨h.1, .inr (.inr (.inl ⟨_, h.2⟩))⟩
  case ready =>
    simp only [execReady, hostStep_next_iff] at h
    refine ⟨h.1, .inr (.inl ?_)⟩
    obtain ⟨-, rfl⟩ := h
    split
    · next ha =>
      unfold setReady
      split
      · exact ⟨s.ctl, rfl, rfl, rfl, id, id, id, .inl⟩
      · exact ⟨_, rfl, rfl, rfl, id, id, fun _ => rfl, fun _ => .inr ha⟩
    · exact ⟨_, rfl, rfl, rfl, id, fun _ => rfl, id, .inl⟩
  case wrBg i c =>
    obtain ⟨hp, hr⟩ := port h (allSet_writeBg i c)
    exact ⟨hp, .inr (.inr (.inr hr))⟩
  all_goals
    obtain ⟨hp, hr⟩ := port h (fun ha => by
      simp only [allSet, Bool.and_eq_true, Option.isSome_some] at ha ⊢
      simp only [ha, and_self])
    exact ⟨hp, .inr (.inr (.inr hr))⟩

/-- A refused word sets the refusal mark and nothing else (R154). -/
theorem refuse_eq (reason : RefuseReason) (s : State) :
    refuse reason s = s.setCtl { s.ctl with refused := true } := rfl

end Sys2Proof.Machine
end

