-- ==== Sys2Proof/Laws/Store.lean ====
section
/-! SUPPORT. The laws of stores: what a write does to every key, and that it keeps the canonical form of system
memory, colour memory and the frame buffer's row list. -/

namespace Sys2Proof.Machine

variable {α : Type}

/-! ### Reading after writing -/

@[simp] theorem storeFind_nil (k : Nat) : storeFind ([] : Store α) k = none := rfl

theorem storeFind_cons (a : Nat) (v : α) (rest : Store α) (k : Nat) :
    storeFind ((a, v) :: rest) k = if a = k then some v else storeFind rest k := rfl

theorem storeFind_put (m : Store α) (k : Nat) (v : α) (j : Nat) :
    storeFind (storePut m k v) j = if j = k then some v else storeFind m j := by
  induction m with
  | nil => simp [storePut, storeFind_cons, eq_comm]
  | cons p rest ih =>
    obtain ⟨a, w⟩ := p
    simp only [storePut]
    split
    · simp only [storeFind_cons]; grind
    · split
      · subst k; simp only [storeFind_cons]; grind
      · simp only [storeFind_cons, ih]; grind

theorem storeFind_drop (m : Store α) (k j : Nat) :
    storeFind (storeDrop m k) j = if j = k then none else storeFind m j := by
  induction m with
  | nil => simp [storeDrop]
  | cons p rest ih =>
    obtain ⟨a, w⟩ := p
    simp only [storeDrop]
    split
    · simp only [storeFind_cons, ih]; grind
    · simp only [storeFind_cons, ih]; grind

/-- A write gives the written key its value and leaves every other key alone. -/
theorem storeRead_write [DecidableEq α] (d : α) (m : Store α) (k : Nat) (v : α) (j : Nat) :
    storeRead d (storeWrite d m k v) j = if j = k then v else storeRead d m j := by
  unfold storeRead storeWrite
  split
  · rw [storeFind_drop]; split <;> simp_all
  · rw [storeFind_put]; split <;> simp

theorem storeRead_write_same [DecidableEq α] (d : α) (m : Store α) (k : Nat) (v : α) :
    storeRead d (storeWrite d m k v) k = v := by simp [storeRead_write]

theorem storeRead_write_other [DecidableEq α] (d : α) (m : Store α) {k j : Nat} (v : α) (h : j ≠ k) :
    storeRead d (storeWrite d m k v) j = storeRead d m j := by simp [storeRead_write, h]

/-! ### The canonical form -/

theorem mem_storePut {m : Store α} {k : Nat} {v : α} {p : Nat × α} (h : p ∈ storePut m k v) :
    p = (k, v) ∨ p ∈ m := by
  induction m with
  | nil => simpa [storePut] using h
  | cons q rest ih =>
    obtain ⟨a, w⟩ := q
    simp only [storePut] at h
    split at h
    · simpa using h
    · split at h
      · simp only [List.mem_cons] at h ⊢
        exact h.imp_right (.inr)
      · simp only [List.mem_cons] at h ⊢
        rcases h with h | h
        · exact .inr (.inl h)
        · exact (ih h).imp_right .inr

theorem mem_storeDrop {m : Store α} {k : Nat} {p : Nat × α} (h : p ∈ storeDrop m k) : p ∈ m := by
  induction m with
  | nil => simp [storeDrop] at h
  | cons q rest ih =>
    obtain ⟨a, w⟩ := q
    simp only [storeDrop] at h
    split at h
    · exact List.mem_cons_of_mem _ (ih h)
    · simp only [List.mem_cons] at h ⊢
      exact h.imp_right ih

theorem storeRising_put {m : Store α} (k : Nat) (v : α) (h : storeRising m) : storeRising (storePut m k v) := by
  induction m with
  | nil => simp [storePut, storeRising]
  | cons q rest ih =>
    obtain ⟨a, w⟩ := q
    have h' := List.pairwise_cons.mp h
    simp only [storePut]
    split
    · next hk =>
      refine List.pairwise_cons.mpr ⟨fun p hp => ?_, h⟩
      rcases List.mem_cons.mp hp with rfl | hp
      · exact hk
      · exact Nat.lt_trans hk (h'.1 p hp)
    · split
      · next hk => subst hk; exact List.pairwise_cons.mpr ⟨h'.1, h'.2⟩
      · refine List.pairwise_cons.mpr ⟨fun p hp => ?_, ih h'.2⟩
        rcases mem_storePut hp with rfl | hp
        · simp only; omega
        · exact h'.1 p hp

theorem storeRising_drop {m : Store α} (k : Nat) (h : storeRising m) : storeRising (storeDrop m k) := by
  induction m with
  | nil => simp [storeDrop, storeRising]
  | cons q rest ih =>
    obtain ⟨a, w⟩ := q
    have h' := List.pairwise_cons.mp h
    simp only [storeDrop]
    split
    · exact ih h'.2
    · exact List.pairwise_cons.mpr ⟨fun p hp => h'.1 p (mem_storeDrop hp), ih h'.2⟩

theorem storeRising_write [DecidableEq α] {m : Store α} (d : α) (k : Nat) (v : α) (h : storeRising m) :
    storeRising (storeWrite d m k v) := by
  unfold storeWrite
  split
  · exact storeRising_drop k h
  · exact storeRising_put k v h

/-- Whatever holds of every entry and of a written non-default entry holds of every entry after a write. -/
theorem storeWrite_forall [DecidableEq α] {P : Nat × α → Prop} {m : Store α} (d : α) (k : Nat) (v : α)
    (h : ∀ p ∈ m, P p) (hk : v ≠ d → P (k, v)) : ∀ p ∈ storeWrite d m k v, P p := by
  intro p hp
  unfold storeWrite at hp
  split at hp
  · exact h p (mem_storeDrop hp)
  · next hv =>
    rcases mem_storePut hp with rfl | hp
    · exact hk hv
    · exact h p hp

theorem storeFind_mem {m : Store α} {k : Nat} {v : α} (h : storeFind m k = some v) : (k, v) ∈ m := by
  induction m with
  | nil => simp at h
  | cons q rest ih =>
    obtain ⟨a, w⟩ := q
    simp only [storeFind_cons] at h
    split at h
    · next ha => subst ha; cases h; exact List.mem_cons_self
    · exact List.mem_cons_of_mem _ (ih h)

/-! ### System and colour memory -/

theorem memByte_write (m : List Host.Cell) (a j : Nat) (v : Byte) :
    memByte (storeWrite memDefault m a v) j = if j = a then v else memByte m j := storeRead_write ..

theorem colorCell_write (m : Store Nibble) (c n : Nat) (v : Nibble) :
    colorCell (storeWrite colorDefault m c v) n = if n = c then v else colorCell m n := storeRead_write ..

theorem Memory.wf_write {m : List Host.Cell} (a : Addr) (v : Byte) (h : Memory.wf m) :
    Memory.wf (storeWrite memDefault m a.toNat v) := by
  refine ⟨storeRising_write _ _ _ h.1, storeWrite_forall _ _ _ h.2 fun hv => ⟨?_, hv⟩⟩
  have := a.isLt
  simpa [Config.memSize] using this

theorem Memory.colorWf_write {m : Store Nibble} (c : Fin Config.colorCells) (v : Nibble) (h : Memory.colorWf m) :
    Memory.colorWf (storeWrite colorDefault m c.val v) :=
  ⟨storeRising_write _ _ _ h.1, storeWrite_forall _ _ _ h.2 fun hv => ⟨c.isLt, hv⟩⟩

/-- Both memories of an environment are in canonical form. -/
abbrev EnvWf (e : Environment) : Prop := Memory.wf e.mem ∧ Memory.colorWf e.color

theorem EnvWf_applyWrite {e : Environment} (w : MemWrite) (h : EnvWf e) : EnvWf (applyWrite e w) := by
  cases w with
  | sys a v => exact ⟨Memory.wf_write a v h.1, h.2⟩
  | color c v => exact ⟨h.1, Memory.colorWf_write c v h.2⟩

theorem EnvWf_applyWrites {e : Environment} (ws : List MemWrite) (h : EnvWf e) : EnvWf (applyWrites e ws) := by
  induction ws generalizing e with
  | nil => exact h
  | cons w ws ih => exact ih (EnvWf_applyWrite w h)

/-- Platform writes change the memories only. -/
theorem applyWrite_rest (e : Environment) (w : MemWrite) :
    (applyWrite e w).lineWrites = e.lineWrites ∧ (applyWrite e w).draws = e.draws ∧
      (applyWrite e w).inputs = e.inputs := by
  cases w <;> exact ⟨rfl, rfl, rfl⟩

theorem applyWrites_rest (e : Environment) (ws : List MemWrite) :
    (applyWrites e ws).lineWrites = e.lineWrites ∧ (applyWrites e ws).draws = e.draws ∧
      (applyWrites e ws).inputs = e.inputs := by
  induction ws generalizing e with
  | nil => exact ⟨rfl, rfl, rfl⟩
  | cons w ws ih =>
    have h := applyWrite_rest e w
    have h' := ih (applyWrite e w)
    exact ⟨h'.1.trans h.1, h'.2.1.trans h.2.1, h'.2.2.trans h.2.2⟩

/-! ### The writes of a line's interval (R55) -/

@[simp] theorem comingWrites_nil : comingWrites [] = [] := rfl
@[simp] theorem comingWrites_command (w : CmdWord) (rest : List Input) :
    comingWrites (.command w :: rest) = comingWrites rest := rfl
@[simp] theorem comingWrites_engine (rest : List Input) : comingWrites (.engine :: rest) = comingWrites rest := rfl
@[simp] theorem comingWrites_grant (rest : List Input) : comingWrites (.grant :: rest) = [] := rfl
@[simp] theorem comingWrites_memWrite (m : MemWrite) (rest : List Input) :
    comingWrites (.memWrite m :: rest) = m :: comingWrites rest := rfl
@[simp] theorem comingWrites_lineWrite (m : MemWrite) (rest : List Input) :
    comingWrites (.lineWrite m :: rest) = m :: comingWrites rest := rfl

@[simp] theorem sysValues_append (ws vs : List MemWrite) (a : Nat) :
    sysValues (ws ++ vs) a = sysValues ws a ++ sysValues vs a := by
  induction ws with
  | nil => rfl
  | cons w ws ih =>
    cases w with
    | sys b v => simp only [List.cons_append, sysValues, ih]; split <;> rfl
    | color c v => simpa only [List.cons_append, sysValues] using ih

@[simp] theorem colorValues_append (ws vs : List MemWrite) (n : Nat) :
    colorValues (ws ++ vs) n = colorValues ws n ++ colorValues vs n := by
  induction ws with
  | nil => rfl
  | cons w ws ih =>
    cases w with
    | sys b v => simpa only [List.cons_append, colorValues] using ih
    | color c v => simp only [List.cons_append, colorValues, ih]; split <;> rfl

/-- What a list of writes leaves in a byte is its old value or the value of one of the writes. -/
theorem applyWrites_memByte_mem (e : Environment) (ws : List MemWrite) (a : Nat) :
    memByte (applyWrites e ws).mem a ∈ memByte e.mem a :: sysValues ws a := by
  induction ws generalizing e with
  | nil => exact List.mem_cons_self
  | cons w ws ih =>
    have h := ih (applyWrite e w)
    cases w with
    | color c v => exact h
    | sys b v =>
      simp only [applyWrite, memByte_write, sysValues] at h ⊢
      split
      · next hb => rw [if_pos hb.symm] at h; exact List.mem_cons_of_mem _ h
      · next hb => rw [if_neg (Ne.symm hb)] at h; exact h

/-- The same for a colour cell. -/
theorem applyWrites_colorCell_mem (e : Environment) (ws : List MemWrite) (n : Nat) :
    colorCell (applyWrites e ws).color n ∈ colorCell e.color n :: colorValues ws n := by
  induction ws generalizing e with
  | nil => exact List.mem_cons_self
  | cons w ws ih =>
    have h := ih (applyWrite e w)
    cases w with
    | sys b v => exact h
    | color c v =>
      simp only [applyWrite, colorCell_write, colorValues] at h ⊢
      split
      · next hb => rw [if_pos hb.symm] at h; exact List.mem_cons_of_mem _ h
      · next hb => rw [if_neg (Ne.symm hb)] at h; exact h

/-! ### Reads inside a line (R42, R55) -/

/-- `MemRead` answers exactly below `MEM_SIZE`. -/
theorem memRead_ok {s : State} {id : ReadId} {a : Nat} {v : Byte} (h : memRead s id a = .ok v) :
    a < Config.memSize ∧ v = memOracle s id a := by
  unfold memRead at h
  split at h
  · cases h
  · cases h; exact ⟨by omega, rfl⟩

theorem memRead_error {s : State} {id : ReadId} {a b : Nat} (h : memRead s id a = .error b) :
    Config.memSize ≤ a ∧ b = a := by
  unfold memRead at h
  split at h
  · cases h; exact ⟨by assumption, rfl⟩
  · cases h

/-- A location has one of the values it held in the interval. -/
theorem heldValue_mem (now : α) (later : List α) (i : Nat) : heldValue now later i ∈ now :: later := by
  unfold heldValue
  split
  · exact List.mem_cons_self
  · next v rest =>
    have h : i % (rest.length + 2) < (now :: v :: rest).length := Nat.mod_lt _ (by omega)
    rw [List.getD_eq_getElem _ _ h]
    exact List.getElem_mem h

/-- In an interval without writes the memory oracle reads what memory holds (R50, R55). -/
theorem memOracle_quiet {s : State} (h : intervalWrites s.env = []) (id : ReadId) (a : Nat) :
    memOracle s id a = memByte s.env.mem a := by
  simp [memOracle, h, sysValues, heldValue]

theorem colorRead_quiet {s : State} (h : intervalWrites s.env = []) (id : ReadId) (n : Nat) :
    colorRead s id n = colorCell s.env.color n := by
  simp [colorRead, h, colorValues, heldValue]

/-! ### The frame buffer's rows -/

theorem fbRow_setRow (fb : FrameBuffer) (r : Nat) (row : Row) (j : Nat) :
    fbRow (fbSetRow fb r row) j = if j = r then row else fbRow fb j := storeRead_write ..

@[simp] theorem fbRow_setRow_same (fb : FrameBuffer) (r : Nat) (row : Row) : fbRow (fbSetRow fb r row) r = row := by
  simp [fbRow_setRow]

theorem fbFind_setRow_other (fb : FrameBuffer) {r j : Nat} (row : Row) (h : j ≠ r) (c : Nat) :
    fbFind (fbSetRow fb r row) j c = fbFind fb j c := by simp [fbFind, fbRow_setRow, h]

end Sys2Proof.Machine
end

