-- ==== Sys2Proof/Laws/Paint.lean ====
section
/-! SUPPORT. What one pass over a row does to each of its pixels: `paint`, and `paintChecked` where it answers and
where it faults. -/

namespace Sys2Proof.Machine

@[simp] theorem fbWrite_none (old : Option Pixel) : fbWrite old none = old := rfl

@[simp] theorem fbWrite_some (old : Option Pixel) (v : Pixel) : fbWrite old (some v) = some v := rfl

theorem fbWrite_eq_or (old new : Option Pixel) : fbWrite old new = new.or old := by cases new <;> rfl

@[simp] theorem rowFind_nil (i : Nat) : rowFind [] i = none := by simp [rowFind]

@[simp] theorem rowFind_cons_zero (p : Option Pixel) (row : Row) : rowFind (p :: row) 0 = p := by simp [rowFind]

@[simp] theorem rowFind_cons_succ (p : Option Pixel) (row : Row) (i : Nat) :
    rowFind (p :: row) (i + 1) = rowFind row i := by simp [rowFind]

theorem rowFind_head (row : Row) : row.head?.join = rowFind row 0 := by cases row <;> simp

theorem rowFind_tail (row : Row) (i : Nat) : rowFind row.tail i = rowFind row (i + 1) := by cases row <;> simp

theorem rowFind_ge {row : Row} {i : Nat} (h : row.length ≤ i) : rowFind row i = none := by
  simp [rowFind, List.getElem?_eq_none h]

theorem inSpan_iff {lo hi x : Nat} : inSpan lo hi x = true ↔ lo ≤ x ∧ x < hi := by simp [inSpan]

/-! ### `paint` -/

theorem paintFrom_length (g : Nat → Option Pixel) (lo hi n x : Nat) (row : Row) :
    (paintFrom g lo hi n x row).length = n := by
  induction n generalizing x row with
  | zero => rfl
  | succ n ih => simp [paintFrom, ih]

theorem paintFrom_find (g : Nat → Option Pixel) (lo hi n x : Nat) (row : Row) (i : Nat) (hi' : i < n) :
    rowFind (paintFrom g lo hi n x row) i =
      fbWrite (rowFind row i) (if inSpan lo hi (x + i) then g (x + i) else none) := by
  induction n generalizing x row i with
  | zero => omega
  | succ n ih =>
    cases i with
    | zero => simp [paintFrom, rowFind_head]
    | succ i =>
      simp only [paintFrom, rowFind_cons_succ]
      rw [ih _ _ _ (by omega), rowFind_tail, show x + 1 + i = x + (i + 1) by omega]

@[simp] theorem paint_length (w : Nat) (g : Nat → Option Pixel) (lo hi : Nat) (row : Row) :
    (paint w g lo hi row).length = w := paintFrom_length ..

/-- Every column of the span gets the pixel `g` gives for it, if any; every other column keeps its own. -/
theorem paint_find {w : Nat} (g : Nat → Option Pixel) (lo hi : Nat) (row : Row) {x : Nat} (h : x < w) :
    rowFind (paint w g lo hi row) x = fbWrite (rowFind row x) (if inSpan lo hi x then g x else none) := by
  simpa [paint] using paintFrom_find g lo hi w 0 row x h

/-! ### `paintChecked` -/

/-- The pixel's computation inside the span, nothing outside it. -/
def spanPixel (f : Nat → Except Nat (Option Pixel)) (lo hi x : Nat) : Except Nat (Option Pixel) :=
  if inSpan lo hi x then f x else .ok none

theorem paintCheckedFrom_ok {f : Nat → Except Nat (Option Pixel)} {lo hi n x : Nat} {row row' : Row}
    (h : paintCheckedFrom f lo hi n x row = .ok row') :
    row'.length = n ∧
      ∀ i, i < n → ∃ o, spanPixel f lo hi (x + i) = .ok o ∧ rowFind row' i = fbWrite (rowFind row i) o := by
  induction n generalizing x row row' with
  | zero => cases h; exact ⟨rfl, fun i hi' => by omega⟩
  | succ n ih =>
    simp only [paintCheckedFrom] at h
    split at h
    · cases h
    · next o ho =>
      cases hr : paintCheckedFrom f lo hi n (x + 1) row.tail with
      | error e => rw [hr] at h; cases h
      | ok rest =>
        rw [hr] at h; cases h
        obtain ⟨hl, hf⟩ := ih hr
        refine ⟨by simp [hl], fun i hi' => ?_⟩
        cases i with
        | zero => exact ⟨o, ho, by simp [rowFind_head]⟩
        | succ i =>
          obtain ⟨o', h1, h2⟩ := hf i (by omega)
          refine ⟨o', by rw [← h1]; congr 1; omega, ?_⟩
          rw [rowFind_cons_succ, h2, rowFind_tail]

theorem paintCheckedFrom_error {f : Nat → Except Nat (Option Pixel)} {lo hi n x : Nat} {row : Row} {a : Nat}
    (h : paintCheckedFrom f lo hi n x row = .error a) :
    ∃ k, k < n ∧ spanPixel f lo hi (x + k) = .error a ∧ ∀ i, i < k → ∃ o, spanPixel f lo hi (x + i) = .ok o := by
  induction n generalizing x row with
  | zero => cases h
  | succ n ih =>
    simp only [paintCheckedFrom] at h
    split at h
    · next b hb => cases h; exact ⟨0, by omega, hb, fun i hi' => by omega⟩
    · next o ho =>
      cases hr : paintCheckedFrom f lo hi n (x + 1) row.tail with
      | ok rest => rw [hr] at h; cases h
      | error e =>
        rw [hr] at h; cases h
        obtain ⟨k, hk, hf, hlt⟩ := ih hr
        refine ⟨k + 1, by omega, by rw [← hf]; congr 1; omega, fun i hi' => ?_⟩
        cases i with
        | zero => exact ⟨o, ho⟩
        | succ i =>
          obtain ⟨o', ho'⟩ := hlt i (by omega)
          exact ⟨o', by rw [← ho']; congr 1; omega⟩

/-- A pass that answers has computed every pixel of the span, and every column is as the pass writes it. -/
theorem paintChecked_ok {w : Nat} {f : Nat → Except Nat (Option Pixel)} {lo hi : Nat} {row row' : Row}
    (h : paintChecked w f lo hi row = .ok row') :
    row'.length = w ∧
      ∀ x, x < w → ∃ o, spanPixel f lo hi x = .ok o ∧ rowFind row' x = fbWrite (rowFind row x) o := by
  simpa using paintCheckedFrom_ok h

/-- A pass that faults does so in the first column of its span whose pixel cannot be computed (R139). -/
theorem paintChecked_error {w : Nat} {f : Nat → Except Nat (Option Pixel)} {lo hi : Nat} {row : Row} {a : Nat}
    (h : paintChecked w f lo hi row = .error a) :
    ∃ k, lo ≤ k ∧ k < hi ∧ f k = .error a ∧ ∀ i, lo ≤ i → i < k → ∃ o, f i = .ok o := by
  obtain ⟨k, -, hk, hlt⟩ := paintCheckedFrom_error h
  simp only [spanPixel, Nat.zero_add] at hk hlt
  split at hk
  · next hs =>
    rw [inSpan_iff] at hs
    refine ⟨k, hs.1, hs.2, hk, fun i h1 h2 => ?_⟩
    have := hlt i h2
    rwa [if_pos (inSpan_iff.mpr ⟨h1, h2.trans hs.2⟩)] at this
  · cases hk

/-- A pass whose every pixel in the span can be computed answers. -/
theorem paintChecked_total {w : Nat} {f : Nat → Except Nat (Option Pixel)} {lo hi : Nat} (row : Row)
    (h : ∀ x, lo ≤ x → x < hi → ∃ o, f x = .ok o) : ∃ row', paintChecked w f lo hi row = .ok row' := by
  cases hr : paintChecked w f lo hi row with
  | ok row' => exact ⟨row', rfl⟩
  | error a =>
    obtain ⟨k, h1, h2, hk, -⟩ := paintChecked_error hr
    obtain ⟨o, ho⟩ := h k h1 h2
    rw [ho] at hk; cases hk

/-! ### The total passes of composition -/

/-- `BorderStrips` (R115): border colour outside the window, everything inside as before. -/
theorem borderStrips_find {w : Nat} (b : Nibble) (wl wr : Nat) (row : Row) {x : Nat} (h : x < w) :
    rowFind (borderStrips w b wl wr row) x =
      if wl ≤ x ∧ x < wr then rowFind row x else some (toPixel b) := by
  unfold borderStrips
  rw [paint_find _ _ _ _ h, paint_find _ _ _ _ h]
  by_cases h1 : x < wl <;> by_cases h2 : wr ≤ x <;> simp [inSpan, h, h1, h2]

/-- `FillBorderRow` (R116): every column is the border colour. -/
theorem fillBorderRow_find {w : Nat} (b : Nibble) (row : Row) {x : Nat} (h : x < w) :
    rowFind (fillBorderRow w b row) x = some (toPixel b) := by
  unfold fillBorderRow
  rw [paint_find _ _ _ _ h]
  simp [inSpan, h]

/-- A draw writes its own columns and leaves the others (R117). -/
theorem paintDraw_find {w : Nat} (d : Draw) (row : Row) {x : Nat} (h : x < w) :
    rowFind (paintDraw w d row) x = fbWrite (rowFind row x) (drawPixel d x) := by
  unfold paintDraw
  rw [paint_find _ _ _ _ h]
  simp [inSpan, h]

/-- Every column of a row cut short holds its free value (U4). -/
theorem cutRow_find {cycle w r x : Nat} (h : x < w) :
    rowFind (cutRow cycle w r) x = some (BitVec.ofNat 5 (Config.cutPixel cycle r x).val) := by
  unfold cutRow
  rw [paint_find _ _ _ _ h]
  simp [inSpan, h]

@[simp] theorem cutRow_length (cycle w r : Nat) : (cutRow cycle w r).length = w := paint_length ..

end Sys2Proof.Machine
end

