-- ==== Sys2Proof/Laws/PerInstr.lean ====
section
/-! SUPPORT. The statement made per command: its encoding matches the table row of its operation code (R61, R63). -/

/-- The encoded command matches the opcode-table row that has its operation code. -/
def Sys2Proof.Laws.EncodesRow.Statement (i : Sys2Proof.Instr) : Prop :=
  ∃ row ∈ Sys2Proof.opcodeTable, row.op = Sys2Proof.opcodeOf i ∧
    Sys2Proof.rowMatches row (Sys2Proof.encode i) = true

namespace Sys2Proof.Laws.EncodesRow

/-- The table has 14 rows (R63). -/
theorem table_length : 14 = opcodeTable.length := rfl

/-- The row at a position of the table matches the command once the operand is clear under the row's mask. -/
theorem of_row {i : Instr} (k : Fin 14) (m : BitVec 48)
    (hop : (opcodeTable.get (k.cast table_length)).op = opcodeOf i) (hmask : (opcodeTable.get (k.cast table_length)).mask = 0xFFFF#16 ++ m)
    (hpat : (opcodeTable.get (k.cast table_length)).pattern = (opcodeTable.get (k.cast table_length)).op ++ 0#8 ++ 0#48) (harg : argOf i &&& m = 0) :
    Statement i := by
  refine ⟨opcodeTable.get (k.cast table_length), List.get_mem _ _, hop, ?_⟩
  simp only [rowMatches, encode, hmask, hpat, hop, beq_iff_eq]
  exact masked_word _ _ _ harg

theorem setAddr (c v b : Addr) : Statement (.setAddr c v b) :=
  of_row 0 0 (by rfl) (by decide) (by decide) (by simp)

theorem setMode (b e m : BitVec 1) : Statement (.setMode b e m) :=
  of_row 1 0xFFFFFFFFFFF8#48 (by rfl) (by decide) (by decide) (small_masked _ _ (by decide))

theorem term : Statement .term :=
  of_row 2 0xFFFFFFFFFFFF#48 (by rfl) (by decide) (by decide) (by decide)

theorem getLine : Statement .getLine :=
  of_row 3 0xFFFFFFFFFFFF#48 (by rfl) (by decide) (by decide) (by decide)

theorem ready : Statement .ready :=
  of_row 4 0xFFFFFFFFFFFF#48 (by rfl) (by decide) (by decide) (by decide)

theorem wrBorder (c : Nibble) : Statement (.wrBorder c) :=
  of_row 5 0xFFFFFFFFFFF0#48 (by rfl) (by decide) (by decide) (small_masked _ _ (by decide))

theorem wrRaster (t : LineNo) : Statement (.wrRaster t) :=
  of_row 6 0xFFFFFFFFFE00#48 (by rfl) (by decide) (by decide) (small_masked _ _ (by decide))

theorem rdRaster : Statement .rdRaster :=
  of_row 7 0xFFFFFFFFFFFF#48 (by rfl) (by decide) (by decide) (by decide)

theorem wrDen (v : BitVec 1) : Statement (.wrDen v) :=
  of_row 8 0xFFFFFFFFFFFE#48 (by rfl) (by decide) (by decide) (small_masked _ _ (by decide))

theorem wrVwide (v : BitVec 1) : Statement (.wrVwide v) :=
  of_row 9 0xFFFFFFFFFFFE#48 (by rfl) (by decide) (by decide) (small_masked _ _ (by decide))

theorem wrHwide (v : BitVec 1) : Statement (.wrHwide v) :=
  of_row 10 0xFFFFFFFFFFFE#48 (by rfl) (by decide) (by decide) (small_masked _ _ (by decide))

theorem wrYscroll (v : BitVec 3) : Statement (.wrYscroll v) :=
  of_row 11 0xFFFFFFFFFFF8#48 (by rfl) (by decide) (by decide) (small_masked _ _ (by decide))

theorem wrXscroll (v : BitVec 3) : Statement (.wrXscroll v) :=
  of_row 12 0xFFFFFFFFFFF8#48 (by rfl) (by decide) (by decide) (small_masked _ _ (by decide))

theorem wrBg (i : BitVec 2) (c : Nibble) : Statement (.wrBg i c) :=
  of_row 13 0xFFFFFFFFFFC0#48 (by rfl) (by decide) (by decide) (small_masked _ _ (by decide))

end Sys2Proof.Laws.EncodesRow
end

