-- ==== Sys2Proof/Laws/Rasterers.lean ====
section
/-! SUPPORT. What the pixel functions depend on, and when their reads stay inside memory (R42, R131, R153). -/

namespace Sys2Proof.Machine

/-- A read depends on the memories, the writes of the interval and the cycle count only. -/
theorem memRead_congr {s u : State} (he : s.env = u.env) (hc : s.seq.cycle = u.seq.cycle) (id : ReadId) (a : Nat) :
    memRead s id a = memRead u id a := by simp only [memRead, memOracle, he, hc]

theorem colorRead_congr {s u : State} (he : s.env = u.env) (hc : s.seq.cycle = u.seq.cycle) (id : ReadId) (n : Nat) :
    colorRead s id n = colorRead u id n := by simp only [colorRead, he, hc]

/-- `Back` depends on the snapshot and on what its reads answer. -/
theorem back_congr {s u : State} (he : s.env = u.env) (hc : s.seq.cycle = u.seq.cycle) (mode : ModeVariant)
    (snap : Snapshot) (r c : Nat) : back s mode snap r c = back u mode snap r c := by
  cases mode <;> simp only [back, backTextExtended, backBitmapNormal, fetchVM, memRead_congr he hc]

/-- `Fore` depends on the snapshot and on what its reads answer. -/
theorem fore_congr {s u : State} (he : s.env = u.env) (hc : s.seq.cycle = u.seq.cycle) (mode : ModeVariant)
    (snap : Snapshot) (r c : Nat) : fore s mode snap r c = fore u mode snap r c := by
  cases mode <;>
    simp only [fore, foreTextNormal, foreTextMulti, foreTextExtended, foreBitmapNormal, foreBitmapMulti, fetchVM,
      fetchCR, fetchCH, fetchBM, memRead_congr he hc, colorRead_congr he hc]

theorem memRead_of_lt {s : State} {a : Nat} (id : ReadId) (h : a < Config.memSize) :
    memRead s id a = .ok (memOracle s id a) := by simp [memRead, Nat.not_le.mpr h]

theorem memRead_of_ge {s : State} {a : Nat} (id : ReadId) (h : Config.memSize ≤ a) :
    memRead s id a = .error a := by simp [memRead, h]

theorem cellOf_lt {r c : Nat} (hr : r < Config.contentH) (hc : c < Config.contentW) : cellOf r c < 1000 := by
  unfold cellOf
  simp only [Config.contentH, Config.contentW, Config.cell, Config.cols] at *
  omega

/-- An address with its low 13 bits zero is a multiple of 8192. -/
theorem aligned_toNat {a : Addr} (h : a.extractLsb' 0 13 = 0) : a.toNat % 8192 = 0 := by
  have := congrArg BitVec.toNat h
  simpa [BitVec.extractLsb'_toNat] using this

/-- A bitmap read stays inside memory (R131, R153). -/
theorem bitmap_lt {a : Addr} {n cy : Nat} (h : a.extractLsb' 0 13 = 0) (hn : n < 1000) (hy : cy < 8) :
    a.toNat + 8 * n + cy < Config.memSize := by
  have := aligned_toNat h
  have := a.isLt
  simp only [Config.memSize]
  omega

/-- The glyph code a text mode reads for the video byte `v`; the bitmap modes read no glyph (R132 to R136). -/
def glyphCode (mode : ModeVariant) (v : Byte) : Option Nat :=
  match mode with
  | .textNormal => some v.toNat
  | .textMulti => some v.toNat
  | .textExtended => some (v.toNat % 64)
  | .bitmapNormal => none
  | .bitmapMulti => none

/-- `Back` answers when its video-matrix address lies in memory. -/
theorem back_total {s : State} (mode : ModeVariant) {snap : Snapshot} {r c : Nat}
    (hv : snap.videoAddr.toNat + cellOf r c < Config.memSize) : ∃ b, back s mode snap r c = .ok b := by
  cases mode <;>
    simp [back, backTextNormal, backTextMulti, backTextExtended, backBitmapNormal, backBitmapMulti, fetchVM,
      memRead_of_lt _ hv, bind, Except.bind, pure, Except.pure]

/-- `Fore` answers when its video-matrix and glyph addresses lie in memory. -/
theorem fore_total {s : State} {mode : ModeVariant} {snap : Snapshot} {r c : Nat}
    (hv : snap.videoAddr.toNat + cellOf r c < Config.memSize)
    (hg : ∀ code, glyphCode mode (memOracle s ⟨true, c, .vm⟩ (snap.videoAddr.toNat + cellOf r c)) = some code →
      snap.charAddr.toNat + 8 * code + r % 8 < Config.memSize)
    (hb : snap.bitmapAddr.extractLsb' 0 13 = 0) (hn : cellOf r c < 1000) : ∃ f, fore s mode snap r c = .ok f := by
  have hbm := bitmap_lt hb hn (Nat.mod_lt r (by decide : 0 < 8))
  cases mode
  case bitmapNormal | bitmapMulti =>
    simp [fore, foreBitmapNormal, foreBitmapMulti, fetchVM, fetchBM, memRead_of_lt _ hv, memRead_of_lt _ hbm, bind,
      Except.bind, pure, Except.pure]
  all_goals
    have := hg _ rfl
    simp [fore, foreTextNormal, foreTextMulti, foreTextExtended, fetchVM, fetchCH, memRead_of_lt _ hv,
      memRead_of_lt _ this, bind, Except.bind, pure, Except.pure]

/-- `Back` fails only on its video-matrix address. -/
theorem back_error {s : State} {mode : ModeVariant} {snap : Snapshot} {r c a : Nat}
    (h : back s mode snap r c = .error a) :
    Config.memSize ≤ snap.videoAddr.toNat + cellOf r c ∧ a = snap.videoAddr.toNat + cellOf r c := by
  by_cases hv : snap.videoAddr.toNat + cellOf r c < Config.memSize
  · obtain ⟨b, hb⟩ := back_total (s := s) mode hv
    rw [hb] at h; cases h
  · refine ⟨by omega, ?_⟩
    cases mode <;>
      simp_all [back, backTextNormal, backTextMulti, backTextExtended, backBitmapNormal, backBitmapMulti, fetchVM,
        memRead_of_ge _ (Nat.not_lt.mp hv), bind, Except.bind]

/-- `Fore` fails only on its video-matrix address or on its glyph address; the address it answers lies outside
memory. -/
theorem fore_error {s : State} {mode : ModeVariant} {snap : Snapshot} {r c a : Nat}
    (h : fore s mode snap r c = .error a) (hb : snap.bitmapAddr.extractLsb' 0 13 = 0) (hn : cellOf r c < 1000) :
    Config.memSize ≤ a ∧ (a = snap.videoAddr.toNat + cellOf r c ∨
      ∃ code, glyphCode mode (memOracle s ⟨true, c, .vm⟩ (snap.videoAddr.toNat + cellOf r c)) = some code ∧
        a = snap.charAddr.toNat + 8 * code + r % 8) := by
  by_cases hv : snap.videoAddr.toNat + cellOf r c < Config.memSize
  · by_cases hg : ∀ code, glyphCode mode (memOracle s ⟨true, c, .vm⟩ (snap.videoAddr.toNat + cellOf r c)) = some code →
        snap.charAddr.toNat + 8 * code + r % 8 < Config.memSize
    · obtain ⟨f, hf⟩ := fore_total hv hg hb hn
      rw [hf] at h; cases h
    · simp only [not_forall, Nat.not_lt] at hg
      obtain ⟨code, hc, hge⟩ := hg
      refine ⟨?_, .inr ⟨code, hc, ?_⟩⟩ <;>
        cases mode <;>
        simp only [glyphCode, Option.some.injEq, reduceCtorEq] at hc <;>
        simp_all [fore, foreTextNormal, foreTextMulti, foreTextExtended, fetchVM, fetchCH, memRead_of_lt _ hv,
          memRead_of_ge _ hge, bind, Except.bind]
  · have hge := Nat.not_lt.mp hv
    suffices a = snap.videoAddr.toNat + cellOf r c from ⟨this ▸ hge, .inl this⟩
    cases mode <;>
      simp_all [fore, foreTextNormal, foreTextMulti, foreTextExtended, foreBitmapNormal, foreBitmapMulti, fetchVM,
        memRead_of_ge _ hge, bind, Except.bind]

/-- Whatever the addresses, the address `Fore` fails on lies outside memory (R42). -/
theorem fore_error_ge {s : State} {mode : ModeVariant} {snap : Snapshot} {r c a : Nat}
    (h : fore s mode snap r c = .error a) : Config.memSize ≤ a := by
  cases mode <;>
    simp only [fore, foreTextNormal, foreTextMulti, foreTextExtended, foreBitmapNormal, foreBitmapMulti, fetchVM,
      fetchCH, fetchBM, bind, Except.bind, pure, Except.pure] at h <;>
    split at h
  all_goals first
    | (next e he => cases h; obtain ⟨h1, rfl⟩ := memRead_error he; exact h1)
    | (split at h
       · next e he => cases h; obtain ⟨h1, rfl⟩ := memRead_error he; exact h1
       · cases h)

end Sys2Proof.Machine
end

