-- ==== Sys2Proof/Laws/Render.lean ====
section
/-! SUPPORT. What rendering a line can do: which pixels it writes and with what, which events it emits, and that it
changes nothing else. -/

namespace Sys2Proof.Machine

/-! ### Span bounds (R108) -/

theorem hExtent_bounds (cfg : Config) (h : BitVec 1) :
    cfg.geo.contentX0 ≤ (hExtent cfg.geo h).1 ∧ (hExtent cfg.geo h).1 < (hExtent cfg.geo h).2 ∧
      (hExtent cfg.geo h).2 ≤ cfg.geo.contentX0 + Config.contentW ∧ (hExtent cfg.geo h).2 ≤ cfg.geo.frameW := by
  have := cfg.ok.2.2.2.2.1
  unfold hExtent
  simp only [Config.contentW, Config.hNarrowL, Config.hNarrowR] at this ⊢
  split <;> simp only <;> omega

theorem vExtent_bounds (cfg : Config) (v : BitVec 1) :
    cfg.geo.contentY0 ≤ (vExtent cfg.geo v).1 ∧ (vExtent cfg.geo v).1 < (vExtent cfg.geo v).2 ∧
      (vExtent cfg.geo v).2 ≤ cfg.geo.contentY0 + Config.contentH ∧ (vExtent cfg.geo v).2 ≤ cfg.geo.frameH := by
  have := cfg.ok.2.2.2.2.2
  unfold vExtent
  simp only [Config.contentH, Config.vNarrowT, Config.vNarrowB] at this ⊢
  split <;> simp only <;> omega

theorem visible_iff {g : Geometry} {l : Nat} : visible g l = true ↔ g.visFirst ≤ l ∧ l < g.visFirst + g.frameH := by
  simp [visible]

theorem inWindowRow_iff {g : Geometry} {snap : Snapshot} {R : Nat} :
    inWindowRow g snap R = true ↔
      (vExtent g snap.vwide).1 ≤ R ∧ R < (vExtent g snap.vwide).2 ∧ snap.den = 1#1 := by simp [inWindowRow]

/-- A visible line's row lies in the frame (R105). -/
theorem rowOf_lt {g : Geometry} {l : Nat} (h : visible g l = true) : rowOf g l < g.frameH ∧ g.visFirst + rowOf g l = l := by
  rw [visible_iff] at h
  unfold rowOf
  omega

/-! ### Rows stay sound, and painted pixels stay painted -/

@[simp] theorem toPixel_le (c : Nibble) : (toPixel c).toNat ≤ 15 := by
  have := c.isLt
  simp only [toPixel, BitVec.toNat_setWidth]
  omega

/-- A row is sound when it is short enough and every written pixel of it is an index 0 to `top`. -/
theorem rowSound_iff {top w : Nat} {row : Row} :
    rowSound top w row ↔ row.length ≤ w ∧ ∀ i v, rowFind row i = some v → v.toNat ≤ top := by
  refine and_congr_right fun _ => ⟨fun h i v hv => ?_, fun h o ho => ?_⟩
  · simp only [rowFind, Option.join_eq_some_iff] at hv
    have := h _ (List.mem_of_getElem? hv)
    simpa using this
  · cases o with
    | none => simp
    | some v =>
      obtain ⟨i, hi⟩ := List.mem_iff_getElem?.mp ho
      exact h i v (by simp [rowFind, hi])

/-- The new row holds, in each column, either an index 0 to `top` written over it or the old pixel. -/
def RowGrows (top w : Nat) (old new : Row) : Prop :=
  new.length ≤ max w old.length ∧
    ∀ i, rowFind new i = rowFind old i ∨ (∃ v, rowFind new i = some v ∧ v.toNat ≤ top) ∨
      (w ≤ i ∧ rowFind new i = none)

theorem RowGrows.mono {top top' w : Nat} {a b : Row} (h : RowGrows top w a b) (ht : top ≤ top') : RowGrows top' w a b :=
  ⟨h.1, fun i => (h.2 i).imp_right (.imp_left fun ⟨v, hv, hle⟩ => ⟨v, hv, hle.trans ht⟩)⟩

theorem RowGrows.trans {top w : Nat} {a b c : Row} (h1 : RowGrows top w a b) (h2 : RowGrows top w b c) :
    RowGrows top w a c := by
  refine ⟨by have := h1.1; have := h2.1; omega, fun i => ?_⟩
  rcases h2.2 i with h | h
  · rw [h]; exact h1.2 i
  · exact .inr h

theorem RowGrows.sound {top w : Nat} {a b : Row} (h : RowGrows top w a b) (ha : rowSound top w a) :
    rowSound top w b := by
  rw [rowSound_iff] at ha ⊢
  refine ⟨by have := h.1; omega, fun i v hv => ?_⟩
  rcases h.2 i with h | ⟨u, hu, hle⟩ | ⟨-, hn⟩
  · exact ha.2 i v (h ▸ hv)
  · rw [hu] at hv; cases hv; exact hle
  · rw [hn] at hv; cases hv

theorem RowGrows.complete {top w : Nat} {a b : Row} (h : RowGrows top w a b) (ha : rowComplete w a) :
    rowComplete w b := by
  intro x hx
  rcases h.2 x with h | ⟨u, hu, -⟩ | ⟨hw, -⟩
  · rw [h]; exact ha x hx
  · rw [hu]; rfl
  · omega

/-- The pixel function writes indices 0 to 15 only. -/
def PaletteOk (g : Nat → Option Pixel) : Prop := ∀ x v, g x = some v → v.toNat ≤ 15

theorem paint_grows {w : Nat} {g : Nat → Option Pixel} (hg : PaletteOk g) (lo hi : Nat) (row : Row) :
    RowGrows 15 w row (paint w g lo hi row) := by
  refine ⟨by simp, fun i => ?_⟩
  by_cases hi' : i < w
  · rw [paint_find _ _ _ _ hi']
    split
    · cases h : g i with
      | none => exact .inl rfl
      | some v => exact .inr (.inl ⟨v, rfl, hg i v h⟩)
    · exact .inl rfl
  · exact .inr (.inr ⟨by omega, rowFind_ge (by simp; omega)⟩)

theorem PaletteOk.const (b : Nibble) : PaletteOk (fun _ => some (toPixel b)) := by
  intro x v h; cases h; exact toPixel_le b

theorem PaletteOk.draw (d : Draw) : PaletteOk (drawPixel d) := by
  intro x v h
  simp only [drawPixel, Option.map_eq_some_iff] at h
  obtain ⟨c, -, rfl⟩ := h
  exact toPixel_le c

theorem paintDraw_grows (w : Nat) (d : Draw) (row : Row) : RowGrows 15 w row (paintDraw w d row) :=
  paint_grows (.draw d) 0 w row

theorem borderStrips_grows (w : Nat) (b : Nibble) (wl wr : Nat) (row : Row) :
    RowGrows 15 w row (borderStrips w b wl wr row) := (paint_grows (.const b) 0 wl row).trans (paint_grows (.const b) wr w _)

theorem fillBorderRow_grows (w : Nat) (b : Nibble) (row : Row) : RowGrows 15 w row (fillBorderRow w b row) :=
  paint_grows (.const b) 0 w row

/-- The memory-reading pixel function answers indices 0 to 15 only. -/
def CheckedPaletteOk (f : Nat → Except Nat (Option Pixel)) : Prop := ∀ x v, f x = .ok (some v) → v.toNat ≤ 15

theorem CheckedPaletteOk.span {f : Nat → Except Nat (Option Pixel)} (hf : CheckedPaletteOk f) (lo hi : Nat) :
    CheckedPaletteOk (spanPixel f lo hi) := by
  intro x v h
  unfold spanPixel at h
  split at h
  · exact hf x v h
  · cases h

theorem fbWrite_grows {old o : Option Pixel} (ho : ∀ v, o = some v → v.toNat ≤ 15) :
    fbWrite old o = old ∨ ∃ v, fbWrite old o = some v ∧ v.toNat ≤ 15 := by
  cases o with
  | none => exact .inl rfl
  | some v => exact .inr ⟨v, rfl, ho v rfl⟩

theorem paintChecked_grows_ok {w : Nat} {f : Nat → Except Nat (Option Pixel)} (hf : CheckedPaletteOk f) {lo hi : Nat}
    {row row' : Row} (h : paintChecked w f lo hi row = .ok row') : RowGrows 15 w row row' := by
  obtain ⟨hl, hp⟩ := paintChecked_ok h
  refine ⟨by omega, fun i => ?_⟩
  by_cases hi' : i < w
  · obtain ⟨o, ho, hr⟩ := hp i hi'
    rw [hr]
    exact (fbWrite_grows fun v hv => hf.span lo hi i v (hv ▸ ho)).imp_right .inl
  · exact .inr (.inr ⟨by omega, rowFind_ge (by omega)⟩)

/-- A row cut short holds indices 0 to 17 (R30, U4). -/
theorem cutRow_grows (cycle w r : Nat) (row : Row) : RowGrows 17 w row (cutRow cycle w r) := by
  refine ⟨by simp, fun i => ?_⟩
  by_cases hi : i < w
  · have := (Config.cutPixel cycle r i).isLt
    exact .inr (.inl ⟨_, cutRow_find hi, by rw [BitVec.toNat_ofNat]; omega⟩)
  · exact .inr (.inr ⟨by omega, rowFind_ge (by simp; omega)⟩)

theorem backPixel_palette (s : State) (mode : ModeVariant) (snap : Snapshot) (r : Nat) :
    CheckedPaletteOk (backPixel s mode snap r) := by
  intro x v h
  unfold backPixel at h
  split at h <;> cases h
  exact toPixel_le _

theorem forePixel_palette (s : State) (mode : ModeVariant) (snap : Snapshot) (r : Nat) :
    CheckedPaletteOk (forePixel s mode snap r) := by
  intro x v h
  unfold forePixel at h
  split at h
  · cases h
  · simp only [Except.ok.injEq, Option.map_eq_some_iff] at h
    obtain ⟨c, -, rfl⟩ := h
    exact toPixel_le c

/-- `Backfill` writes every column of its span (R111). -/
theorem backPixel_some {s : State} {mode : ModeVariant} {snap : Snapshot} {r x : Nat} {o : Option Pixel}
    (h : backPixel s mode snap r x = .ok o) : ∃ b, back s mode snap r (x - s.cfg.geo.contentX0) = .ok b ∧
      o = some (toPixel b) := by
  unfold backPixel at h
  split at h
  · cases h
  · next b hb => cases h; exact ⟨b, hb, rfl⟩

theorem forePixel_ok {s : State} {mode : ModeVariant} {snap : Snapshot} {r x : Nat} {o : Option Pixel}
    (h : forePixel s mode snap r x = .ok o) : ∃ f, fore s mode snap r (x - s.cfg.geo.contentX0) = .ok f ∧
      o = f.map toPixel := by
  unfold forePixel at h
  split at h
  · cases h
  · next f hf => cases h; exact ⟨f, hf, rfl⟩

/-! ### The sprite calls (R112, R114) -/

@[simp] theorem callSpriteBack_env (snap : Snapshot) (R : Nat) (s : State) :
    (callSpriteBack snap R s).env = { s.env with draws := s.env.draws.tail } := rfl

@[simp] theorem callSpriteFront_env (R : Nat) (s : State) :
    (callSpriteFront R s).env = { s.env with draws := s.env.draws.tail } := rfl

/-- What the two calls of an in-window row leave: two events, two draws used up, everything else as it was. -/
def afterSprites (snap : Snapshot) (R : Nat) (s : State) : State := callSpriteFront R (callSpriteBack snap R s)

@[simp] theorem afterSprites_cfg (snap : Snapshot) (R : Nat) (s : State) : (afterSprites snap R s).cfg = s.cfg := rfl
@[simp] theorem callSpriteBack_cfg (snap : Snapshot) (R : Nat) (s : State) : (callSpriteBack snap R s).cfg = s.cfg := rfl
@[simp] theorem afterSprites_seq (snap : Snapshot) (R : Nat) (s : State) : (afterSprites snap R s).seq = s.seq := rfl
@[simp] theorem callSpriteBack_seq (snap : Snapshot) (R : Nat) (s : State) : (callSpriteBack snap R s).seq = s.seq := rfl
@[simp] theorem afterSprites_raster (snap : Snapshot) (R : Nat) (s : State) : (afterSprites snap R s).raster = s.raster := rfl
@[simp] theorem callSpriteBack_raster (snap : Snapshot) (R : Nat) (s : State) : (callSpriteBack snap R s).raster = s.raster := rfl
@[simp] theorem afterSprites_ctl (snap : Snapshot) (R : Nat) (s : State) : (afterSprites snap R s).ctl = s.ctl := rfl
@[simp] theorem callSpriteBack_ctl (snap : Snapshot) (R : Nat) (s : State) : (callSpriteBack snap R s).ctl = s.ctl := rfl
@[simp] theorem afterSprites_regs (snap : Snapshot) (R : Nat) (s : State) : (afterSprites snap R s).regs = s.regs := rfl
@[simp] theorem callSpriteBack_regs (snap : Snapshot) (R : Nat) (s : State) : (callSpriteBack snap R s).regs = s.regs := rfl
@[simp] theorem afterSprites_fb (snap : Snapshot) (R : Nat) (s : State) : (afterSprites snap R s).fb = s.fb := rfl
@[simp] theorem callSpriteBack_fb (snap : Snapshot) (R : Nat) (s : State) : (callSpriteBack snap R s).fb = s.fb := rfl
@[simp] theorem callSpriteBack_out (snap : Snapshot) (R : Nat) (s : State) :
    (callSpriteBack snap R s).out =
      { s.out with trace := s.out.trace ++ [.spriteBack snap.videoAddr R (spriteCoord s.cfg.geo R)] } := rfl
@[simp] theorem afterSprites_out (snap : Snapshot) (R : Nat) (s : State) :
    (afterSprites snap R s).out =
      { s.out with trace := s.out.trace ++ [.spriteBack snap.videoAddr R (spriteCoord s.cfg.geo R)] ++
          [.spriteFront R (spriteCoord s.cfg.geo R)] } := rfl
@[simp] theorem afterSprites_env (snap : Snapshot) (R : Nat) (s : State) :
    (afterSprites snap R s).env = { s.env with draws := s.env.draws.tail.tail } := rfl

/-- The second draw of the row. -/
def secondDraw (e : Environment) : Draw := e.draws.tail.headD []

/-! ### A composed row (R110, R120) -/

/-- The final pixel of column `x` of an in-window row (R120), from the front draw, the content, the back draw and the
background. -/
def finalPixel (front content backDraw : Option Pixel) (background : Pixel) : Pixel :=
  ((front.or content).or backDraw).getD background

/-- A completed in-window row: both passes answered, and every pixel is as R120 says. -/
theorem composeWindowRow_ok {R : Nat} {snap : Snapshot} {mode : ModeVariant} {wl wr : Nat} {s t : State}
    (h : composeWindowRow R snap mode wl wr s = .ok t) :
    ∃ row, t = (afterSprites snap R s).setRow R row ∧ row.length = s.cfg.geo.frameW ∧
      RowGrows 15 s.cfg.geo.frameW (fbRow s.fb R) row ∧
      ∀ x, x < s.cfg.geo.frameW →
        if wl ≤ x ∧ x < wr then
          ∃ b f, back s mode snap (R - s.cfg.geo.contentY0) (x - s.cfg.geo.contentX0) = .ok b ∧
            fore s mode snap (R - s.cfg.geo.contentY0) (x - s.cfg.geo.contentX0) = .ok f ∧
            rowFind row x = some (finalPixel (drawPixel (secondDraw s.env) x) (f.map toPixel)
              (drawPixel (nextDraw s.env) x) (toPixel b))
        else rowFind row x = some (toPixel snap.border) := by
  unfold composeWindowRow at h
  simp only at h
  split at h
  · cases h
  · next row1 h1 =>
    split at h
    · cases h
    · next row3 h3 =>
      cases h
      obtain ⟨-, p1⟩ := paintChecked_ok h1
      obtain ⟨-, p3⟩ := paintChecked_ok h3
      refine ⟨_, rfl, paint_length .., ?_, fun x hx => ?_⟩
      · exact (((paintChecked_grows_ok (backPixel_palette _ _ _ _) h1).trans (paintDraw_grows ..)).trans
          (paintChecked_grows_ok (forePixel_palette _ _ _ _) h3)).trans
          ((paintDraw_grows ..).trans (borderStrips_grows ..))
      · rw [borderStrips_find _ _ _ _ hx]
        split
        · next hs =>
          obtain ⟨o1, q1, e1⟩ := p1 x hx
          obtain ⟨o3, q3, e3⟩ := p3 x hx
          rw [spanPixel, if_pos (inSpan_iff.mpr hs)] at q1 q3
          obtain ⟨b, hb, rfl⟩ := backPixel_some q1
          obtain ⟨f, hf, rfl⟩ := forePixel_ok q3
          refine ⟨b, f, hb, hf, ?_⟩
          rw [paintDraw_find _ _ hx, e3, paintDraw_find _ _ hx, e1]
          simp only [fbWrite_eq_or, Option.some_or, callSpriteBack_env, nextDraw, secondDraw, finalPixel]
          cases drawPixel (s.env.draws.tail.headD []) x <;> cases f <;>
            cases drawPixel (s.env.draws.headD []) x <;> rfl
        · rfl

theorem backPixel_error {s : State} {mode : ModeVariant} {snap : Snapshot} {r x a : Nat}
    (h : backPixel s mode snap r x = .error a) : back s mode snap r (x - s.cfg.geo.contentX0) = .error a := by
  unfold backPixel at h
  split at h <;> cases h
  assumption

theorem forePixel_error {s : State} {mode : ModeVariant} {snap : Snapshot} {r x a : Nat}
    (h : forePixel s mode snap r x = .error a) : fore s mode snap r (x - s.cfg.geo.contentX0) = .error a := by
  unfold forePixel at h
  split at h <;> cases h
  assumption

/-- A faulting in-window row: `Backfill` or `RasterContent` met an address out of range, in the column `k` of the
window and before it in none (R139); the row holds free values, and nothing else has changed but the back call's event and draw (R151, U4). -/
theorem composeWindowRow_error {R : Nat} {snap : Snapshot} {mode : ModeVariant} {wl wr a : Nat} {s t : State}
    (h : composeWindowRow R snap mode wl wr s = .error (a, t)) :
    ∃ k, wl ≤ k ∧ k < wr ∧
      ((t = s.setRow R (cutRow s.seq.cycle s.cfg.geo.frameW R) ∧
          back s mode snap (R - s.cfg.geo.contentY0) (k - s.cfg.geo.contentX0) = .error a ∧
          ∀ y, wl ≤ y → y < k →
            ∃ b, back s mode snap (R - s.cfg.geo.contentY0) (y - s.cfg.geo.contentX0) = .ok b) ∨
        (t = (callSpriteBack snap R s).setRow R (cutRow s.seq.cycle s.cfg.geo.frameW R) ∧
          fore s mode snap (R - s.cfg.geo.contentY0) (k - s.cfg.geo.contentX0) = .error a ∧
          (∀ y, wl ≤ y → y < min wr s.cfg.geo.frameW →
            ∃ b, back s mode snap (R - s.cfg.geo.contentY0) (y - s.cfg.geo.contentX0) = .ok b) ∧
          ∀ y, wl ≤ y → y < k →
            ∃ f, fore s mode snap (R - s.cfg.geo.contentY0) (y - s.cfg.geo.contentX0) = .ok f)) := by
  unfold composeWindowRow at h
  simp only at h
  split at h
  · next h1 =>
    cases h
    obtain ⟨k, hl, hr, hk, hlt⟩ := paintChecked_error h1
    refine ⟨k, hl, hr, .inl ⟨rfl, backPixel_error hk, fun y h2 h3 => ?_⟩⟩
    obtain ⟨o, ho⟩ := hlt y h2 h3
    obtain ⟨b, hb, -⟩ := backPixel_some ho
    exact ⟨b, hb⟩
  · next row1 h1 =>
    split at h
    · next h3 =>
      cases h
      obtain ⟨k, hl, hr, hk, hlt⟩ := paintChecked_error h3
      refine ⟨k, hl, hr, .inr ⟨rfl, forePixel_error hk, fun y h4 h5 => ?_, fun y h4 h5 => ?_⟩⟩
      · obtain ⟨o, ho, -⟩ := (paintChecked_ok h1).2 y (by omega)
        rw [spanPixel, if_pos (inSpan_iff.mpr ⟨h4, by omega⟩)] at ho
        obtain ⟨b, hb, -⟩ := backPixel_some ho
        exact ⟨b, hb⟩
      · obtain ⟨o, ho⟩ := hlt y h4 h5
        obtain ⟨f, hf, -⟩ := forePixel_ok ho
        exact ⟨f, hf⟩
    · cases h

/-- An in-window row is completed when every covered pixel can be computed. -/
theorem composeWindowRow_total {R : Nat} {snap : Snapshot} {mode : ModeVariant} {wl wr : Nat} {s : State}
    (hb : ∀ x, wl ≤ x → x < wr →
      ∃ b, back s mode snap (R - s.cfg.geo.contentY0) (x - s.cfg.geo.contentX0) = .ok b)
    (hf : ∀ x, wl ≤ x → x < wr →
      ∃ f, fore s mode snap (R - s.cfg.geo.contentY0) (x - s.cfg.geo.contentX0) = .ok f) :
    ∃ t, composeWindowRow R snap mode wl wr s = .ok t := by
  cases h : composeWindowRow R snap mode wl wr s with
  | ok t => exact ⟨t, rfl⟩
  | error e =>
    obtain ⟨a, t⟩ := e
    obtain ⟨k, h1, h2, ⟨-, hk, -⟩ | ⟨-, hk, -⟩⟩ := composeWindowRow_error h
    · obtain ⟨b, hb⟩ := hb k h1 h2; rw [hb] at hk; cases hk
    · obtain ⟨f, hf⟩ := hf k h1 h2; rw [hf] at hk; cases hk

/-! ### A rendered line (R106) -/

/-- The state after the raster compare of the line (R107). -/
theorem rasterCompare_eq (snap : Snapshot) (s : State) :
    rasterCompare snap s = if s.seq.line = snap.rasterTarget then s.emit (.rasterIrq s.seq.line) else s := rfl

/-- The raster compare changes the trace only. -/
@[simp] theorem rasterCompare_seq (snap : Snapshot) (s : State) : (rasterCompare snap s).seq = s.seq := by
  unfold rasterCompare; split <;> rfl
@[simp] theorem rasterCompare_cfg (snap : Snapshot) (s : State) : (rasterCompare snap s).cfg = s.cfg := by
  unfold rasterCompare; split <;> rfl
@[simp] theorem rasterCompare_raster (snap : Snapshot) (s : State) : (rasterCompare snap s).raster = s.raster := by
  unfold rasterCompare; split <;> rfl
@[simp] theorem rasterCompare_ctl (snap : Snapshot) (s : State) : (rasterCompare snap s).ctl = s.ctl := by
  unfold rasterCompare; split <;> rfl
@[simp] theorem rasterCompare_regs (snap : Snapshot) (s : State) : (rasterCompare snap s).regs = s.regs := by
  unfold rasterCompare; split <;> rfl
@[simp] theorem rasterCompare_fb (snap : Snapshot) (s : State) : (rasterCompare snap s).fb = s.fb := by
  unfold rasterCompare; split <;> rfl
@[simp] theorem rasterCompare_env (snap : Snapshot) (s : State) : (rasterCompare snap s).env = s.env := by
  unfold rasterCompare; split <;> rfl

/-- The compare runs on every line, since `IRQ_ON_INVISIBLE` is true (R106). -/
theorem renderLine_eq (snap : Snapshot) (mode : ModeVariant) (s : State) :
    renderLine snap mode s =
      if visible s.cfg.geo s.seq.line.toNat then renderRow s.seq.line.toNat snap mode (rasterCompare snap s)
      else .ok (rasterCompare snap s) := by
  simp [renderLine, Config.irqOnInvisible]

/-- What rendering line `S.line` can change: the row of the line, the trace and the pending draws; the pixels it writes
are indices 0 to `top`. -/
structure RenderFrame (top : Nat) (s t : State) : Prop where
  cfg : t.cfg = s.cfg
  seq : t.seq = s.seq
  raster : t.raster = s.raster
  ctl : t.ctl = s.ctl
  regs : t.regs = s.regs
  responses : t.out.responses = s.out.responses
  trace : ∃ es, t.out.trace = s.out.trace ++ es ∧ publishedFrames es = []
  mem : t.env.mem = s.env.mem
  color : t.env.color = s.env.color
  lineWrites : t.env.lineWrites = s.env.lineWrites
  inputs : t.env.inputs = s.env.inputs
  fb : t.fb = s.fb ∨
    visible s.cfg.geo s.seq.line.toNat = true ∧
      ∃ row, t.fb = fbSetRow s.fb (rowOf s.cfg.geo s.seq.line.toNat) row ∧
        RowGrows top s.cfg.geo.frameW (fbRow s.fb (rowOf s.cfg.geo s.seq.line.toNat)) row

theorem publishedFrames_append (a b : List Event) :
    publishedFrames (a ++ b) = publishedFrames a ++ publishedFrames b := List.filterMap_append ..

theorem RenderFrame.refl (top : Nat) (s : State) : RenderFrame top s s where
  cfg := rfl
  seq := rfl
  raster := rfl
  ctl := rfl
  regs := rfl
  responses := rfl
  trace := ⟨[], (List.append_nil _).symm, rfl⟩
  mem := rfl
  color := rfl
  lineWrites := rfl
  inputs := rfl
  fb := .inl rfl

/-- An event that publishes no frame keeps to the frame. -/
theorem RenderFrame.emit {top : Nat} {s t : State} (h : RenderFrame top s t) {e : Event} (he : publishedFrames [e] = []) :
    RenderFrame top s (t.emit e) :=
  { h with
    trace := by
      obtain ⟨es, h1, h2⟩ := h.trace
      exact ⟨es ++ [e], by simp [h1], by rw [publishedFrames_append, h2, he]; rfl⟩ }

theorem RenderFrame.dropDraw {top : Nat} {s t : State} (h : RenderFrame top s t) : RenderFrame top s t.dropDraw :=
  { h with }

/-- Writing the line's row keeps to the frame, if the row grows from what it was. -/
theorem RenderFrame.setRow {top : Nat} {s t : State} (h : RenderFrame top s t) (hfb : t.fb = s.fb)
    (hv : visible s.cfg.geo s.seq.line.toNat = true) {row : Row}
    (hg : RowGrows top s.cfg.geo.frameW (fbRow s.fb (rowOf s.cfg.geo s.seq.line.toNat)) row) :
    RenderFrame top s (t.setRow (rowOf s.cfg.geo s.seq.line.toNat) row) :=
  { h with fb := .inr ⟨hv, row, by rw [State.setRow_fb, hfb], hg⟩ }

theorem rasterCompare_frame (top : Nat) (snap : Snapshot) (s : State) : RenderFrame top s (rasterCompare snap s) := by
  unfold rasterCompare
  split
  · exact (RenderFrame.refl top s).emit rfl
  · exact .refl top s

theorem callSpriteBack_frame {top : Nat} {s t : State} (h : RenderFrame top s t) (snap : Snapshot) (R : Nat) :
    RenderFrame top s (callSpriteBack snap R t) := (h.emit rfl).dropDraw

theorem afterSprites_frame {top : Nat} {s t : State} (h : RenderFrame top s t) (snap : Snapshot) (R : Nat) :
    RenderFrame top s (afterSprites snap R t) := ((callSpriteBack_frame h snap R).emit rfl).dropDraw

/-- Rendering that completes keeps to its frame and writes indices 0 to 15 (R106, R119, R122). -/
theorem renderLine_frame_ok {snap : Snapshot} {mode : ModeVariant} {s t : State}
    (h : renderLine snap mode s = .ok t) : RenderFrame 15 s t := by
  have hrc := rasterCompare_frame 15 snap s
  rw [renderLine_eq] at h
  split at h
  · next hv =>
    simp only [renderRow, rasterCompare_cfg] at h
    split at h
    · obtain ⟨row, rfl, -, hg, -⟩ := composeWindowRow_ok h
      rw [rasterCompare_cfg, rasterCompare_fb] at hg
      exact (afterSprites_frame hrc ..).setRow (by simp) hv hg
    · cases h
      exact hrc.setRow (by simp) hv (by rw [rasterCompare_fb]; exact fillBorderRow_grows ..)
  · cases h; exact hrc

/-- Rendering that faults keeps to its frame too; the line's row then holds free values, indices 0 to 17 (R151, U4). -/
theorem renderLine_frame_error {snap : Snapshot} {mode : ModeVariant} {s t : State} {a : Nat}
    (h : renderLine snap mode s = .error (a, t)) : RenderFrame 17 s t := by
  have hrc := rasterCompare_frame 17 snap s
  rw [renderLine_eq] at h
  split at h
  · next hv =>
    simp only [renderRow, rasterCompare_cfg] at h
    split at h
    · obtain ⟨k, -, -, ⟨rfl, -⟩ | ⟨rfl, -⟩⟩ := composeWindowRow_error h
      · exact hrc.setRow (by simp) hv (by rw [rasterCompare_cfg]; exact cutRow_grows ..)
      · exact (callSpriteBack_frame hrc ..).setRow (by simp) hv (by rw [rasterCompare_cfg]; exact cutRow_grows ..)
    · cases h
  · cases h

/-- A rendered visible line leaves its whole row painted (R121). -/
theorem renderLine_complete {snap : Snapshot} {mode : ModeVariant} {s t : State} (h : renderLine snap mode s = .ok t)
    (hv : visible s.cfg.geo s.seq.line.toNat = true) :
    rowComplete s.cfg.geo.frameW (fbRow t.fb (rowOf s.cfg.geo s.seq.line.toNat)) := by
  simp only [renderLine_eq, hv, if_true, renderRow, rasterCompare_cfg, rasterCompare_fb] at h
  split at h
  · obtain ⟨row, rfl, -, -, hp⟩ := composeWindowRow_ok h
    intro x hx
    have := hp x (by simpa using hx)
    simp only [State.setRow_fb, fbRow_setRow_same]
    split at this
    · obtain ⟨b, f, -, -, e⟩ := this; rw [e]; rfl
    · rw [this]; rfl
  · cases h
    intro x hx
    simp [fillBorderRow_find _ _ hx]

end Sys2Proof.Machine
end

