-- ==== Sys2Proof/Laws/Sequencer.lean ====
section
/-! SUPPORT. What the engine's steps can do, and `step_cases`: everything one step of the machine can do. -/

namespace Sys2Proof.Machine

/-! ### Bad-line effects (R89, R92 to R95) -/

theorem isBadLine_iff {line : Nat} {ys : BitVec 3} :
    isBadLine line ys = true ↔ line % Config.badlinePeriod = ys.toNat := decide_eq_true_iff

/-- RasterState after a commit (R94). -/
def committed (r : RasterState) : RasterState :=
  match r.scheduledMode with
  | some v => { r with currentMode := v, scheduledMode := none }
  | none => r

theorem commit_eq (s : State) : commit s = s.setRaster (committed s.raster) := by
  unfold commit committed
  cases h : s.raster.scheduledMode <;> rfl

@[simp] theorem committed_scheduledMode (r : RasterState) : (committed r).scheduledMode = none := by
  unfold committed
  split
  · rfl
  · assumption

@[simp] theorem committed_bitmapAddr (r : RasterState) : (committed r).bitmapAddr = r.bitmapAddr := by
  unfold committed; split <;> rfl

@[simp] theorem committed_charAddr (r : RasterState) : (committed r).charAddr = r.charAddr := by
  unfold committed; split <;> rfl

@[simp] theorem committed_videoAddr (r : RasterState) : (committed r).videoAddr = r.videoAddr := by
  unfold committed; split <;> rfl

theorem committed_currentMode (r : RasterState) :
    (committed r).currentMode = r.scheduledMode.getD r.currentMode := by
  unfold committed; split <;> simp_all

/-- The three effects of a bad line: the charge and the commit; the hook does nothing. -/
theorem badLineEffects_eq (s : State) :
    badLineEffects s = (s.emit (.steal Config.badlinePenalty)).setRaster (committed s.raster) := by
  simp [badLineEffects, commit_eq]

theorem beforeRender_bad {snap : Snapshot} {s : State} (h : isBadLine s.seq.line.toNat snap.yscroll = true) :
    beforeRender snap s = (s.emit (.steal Config.badlinePenalty)).setRaster (committed s.raster) := by
  simp [beforeRender, h, badLineEffects_eq]

theorem beforeRender_good {snap : Snapshot} {s : State} (h : isBadLine s.seq.line.toNat snap.yscroll = false) :
    beforeRender snap s = s := by simp [beforeRender, h]

/-- Before rendering, only the trace and RasterState can have changed, and those on a bad line only. -/
theorem beforeRender_fields (snap : Snapshot) (s : State) :
    (beforeRender snap s).cfg = s.cfg ∧ (beforeRender snap s).seq = s.seq ∧ (beforeRender snap s).ctl = s.ctl ∧
      (beforeRender snap s).regs = s.regs ∧ (beforeRender snap s).fb = s.fb ∧ (beforeRender snap s).env = s.env ∧
      (beforeRender snap s).out.responses = s.out.responses ∧
      (beforeRender snap s).raster.bitmapAddr = s.raster.bitmapAddr ∧
      ∃ es, (beforeRender snap s).out.trace = s.out.trace ++ es ∧ publishedFrames es = [] := by
  cases h : isBadLine s.seq.line.toNat snap.yscroll with
  | false =>
    rw [beforeRender_good h]
    exact ⟨rfl, rfl, rfl, rfl, rfl, rfl, rfl, rfl, [], (List.append_nil _).symm, rfl⟩
  | true =>
    rw [beforeRender_bad h]
    exact ⟨rfl, rfl, rfl, rfl, rfl, rfl, rfl, by simp, [.steal Config.badlinePenalty], rfl, rfl⟩

/-- The line renders in `lineMode` (R90, R94). -/
theorem beforeRender_currentMode (snap : Snapshot) (s : State) :
    (beforeRender snap s).raster.currentMode = lineMode s snap := by
  unfold lineMode
  cases h : isBadLine s.seq.line.toNat snap.yscroll
  · simp [beforeRender_good h]
  · simp [beforeRender_bad h, committed_currentMode]

/-- The charge is the only event before rendering (R93). -/
theorem beforeRender_trace (snap : Snapshot) (s : State) :
    (beforeRender snap s).out.trace = s.out.trace ++
      if isBadLine s.seq.line.toNat snap.yscroll then [.steal Config.badlinePenalty] else [] := by
  cases h : isBadLine s.seq.line.toNat snap.yscroll
  · simp [beforeRender_good h]
  · simp [beforeRender_bad h]

/-- The pixel functions of a line do not see the effects that precede rendering. -/
theorem beforeRender_back (snap : Snapshot) (s : State) (m : ModeVariant) (r c : Nat) :
    back (beforeRender snap s) m snap r c = back s m snap r c := by
  obtain ⟨-, hq, -, -, -, he, -⟩ := beforeRender_fields snap s
  exact back_congr he (by rw [hq]) ..

theorem beforeRender_fore (snap : Snapshot) (s : State) (m : ModeVariant) (r c : Nat) :
    fore (beforeRender snap s) m snap r c = fore s m snap r c := by
  obtain ⟨-, hq, -, -, -, he, -⟩ := beforeRender_fields snap s
  exact fore_congr he (by rw [hq]) ..

theorem rasterCompare_back (snap : Snapshot) (s : State) (m : ModeVariant) (r c : Nat) :
    back (rasterCompare snap s) m snap r c = back s m snap r c := back_congr (by simp) (by simp) ..

theorem rasterCompare_fore (snap : Snapshot) (s : State) (m : ModeVariant) (r c : Nat) :
    fore (rasterCompare snap s) m snap r c = fore s m snap r c := fore_congr (by simp) (by simp) ..

/-! ### The line step (R90) -/

/-- A line step renders and asks for the advance, or faults (R90, R151). -/
theorem renderStep_cases (snap : Snapshot) (s : State) :
    (∃ t, renderLine snap (beforeRender snap s).raster.currentMode (beforeRender snap s) = .ok t ∧
        renderStep snap s = requestAdvance t) ∨
      (∃ a t, renderLine snap (beforeRender snap s).raster.currentMode (beforeRender snap s) = .error (a, t) ∧
        renderStep snap s = raiseFault .addrRange a t) := by
  unfold renderStep
  simp only
  split
  · next t h => exact .inl ⟨t, h, rfl⟩
  · next a t h => exact .inr ⟨a, t, h, rfl⟩

@[simp] theorem requestAdvance_cfg (s : State) : (requestAdvance s).cfg = s.cfg := rfl
@[simp] theorem requestAdvance_seq (s : State) : (requestAdvance s).seq = { s.seq with sub := .advancing } := rfl
@[simp] theorem requestAdvance_raster (s : State) : (requestAdvance s).raster = s.raster := rfl
@[simp] theorem requestAdvance_ctl (s : State) : (requestAdvance s).ctl = s.ctl := rfl
@[simp] theorem requestAdvance_regs (s : State) : (requestAdvance s).regs = s.regs := rfl
@[simp] theorem requestAdvance_fb (s : State) : (requestAdvance s).fb = s.fb := rfl
@[simp] theorem requestAdvance_env (s : State) : (requestAdvance s).env = s.env := rfl
@[simp] theorem requestAdvance_out (s : State) :
    (requestAdvance s).out = { s.out with trace := s.out.trace ++ [.advance Config.cyclesPerLine] } := rfl

@[simp] theorem raiseFault_cfg (c : FaultCode) (a : Nat) (s : State) : (raiseFault c a s).cfg = s.cfg := rfl
@[simp] theorem raiseFault_seq (c : FaultCode) (a : Nat) (s : State) :
    (raiseFault c a s).seq = { s.seq with phase := .faulted } := rfl
@[simp] theorem raiseFault_raster (c : FaultCode) (a : Nat) (s : State) : (raiseFault c a s).raster = s.raster := rfl
@[simp] theorem raiseFault_ctl (c : FaultCode) (a : Nat) (s : State) :
    (raiseFault c a s).ctl = { s.ctl with fault := some c, faultInfo := some ⟨a, s.seq.line⟩ } := rfl
@[simp] theorem raiseFault_regs (c : FaultCode) (a : Nat) (s : State) : (raiseFault c a s).regs = s.regs := rfl
@[simp] theorem raiseFault_fb (c : FaultCode) (a : Nat) (s : State) : (raiseFault c a s).fb = s.fb := rfl
@[simp] theorem raiseFault_env (c : FaultCode) (a : Nat) (s : State) : (raiseFault c a s).env = s.env := rfl
@[simp] theorem raiseFault_out (c : FaultCode) (a : Nat) (s : State) :
    (raiseFault c a s).out = { s.out with trace := s.out.trace ++ [.faulted c] } := rfl

/-- What a line step leaves, whether it completes or faults: `u` is the state after rendering, whose pixels are indices
0 to 15 if the step completes and 0 to 17 if it faults (R90, R122, R151). -/
theorem renderStep_frame (snap : Snapshot) (s : State) :
    ∃ top u, RenderFrame top (beforeRender snap s) u ∧
      ((top = 15 ∧ renderStep snap s = requestAdvance u ∧
          (visible s.cfg.geo s.seq.line.toNat = true → rowComplete s.cfg.geo.frameW (fbRow u.fb s.row))) ∨
        (top = 17 ∧ ∃ a, renderStep snap s = raiseFault .addrRange a u)) := by
  obtain ⟨hc, hq, -⟩ := beforeRender_fields snap s
  rcases renderStep_cases snap s with ⟨u, hu, ht⟩ | ⟨a, u, hu, ht⟩
  · refine ⟨15, u, renderLine_frame_ok hu, .inl ⟨rfl, ht, fun hv => ?_⟩⟩
    have := renderLine_complete hu (by rw [hc, hq]; exact hv)
    rw [hc, hq] at this
    exact this
  · exact ⟨17, u, renderLine_frame_error hu, .inr ⟨rfl, a, ht⟩⟩

/-- A state with a snapshot has no `UNSET` register-port field, and the snapshot holds their values (R91). -/
theorem snapshot_some {s : State} {snap : Snapshot} (h : snapshot s = some snap) :
    s.regs = { border := some snap.border, rasterTarget := some snap.rasterTarget, den := some snap.den,
               vwide := some snap.vwide, hwide := some snap.hwide, yscroll := some snap.yscroll,
               xscroll := some snap.xscroll, bg0 := some snap.bg0, bg1 := some snap.bg1, bg2 := some snap.bg2,
               bg3 := some snap.bg3 } ∧
      snap.charAddr = s.raster.charAddr ∧ snap.videoAddr = s.raster.videoAddr ∧
      snap.bitmapAddr = s.raster.bitmapAddr := by
  simp only [snapshot, bind, Option.bind_eq_some_iff, pure, Option.some.injEq] at h
  obtain ⟨b, hb, t, ht, d, hd, v, hv, w, hw, y, hy, x, hx, g0, h0, g1, h1, g2, h2, g3, h3, rfl⟩ := h
  refine ⟨?_, rfl, rfl, rfl⟩
  cases hr : s.regs
  simp_all

/-- When every register-port field is set, there is a snapshot (R39). -/
theorem snapshot_of_allSet {s : State} (h : allSet s.regs = true) : ∃ snap, snapshot s = some snap := by
  simp only [allSet, Bool.and_eq_true, Option.isSome_iff_exists] at h
  obtain ⟨⟨⟨⟨⟨⟨⟨⟨⟨⟨⟨b, hb⟩, t, ht⟩, d, hd⟩, v, hv⟩, w, hw⟩, y, hy⟩, x, hx⟩, g0, h0⟩, g1, h1⟩, g2, h2⟩, g3, h3⟩ := h
  simp [snapshot, hb, ht, hd, hv, hw, hy, hx, h0, h1, h2, h3]

/-! ### The advance (R97) -/

/-- `AdvanceDone` at the last line: the frame is published and the line wraps (R97, R98). -/
theorem advanceDone_last {s : State} (h : s.seq.line.toNat = s.cfg.geo.totalLines - 1) :
    advanceDone s =
      ((settleWrites s).emit (.publish s.fb)).setSeq
        { s.seq with cycle := s.seq.cycle + Config.cyclesPerLine, sub := .lineStart, frame := s.seq.frame + 1,
                     line := 0 } := by
  simp [advanceDone, settleWrites, h, publish, State.setSeq, State.emit, State.setEnv]

/-- `AdvanceDone` at any other line: the next line (R97). -/
theorem advanceDone_next {s : State} (h : s.seq.line.toNat ≠ s.cfg.geo.totalLines - 1) :
    advanceDone s =
      (settleWrites s).setSeq
        { s.seq with cycle := s.seq.cycle + Config.cyclesPerLine, sub := .lineStart, line := s.seq.line + 1 } := by
  simp [advanceDone, settleWrites, h, State.setSeq, State.setEnv]

@[simp] theorem settleWrites_cfg (s : State) : (settleWrites s).cfg = s.cfg := rfl
@[simp] theorem settleWrites_seq (s : State) : (settleWrites s).seq = s.seq := rfl
@[simp] theorem settleWrites_raster (s : State) : (settleWrites s).raster = s.raster := rfl
@[simp] theorem settleWrites_ctl (s : State) : (settleWrites s).ctl = s.ctl := rfl
@[simp] theorem settleWrites_regs (s : State) : (settleWrites s).regs = s.regs := rfl
@[simp] theorem settleWrites_fb (s : State) : (settleWrites s).fb = s.fb := rfl
@[simp] theorem settleWrites_out (s : State) : (settleWrites s).out = s.out := rfl

/-- After the interval the memories hold the last written values, and no write is pending (R55). -/
theorem settleWrites_env (s : State) :
    (settleWrites s).env = { applyWrites s.env s.env.lineWrites with lineWrites := [] } := rfl

/-- Every field after a line step, whether it completes or faults (R90, R151). -/
theorem renderStep_fields (snap : Snapshot) (s : State) :
    (renderStep snap s).regs = s.regs ∧ (renderStep snap s).cfg = s.cfg ∧
    (renderStep snap s).ctl.stopReq = s.ctl.stopReq ∧
    (renderStep snap s).ctl.ready = s.ctl.ready ∧ (renderStep snap s).ctl.refused = s.ctl.refused ∧
    (renderStep snap s).out.responses = s.out.responses ∧ (renderStep snap s).seq.line = s.seq.line ∧
    (s.ctl.fault ≠ none → (renderStep snap s).ctl.fault ≠ none) ∧
    (renderStep snap s).raster = (if isBadLine s.seq.line.toNat snap.yscroll then committed s.raster else s.raster) ∧
    (∃ es, (renderStep snap s).out.trace = s.out.trace ++ es ∧ publishedFrames es = []) ∧
    ((renderStep snap s).fb = s.fb ∨ visible s.cfg.geo s.seq.line.toNat = true ∧ ∃ row,
        (renderStep snap s).fb = fbSetRow s.fb s.row row) := by
  obtain ⟨_, u, hu, ht⟩ := renderStep_frame snap s
  obtain ⟨b1, b2, b3, b4, b5, b6, b7, b8, es, b9, b10⟩ := beforeRender_fields snap s
  have ecfg := hu.cfg.trans b1
  have eseq := hu.seq.trans b2
  have ectl := hu.ctl.trans b3
  have eregs := hu.regs.trans b4
  obtain ⟨es', c1, c2⟩ := hu.trace
  have hfb := hu.fb
  rw [b1, b2, b5] at hfb
  have hr : u.raster = (if isBadLine s.seq.line.toNat snap.yscroll then committed s.raster else s.raster) := by
    rw [hu.raster]
    split
    · next h => rw [beforeRender_bad h]; rfl
    · next h => rw [beforeRender_good (by simpa using h)]
  have hfb' : u.fb = s.fb ∨ visible s.cfg.geo s.seq.line.toNat = true ∧ ∃ row, u.fb = fbSetRow s.fb s.row row := by
    rcases hfb with e | ⟨hv, row, e, -⟩
    · exact .inl e
    · exact .inr ⟨hv, row, e⟩
  rcases ht with ⟨-, e, -⟩ | ⟨-, a, e⟩ <;> rw [e]
  · refine ⟨by simp [eregs], by simp [ecfg], by simp [ectl], by simp [ectl], by simp [ectl], by simp [hu.responses,
      b7], by simp [eseq], by simp [ectl], by simp [hr], ⟨es ++ es' ++ [_], by simp [c1, b9]; rfl,
      by simp [publishedFrames_append, b10, c2]; rfl⟩, by simpa using hfb'⟩
  · refine ⟨by simp [eregs], by simp [ecfg], by simp [ectl], by simp [ectl], by simp [ectl], by simp [hu.responses,
      b7], by simp [eseq], by simp, by simp [hr], ⟨es ++ es' ++ [_], by simp [c1, b9]; rfl,
      by simp [publishedFrames_append, b10, c2]; rfl⟩, by simpa using hfb'⟩

/-- Every field but the sequencer's after an advance (R97, R98). -/
theorem advanceDone_fields (s : State) :
    (advanceDone s).regs = s.regs ∧ (advanceDone s).cfg = s.cfg ∧ (advanceDone s).ctl = s.ctl ∧
    (advanceDone s).out.responses = s.out.responses ∧ (advanceDone s).raster = s.raster ∧ (advanceDone s).fb = s.fb ∧
    (advanceDone s).seq.phase = s.seq.phase ∧
    (∃ es,
        (advanceDone s).out.trace = s.out.trace ++ es ∧ (publishedFrames es = [] ∨ publishedFrames es = [s.fb] ∧ s.seq.line.toNat = s.cfg.geo.totalLines - 1)) ∧
    (s.LineInRange → (advanceDone s).LineInRange) := by
  by_cases hl : s.seq.line.toNat = s.cfg.geo.totalLines - 1
  · rw [advanceDone_last hl]
    have := s.cfg.ok
    refine ⟨rfl, rfl, rfl, rfl, rfl, rfl, rfl, ⟨[.publish s.fb], rfl, .inr ⟨rfl, hl⟩⟩, fun _ => ?_⟩
    simp [State.LineInRange]; omega
  · rw [advanceDone_next hl]
    have := s.cfg.ok
    refine ⟨rfl, rfl, rfl, rfl, rfl, rfl, rfl, ⟨[], by simp, .inl rfl⟩, fun h => ?_⟩
    have hadd : (s.seq.line + 1).toNat = s.seq.line.toNat + 1 := by
      unfold State.LineInRange at h
      rw [BitVec.toNat_add]; simp; omega
    simp only [State.LineInRange, State.setSeq_seq, State.setSeq_cfg, settleWrites_cfg] at h ⊢; rw [hadd]; omega

/-! ### One step of the machine -/

/-- Everything an agent other than the host can do in one step, from the state `s` with its input taken off the list
to `t`. -/
inductive AgentStep (s t : State) : Prop where
  | wait (alive : s.seq.phase ≠ .faulted) (h : t = s)
  | stopWaiting (phase : s.seq.phase = .waitReady) (stop : s.ctl.stopReq = true)
      (h : t = Sys2Proof.Machine.stopWaiting s)
  | start (phase : s.seq.phase = .waitReady) (stop : s.ctl.stopReq = false) (ready : s.ctl.ready = true)
      (h : t = Sys2Proof.Machine.start s)
  | stop (phase : s.seq.phase = .running) (sub : s.seq.sub = .lineStart) (stop : s.ctl.stopReq = true)
      (h : t = Sys2Proof.Machine.stop s)
  | line (at_ : s.AtLine) (snap : Snapshot) (hsnap : snapshot s = some snap) (h : t = renderStep snap s)
  | advance (phase : s.seq.phase = .running) (sub : s.seq.sub = .advancing) (h : t = advanceDone s)
  | memWrite (alive : s.seq.phase ≠ .faulted) (m : MemWrite) (h : t = s.setEnv (applyWrite s.env m))
  | lineWrite (alive : s.seq.phase ≠ .faulted) (m : MemWrite)
      (h : t = s.setEnv { s.env with lineWrites := s.env.lineWrites ++ [m] })

theorem engineStep_cases {granted : Bool} {s t : State} (h : engineStep granted s = .next t) : AgentStep s t := by
  unfold engineStep at h
  split at h
  · next hp =>
    split at h
    · next hs => cases h; exact .stopWaiting hp hs rfl
    · next hs =>
      split at h
      · next hr => cases h; exact .start hp (by simpa using hs) hr rfl
      · cases h; exact .wait (by simp [hp]) rfl
  · next hp =>
    split at h
    · next hsub =>
      unfold lineStep at h
      split at h
      · next hs => cases h; exact .stop hp hsub hs rfl
      · next hs =>
        split at h
        · next snap hsnap => cases h; exact .line ⟨hp, hsub, by simpa using hs⟩ snap hsnap rfl
        · cases h
    · next hsub =>
      split at h
      · cases h; exact .advance hp hsub rfl
      · cases h; exact .wait (by simp [hp]) rfl
  · next hp => cases h; exact .wait (by simp [hp]) rfl
  · cases h

theorem grantStep_cases {s t : State} (h : grantStep s = .next t) : AgentStep s t := by
  unfold grantStep at h
  split at h
  · next hp => cases h; exact .wait (by simp [hp]) rfl
  · next hp =>
    split at h
    · cases h; exact .wait (by simp [hp]) rfl
    · next hsub => cases h; exact .advance hp hsub rfl
  · next hp => cases h; exact .wait (by simp [hp]) rfl
  · cases h

/-- A step whose next input is no command word is a step of another agent. -/
theorem step_agent {s t : State} (h : step s = .next t) (hc : ∀ w rest, s.env.inputs ≠ .command w :: rest) :
    ∃ rest, AgentStep (s.setEnv { s.env with inputs := rest }) t := by
  unfold step machineStep at h
  split at h
  · next hi => exact ⟨[], by rw [← hi]; exact engineStep_cases h⟩
  · next i rest hi =>
    refine ⟨rest, ?_⟩
    cases i with
    | command w => exact absurd hi (hc w rest)
    | engine => exact engineStep_cases h
    | grant => exact grantStep_cases h
    | memWrite m =>
      simp only [inputStep, memWriteStep] at h
      split at h
      · cases h
      · next ha => cases h; exact .memWrite ha m rfl
    | lineWrite m =>
      simp only [inputStep, lineWriteStep] at h
      split at h
      · cases h
      · next ha => cases h; exact .lineWrite ha m rfl

/-- A step takes the next input off the list, if there is one, and then performs a command, refuses a word, or does one
of the things of `AgentStep`. -/
theorem step_cases {s t : State} (h : step s = .next t) :
    ∃ rest, (∃ i, exec i (s.setEnv { s.env with inputs := rest }) = .next t) ∨
      (s.seq.phase ≠ .faulted ∧ ∃ reason, t = refuse reason (s.setEnv { s.env with inputs := rest })) ∨
      AgentStep (s.setEnv { s.env with inputs := rest }) t := by
  by_cases hc : ∀ w rest, s.env.inputs ≠ .command w :: rest
  · obtain ⟨rest, h⟩ := step_agent h hc
    exact ⟨rest, .inr (.inr h)⟩
  · simp only [not_forall, ne_eq, not_not] at hc
    obtain ⟨w, rest, hi⟩ := hc
    refine ⟨rest, ?_⟩
    simp only [step, machineStep, hi, inputStep, hostWord] at h
    split at h
    · next i _ => exact .inl ⟨i, h⟩
    · next reason _ =>
      obtain ⟨ha, rfl⟩ := hostStep_next_iff.mp h
      exact .inr (.inl ⟨ha, reason, rfl⟩)

/-- A waiting, running or stopped machine always has a next state, unless its snapshot would read an `UNSET` field. -/
theorem engineStep_running (granted : Bool) {s : State} (h : s.AtLine) {snap : Snapshot}
    (hs : snapshot s = some snap) : engineStep granted s = .next (renderStep snap s) := by
  simp [engineStep, lineStep, h.1, h.2.1, h.2.2, hs]

/-! ### Runs without input -/

theorem step_empty {s : State} (h : s.env.inputs = []) : step s = engineStep true s := by
  simp [step, machineStep, h]

/-- A line step uses up no input, and either waits for its advance or is dead (R90, R151). -/
theorem renderStep_seq (snap : Snapshot) (s : State) : (renderStep snap s).env.inputs = s.env.inputs ∧
    ((renderStep snap s).seq = { s.seq with sub := .advancing } ∧ (renderStep snap s).ctl = s.ctl ∨
      (renderStep snap s).seq = { s.seq with phase := .faulted }) := by
  obtain ⟨_, u, hu, ht⟩ := renderStep_frame snap s
  obtain ⟨b1, b2, b3, b4, b5, b6, -⟩ := beforeRender_fields snap s
  rcases ht with ⟨-, e, -⟩ | ⟨-, a, e⟩ <;> rw [e]
  · exact ⟨by simp [hu.inputs, b6], .inl ⟨by simp [hu.seq, b2], by simp [hu.ctl, b3]⟩⟩
  · exact ⟨by simp [hu.inputs, b6], .inr (by simp [hu.seq, b2])⟩

theorem advanceDone_env (s : State) : (advanceDone s).env = (settleWrites s).env := by
  by_cases hl : s.seq.line.toNat = s.cfg.geo.totalLines - 1
  · rw [advanceDone_last hl]; rfl
  · rw [advanceDone_next hl]; rfl

theorem advanceDone_inputs (s : State) : (advanceDone s).env.inputs = s.env.inputs := by
  rw [advanceDone_env, settleWrites_env]
  exact (applyWrites_rest _ _).2.2

/-- The advance moves to the next line in frame order (R97). -/
theorem advanceDone_line {s : State} (h : s.LineInRange) :
    (advanceDone s).seq.line.toNat = (s.seq.line.toNat + 1) % s.cfg.geo.totalLines ∧
      (advanceDone s).seq.sub = .lineStart := by
  have := s.cfg.ok
  by_cases hl : s.seq.line.toNat = s.cfg.geo.totalLines - 1
  · rw [advanceDone_last hl]
    refine ⟨?_, rfl⟩
    rw [show s.seq.line.toNat + 1 = s.cfg.geo.totalLines by omega]
    simp
  · rw [advanceDone_next hl]
    refine ⟨?_, rfl⟩
    unfold State.LineInRange at h
    rw [Nat.mod_eq_of_lt (by omega)]
    show (s.seq.line + 1).toNat = _
    rw [BitVec.toNat_add]
    simp
    omega

/-- A snapshot depends on the register-port fields and the addresses only (R91). -/
theorem snapshot_congr {s t : State} (h1 : t.regs = s.regs) (h2 : t.raster.charAddr = s.raster.charAddr)
    (h3 : t.raster.videoAddr = s.raster.videoAddr) (h4 : t.raster.bitmapAddr = s.raster.bitmapAddr) :
    snapshot t = snapshot s := by simp only [snapshot, h1, h2, h3, h4]

end Sys2Proof.Machine
end

