-- ==== Sys2Proof/Tests/Slice0.lean ====
section
/-! SUPPORT. The model's own tests: small theorems on fixed values, their expected results from 95_test_vectors.md, and
one witness for the hypotheses of each obligation that has any. -/

namespace Sys2Proof.Tests

open Sys2Proof.Machine

/-! ### Small states -/

/-- The next state of an outcome. -/
def nextOf (o : Host.Outcome State Fault Refusal) : Option State :=
  match o with
  | .next s => some s
  | .fault _ => none
  | .refused _ => none

/-- The fault of an outcome. -/
def faultOf (o : Host.Outcome State Fault Refusal) : Option Fault :=
  match o with
  | .next _ => none
  | .fault f => some f
  | .refused _ => none

theorem exists_next {o : Host.Outcome State Fault Refusal} (h : (nextOf o).isSome = true) : ∃ t, o = .next t := by
  cases o with
  | next s => exact ⟨s, rfl⟩
  | fault f => cases h
  | refused r => cases h

/-- The register-port fields of the programs: `XSCROLL` 0 and `BG` 6, 2, 7, 4. -/
def regsOf (border : Nibble) (target : LineNo) (den vwide hwide : BitVec 1) (yscroll : BitVec 3) : PortRegs :=
  ⟨some border, some target, some den, some vwide, some hwide, some yscroll, some 0, some 6, some 2, some 7, some 4⟩

/-- The example configuration at a line of frame 0, in a phase and a position, after `READY`. -/
def atLine (phase : Phase) (sub : SubPos) (line : Nat) (r : PortRegs) : State :=
  ((State.reset.setSeq ⟨phase, BitVec.ofNat 9 line, sub, 64 * line, decide (phase = .running ∨ phase = .faulted), 0⟩).setRegs
    r).setCtl ⟨false, true, false, none, none⟩

/-- The same with a stop requested. -/
def stopping (s : State) : State := s.setCtl { s.ctl with stopReq := true }

/-- The same in a mode, with the addresses of the vectors of families E and F. -/
def inMode (m : ModeVariant) (char video bitmap : Addr) (s : State) : State := s.setRaster ⟨char, video, bitmap, m, none⟩

/-- The same with a mode staged. -/
def staged (m : ModeVariant) (s : State) : State := s.setRaster { s.raster with scheduledMode := some m }

/-- The same with bytes of memory and a colour in cell 0. -/
def withMem (m : List Host.Cell) (k : Nibble) (s : State) : State :=
  s.setEnv { s.env with mem := m, color := storeWrite colorDefault [] 0 k }

/-- The same with some inputs. -/
def withInputs (is : List Input) (s : State) : State := s.setEnv { s.env with inputs := is }

/-- The snapshot of a state that has one. -/
def snapOf (s : State) : Snapshot := (snapshot s).getD ⟨0, 0, 0, 0, 0, 0, 0, 0, 0, 0, 0, 0, 0, 0⟩

/-- A stopped engine, and a dead one. -/
def stoppedState : State := atLine .stopped .lineStart 50 (regsOf 14 400 1 0 0 3)
def deadState : State := (atLine .faulted .lineStart 243 (regsOf 14 400 1 0 0 3)).setCtl ⟨false, true, false, some .addrRange, some ⟨0x10000, 243⟩⟩

/-- Line 51, the first in-window line, bad with `YSCROLL` 3. -/
def inRow : State := inMode .textNormal 0x1000 0x0400 0 (atLine .running .lineStart 51 (regsOf 14 400 1 0 0 3))

/-- Line 20, a border row whatever `DEN`. -/
def borderRow : State := atLine .running .lineStart 20 (regsOf 14 400 0 0 0 3)

/-! ### Family A: encoding and decoding -/

theorem test_decode_setAddr : decode 0x01001000FC190000#64 = .ok (.setAddr 0x1000 0xFC19 0) := by decide
theorem test_decode_setMode : decode 0x0200000000000006#64 = .ok (.setMode 1 1 0) := by decide
theorem test_decode_term : decode 0x0300000000000000#64 = .ok .term := by decide
theorem test_decode_getLine : decode 0x0400000000000000#64 = .ok .getLine := by decide
theorem test_decode_ready : decode 0x0500000000000000#64 = .ok .ready := by decide
theorem test_decode_wrBorder : decode 0x100000000000000E#64 = .ok (.wrBorder 14) := by decide
theorem test_decode_wrRaster : decode 0x11000000000001FF#64 = .ok (.wrRaster 511) := by decide
theorem test_decode_rdRaster : decode 0x1200000000000000#64 = .ok .rdRaster := by decide
theorem test_decode_wrDen : decode 0x1300000000000001#64 = .ok (.wrDen 1) := by decide
theorem test_decode_wrVwide : decode 0x1400000000000001#64 = .ok (.wrVwide 1) := by decide
theorem test_decode_wrHwide : decode 0x1500000000000001#64 = .ok (.wrHwide 1) := by decide
theorem test_decode_wrYscroll : decode 0x1600000000000007#64 = .ok (.wrYscroll 7) := by decide
theorem test_decode_wrXscroll : decode 0x1700000000000005#64 = .ok (.wrXscroll 5) := by decide
theorem test_decode_wrBg : decode 0x1800000000000036#64 = .ok (.wrBg 3 6) := by decide

/-- The refused words of family A. -/
theorem test_decode_refused :
    decode 0x0200000000000008#64 = .error .reservedBits ∧ decode 0x0300000000000001#64 = .error .reservedBits ∧
    decode 0x0301000000000000#64 = .error .reservedBits ∧ decode 0x1100000000000200#64 = .error .reservedBits ∧
    decode 0x1600000000000008#64 = .error .reservedBits ∧ decode 0x1800000000000046#64 = .error .reservedBits ∧
    decode 0#64 = .error .opcode ∧ decode 0x0600000000000000#64 = .error .opcode ∧
    decode 0x0F00000000000000#64 = .error .opcode ∧ decode 0xFF00000000000000#64 = .error .opcode := by decide

/-- An opcode-table word is the first step after reset. -/
theorem test_withFetchWord :
    (nextOf (step (State.reset.withFetchWord 64 0x100000000000000E))).map (·.regs.border) = some (some 14) := by decide

/-! ### The assembler (R69, R70) -/

/-- Every operand check refuses an operand one too large for its field. -/
theorem test_wellFormed_refuses :
    [Asm.setAddr 0x10000 0 0, .setAddr 0 0x10000 0, .setAddr 0 0 0x10000, .setMode 2 0 0, .setMode 0 2 0, .setMode 0 0 2,
     .wrBorder 16, .wrRaster 512, .wrDen 2, .wrVwide 2, .wrHwide 2, .wrYscroll 8, .wrXscroll 8, .wrBg 4 0,
     .wrBg 0 16].all (fun a => !a.wellFormed) = true := by decide

theorem test_wellFormed_refuses_initRegs :
    [Asm.initRegs 16 0 0 0 0 0 0 0 0 0 0, .initRegs 0 512 0 0 0 0 0 0 0 0 0, .initRegs 0 0 2 0 0 0 0 0 0 0 0,
     .initRegs 0 0 0 2 0 0 0 0 0 0 0, .initRegs 0 0 0 0 2 0 0 0 0 0 0, .initRegs 0 0 0 0 0 8 0 0 0 0 0,
     .initRegs 0 0 0 0 0 0 8 0 0 0 0, .initRegs 0 0 0 0 0 0 0 16 0 0 0, .initRegs 0 0 0 0 0 0 0 0 16 0 0,
     .initRegs 0 0 0 0 0 0 0 0 0 16 0, .initRegs 0 0 0 0 0 0 0 0 0 0 16].all (fun a => !a.wellFormed) = true := by decide

/-- `WRBORDER 16` is an assembly error (family A); the largest operand assembles. -/
theorem test_assemble_wrBorder : assemble (.wrBorder 16) = none ∧ assemble (.wrBorder 15) = some [0x100000000000000F] := by
  decide

/-- The words of P1's `INITREGS` line. -/
theorem test_assemble_initRegs : assemble (.initRegs 14 400 0 0 0 3 0 6 0 0 0) = some
    [0x100000000000000E, 0x1100000000000190, 0x1300000000000000, 0x1400000000000000, 0x1500000000000000,
     0x1600000000000003, 0x1700000000000000, 0x1800000000000006, 0x1800000000000010, 0x1800000000000020,
     0x1800000000000030] := by decide

/-- A line of text with a comment, and the name form of `SETMODE`. -/
theorem test_assemble_line :
    assembleLine "SETADDR 0x1000, 0x0400, 0x2000 ; three addresses".toList = some [0x0100100004002000] ∧
    assembleLine "SETMODE BitmapMulti".toList = some [0x0200000000000005] ∧
    assembleLine "WRBG 3, 16".toList = none ∧ assembleLine "; nothing".toList = some [] := by decide

/-! ### Configurations (R6) -/

theorem test_constants : Config.ConstantsOk := by decide

/-- A geometry that breaks one constraint of R6 makes no configuration; EX does (R13). -/
theorem test_build :
    Config.build ⟨312, 384, 272, 15, 32, 36, 15⟩ = some Config.ex ∧ Config.build ⟨513, 384, 272, 15, 32, 36, 15⟩ = none ∧
    Config.build ⟨286, 384, 272, 15, 32, 36, 15⟩ = none ∧ Config.build ⟨312, 351, 272, 15, 32, 36, 15⟩ = none ∧
    Config.build ⟨312, 384, 235, 15, 32, 36, 15⟩ = none ∧ Config.build ⟨0, 384, 272, 15, 32, 36, 15⟩ = none := by decide

/-- Log 1: the state after reset is the construction in EX (R13). -/
theorem test_reset : State.reset = State.construct Config.ex ∧
    State.reset.cfg.geo = ⟨312, 384, 272, 15, 32, 36, 15⟩ := by decide

/-! ### Family B: host commands -/

/-- B2, the bitmap mask. -/
theorem test_setAddr_mask :
    [0x0000, 0x1FFF, 0x2000, 0x3FFF, 0x4001, 0xBEEF, 0xDEAD, 0xFFFF].map maskBitmap =
      [0x0000, 0x0000, 0x2000, 0x2000, 0x4000, 0xA000, 0xC000, 0xE000] := by decide

theorem test_setAddr : (nextOf (exec (.setAddr 0xFFFF 0xFFFF 0xFFFF) State.reset)).map (·.raster) =
    some ⟨0xFFFF, 0xFFFF, 0xE000, .textNormal, none⟩ := by decide

/-- B1, all eight inputs, by code. -/
theorem test_resolveMode :
    [modeCode (resolveMode 0 0 0), modeCode (resolveMode 0 0 1), modeCode (resolveMode 0 1 0), modeCode (resolveMode 0 1 1),
     modeCode (resolveMode 1 0 0), modeCode (resolveMode 1 0 1), modeCode (resolveMode 1 1 0),
     modeCode (resolveMode 1 1 1)] = [0, 1, 2, 1, 3, 4, 3, 4] := by decide

/-- B3: a second `SETMODE` replaces the first. -/
theorem test_setMode :
    (nextOf (exec (.setMode 1 0 1) (staged .textExtended State.reset))).map (·.raster.scheduledMode) =
      some (some .bitmapMulti) := by decide

theorem test_term : (nextOf (exec .term stoppedState)).map (·.ctl.stopReq) = some true := by decide

/-- B3: the current line, in `STOPPED` too, and never the target. -/
theorem test_getLine : (nextOf (exec .getLine stoppedState)).map (·.out.responses) = some [50] := by decide

theorem test_rdRaster : (nextOf (exec .rdRaster (atLine .running .advancing 100 (regsOf 0 7 1 0 0 4)))).map
    (·.out.responses) = some [0x0064] := by decide

/-- B3: `READY` with every field but `BG3` written is refused; with all of them it is accepted. -/
theorem test_ready_refused : (nextOf (exec .ready (State.reset.setRegs { regsOf 14 400 0 0 0 3 with bg3 := none }))).map
    (fun s => (s.ctl.refused, s.ctl.ready)) = some (true, false) := by decide

theorem test_ready : (nextOf (exec .ready (State.reset.setRegs (regsOf 14 400 0 0 0 3)))).map
    (fun s => (s.ctl.refused, s.ctl.ready)) = some (false, true) := by decide

/-- Log 22: a `READY` after a refused one is accepted once every field is set. -/
theorem test_ready_again : (nextOf (exec .ready ((State.reset.setRegs (regsOf 14 400 0 0 0 3)).setCtl
    ⟨false, false, true, none, none⟩))).map (·.ctl.ready) = some true := by decide

theorem test_wrBorder : (nextOf (exec (.wrBorder 2) State.reset)).map (·.regs.border) = some (some 2) := by decide
theorem test_wrRaster : (nextOf (exec (.wrRaster 311) State.reset)).map (fun s => (s.regs.rasterTarget, s.seq.line)) =
    some (some 311, 0) := by decide
theorem test_wrDen : (nextOf (exec (.wrDen 1) State.reset)).map (·.regs.den) = some (some 1) := by decide
theorem test_wrVwide : (nextOf (exec (.wrVwide 1) State.reset)).map (·.regs.vwide) = some (some 1) := by decide
theorem test_wrHwide : (nextOf (exec (.wrHwide 1) State.reset)).map (·.regs.hwide) = some (some 1) := by decide
theorem test_wrYscroll : (nextOf (exec (.wrYscroll 7) State.reset)).map (·.regs.yscroll) = some (some 7) := by decide
theorem test_wrXscroll : (nextOf (exec (.wrXscroll 5) State.reset)).map (·.regs.xscroll) = some (some 5) := by decide
theorem test_wrBg : (nextOf (exec (.wrBg 3 6) State.reset)).map
    (fun s => (s.regs.bg0, s.regs.bg1, s.regs.bg2, s.regs.bg3)) = some (none, none, none, some 6) := by decide

/-- B3: in `FAULTED` no word has a step; elsewhere a reserved word only sets the refusal mark. -/
theorem test_dead_host : faultOf (step (deadState.withFetchWord 64 0x0600000000000000)) = some .hostStuck ∧
    faultOf (step (deadState.withFetchWord 64 0x0300000000000000)) = some .hostStuck ∧
    faultOf (step deadState) = some .engineDead := by decide

theorem test_reserved_word : nextOf (step (State.reset.withFetchWord 64 0x0600000000000000)) =
    some (State.reset.setCtl { State.reset.ctl with refused := true }) := by decide

/-! ### Family C: the sequencer -/

/-- C1: 39 bad lines a frame; lines 243 and 250 with `YSCROLL` 3. -/
theorem test_badLines : ((List.range 312).filter (fun l => isBadLine l 3)).length = 39 ∧ isBadLine 243 3 = true ∧
    isBadLine 250 3 = false ∧ isBadLine 311 7 = true ∧ isBadLine 0 0 = true := by decide +kernel

/-- C3: the advance, and the wrap with its publication. -/
theorem test_advance : (nextOf (step (atLine .running .advancing 310 (regsOf 14 400 0 0 0 3)))).map (·.seq) =
    some ⟨.running, 311, .lineStart, 19904, true, 0⟩ := by decide

theorem test_wrap : (nextOf (step (atLine .running .advancing 311 (regsOf 14 400 0 0 0 3)))).map
    (fun s => (s.seq, s.out.trace)) = some (⟨.running, 0, .lineStart, 19968, true, 1⟩, [.publish []]) := by decide

/-- C4: the events of line 100, and of the invisible bad line 12. -/
theorem test_trace_line100 :
    (nextOf (step (atLine .running .lineStart 100 (regsOf 0 100 1 0 0 4)))).map (·.out.trace) =
      some [.steal 40, .rasterIrq 100, .spriteBack 0 85 100, .spriteFront 85 100, .advance 64] := by decide +kernel

theorem test_trace_line12 : (nextOf (step (atLine .running .lineStart 12 (regsOf 0 100 1 0 0 4)))).map (·.out.trace) =
    some [.steal 40, .advance 64] := by decide

/-- C5: start, stop before start, the wait, and the stop at a line boundary. -/
theorem test_start : (nextOf (step (atLine .waitReady .lineStart 0 (regsOf 14 400 0 0 0 3)))).map
    (fun s => (s.seq, s.out.trace)) = some (⟨.running, 0, .lineStart, 0, true, 0⟩, [.resume]) := by decide

theorem test_stopWaiting : (nextOf (step (stopping (atLine .waitReady .lineStart 0 (regsOf 14 400 0 0 0 3))))).map
    (fun s => (s.seq.phase, s.out.trace)) = some (.stopped, [.stopped]) := by decide

theorem test_waits : nextOf (step State.reset) = some State.reset := by decide

theorem test_stop : (nextOf (step (stopping (atLine .running .lineStart 51 (regsOf 14 400 0 0 0 3))))).map
    (fun s => (s.seq, s.out.trace, s.fb.length)) = some (⟨.stopped, 51, .lineStart, 3264, false, 0⟩, [.stopped], 0) := by decide

/-- Log 3: a pending advance waits for its grant. -/
theorem test_grant :
    (nextOf (step (withInputs [.engine] (atLine .running .advancing 5 (regsOf 14 400 0 0 0 3))))).map (·.seq.line) = some 5 ∧
    (nextOf (step (withInputs [.grant] (atLine .running .advancing 5 (regsOf 14 400 0 0 0 3))))).map (·.seq.line) =
      some 6 := by decide

/-! ### Family D: line composition -/

/-- D1, row by row: `none` is an invisible line, `some true` an in-window row. -/
def classify (vwide : BitVec 1) (line : Nat) : Option Bool :=
  if visible Config.ex.geo line then
    some (inWindowRow Config.ex.geo (snapOf (atLine .running .lineStart line (regsOf 14 400 1 vwide 0 3)))
      (rowOf Config.ex.geo line))
  else none

theorem test_rows :
    [14, 15, 50, 51, 55, 246, 247, 250, 251, 286, 287].map (classify 0) =
      [none, some false, some false, some true, some true, some true, some true, some true, some false, some false, none] ∧
    [14, 15, 50, 51, 55, 246, 247, 250, 251, 286, 287].map (classify 1) =
      [none, some false, some false, some false, some true, some true, some false, some false, some false, some false,
       none] := by decide

/-- D2 and D3: the layers of an in-window row with a back draw and a front draw. -/
def layered : State :=
  (withMem [(0x1000, 0)] 0 inRow).setEnv
    { inRow.env with draws := [[(100, 2), (101, 2), (103, 2), (351, 5), (352, 5)], [(10, 3), (103, 3)]] }

theorem test_layers : (nextOf (step layered)).map (fun s => [10, 31, 32, 100, 102, 103, 351, 352].map (fbFind s.fb 36)) =
    some [some 14, some 14, some 6, some 2, some 6, some 3, some 5, some 14] := by decide +kernel

/-- D2 with `HWIDE` 1: the window is columns 39 to 342. -/
theorem test_hwide : (nextOf (step (inRow.setRegs (regsOf 14 400 1 0 1 3)))).map
    (fun s => [38, 39, 342, 343, 383].map (fbFind s.fb 36)) = some [some 14, some 6, some 6, some 14, some 14] := by
  decide +kernel

/-! ### Family E: the mode rasterers, columns 0 to 7 of cell 0 -/

/-- The colours of columns 0 to 7: the foreground, else the background. -/
def columns (m : ModeVariant) (s : State) : List (Option Nibble) :=
  (List.range 8).map fun c =>
    match back s m (snapOf s) 0 c, fore s m (snapOf s) 0 c with
    | .ok b, .ok f => some (f.getD b)
    | .ok _, .error _ => none
    | .error _, _ => none

/-- A state for these rows: video byte `v`, glyph or bitmap byte `g` at address `ga`, colour `k`. -/
def cellState (m : ModeVariant) (v : Byte) (ga : Addr) (g : Byte) (k : Nibble) : State :=
  withMem (storeWrite memDefault (storeWrite memDefault [] 0x0400 v) ga.toNat g) k
    (inMode m 0x1000 0x0400 0x2000 (atLine .running .lineStart 51 (regsOf 14 400 1 0 0 3)))

theorem test_textNormal : columns .textNormal (cellState .textNormal 0x01 0x1008 0xC3 1) =
    [1, 1, 6, 6, 6, 6, 1, 1].map some := by decide

theorem test_textMulti : columns .textMulti (cellState .textMulti 0x01 0x1008 0x1B 13) =
    [6, 6, 2, 2, 7, 7, 5, 5].map some := by decide

theorem test_textMulti_hires : columns .textMulti (cellState .textMulti 0x01 0x1008 0xAA 7) =
    [7, 6, 7, 6, 7, 6, 7, 6].map some := by decide

theorem test_textExtended : columns .textExtended (cellState .textExtended 0x81 0x1008 0xC3 1) =
    [1, 1, 7, 7, 7, 7, 1, 1].map some := by decide

theorem test_textExtended_63 : columns .textExtended (cellState .textExtended 0xFF 0x11F8 0x00 1) =
    [4, 4, 4, 4, 4, 4, 4, 4].map some := by decide

theorem test_bitmapNormal : columns .bitmapNormal (cellState .bitmapNormal 0x1F 0x2000 0xA0 0) =
    [1, 15, 1, 15, 15, 15, 15, 15].map some := by decide

theorem test_bitmapMulti : columns .bitmapMulti (cellState .bitmapMulti 0x25 0x2000 0x1B 9) =
    [6, 6, 2, 2, 5, 5, 9, 9].map some := by decide

/-- E2: content row 13, column 100. -/
theorem test_fetch_addresses : cellOf 13 100 = 52 ∧ 13 % 8 = 5 ∧
    fetchVM (cellState .textNormal 0 0 0 0) (snapOf (inMode .textNormal 0 0xFFF0 0 inRow)) true 100 52 = .error 0x10024 ∧
    fetchCH (cellState .textNormal 0 0x120D 0x77 0) (snapOf inRow) true 100 0x41 5 = .ok 0x77 ∧
    fetchBM (cellState .textNormal 0 0x21A5 0x66 0) (snapOf (cellState .textNormal 0 0 0 0)) true 100 52 5 = .ok 0x66 := by
  decide

/-! ### Family F: the fault -/

/-- `videoAddr` 0xFC19 at line 243 of P4, with `HWIDE` as given. -/
def p4 (m : ModeVariant) (hwide : BitVec 1) : State :=
  inMode m 0x1000 0xFC19 0 (atLine .running .lineStart 243 (regsOf 14 400 1 0 hwide 3))

theorem test_fault : (nextOf (step (p4 .textNormal 0))).map (fun s => (s.seq, s.ctl.fault, s.ctl.faultInfo, s.out.trace)) =
    some (⟨.faulted, 243, .lineStart, 15552, true, 0⟩, some .addrRange, some ⟨0x10000, 243⟩,
      [.steal 40, .spriteBack 0xFC19 228 243, .faulted .addrRange]) := by decide +kernel

/-- In TextExtended the fault comes during `Backfill`, before the back call. -/
theorem test_fault_backfill : (nextOf (step (p4 .textExtended 0))).map (fun s => (s.ctl.faultInfo, s.out.trace)) =
    some (some ⟨0x10000, 243⟩, [.steal 40, .faulted .addrRange]) := by decide +kernel

/-- P4b: the wide border avoids the fault. -/
theorem test_no_fault : (nextOf (step (p4 .textNormal 1))).map (fun s => (s.seq.phase, s.seq.sub)) =
    some (.running, .advancing) := by decide +kernel

/-! ### Memory -/

/-- A write of the value an unlisted byte reads as removes the entry; the addresses stay in order. -/
theorem test_memory_canonical :
    (applyWrites State.reset.env [.sys 7 1, .sys 5 2, .sys 7 0, .color ⟨3, by decide⟩ 9]).mem = [(5, 2)] ∧
    (applyWrites State.reset.env [.sys 7 1, .sys 5 2, .sys 7 0, .color ⟨3, by decide⟩ 9]).color = [(3, 9)] := by decide

/-! ### Witnesses: the hypotheses of each obligation that has some -/

theorem witness_EncodeOfDecode : decode 0x1800000000000036#64 = .ok (.wrBg 3 6) := by decide

/-- Reserved operation codes at the bounds of each range, and a state that is not `FAULTED`. -/
theorem witness_ReservedOpcodesRefused :
    (∀ op ∈ [0x00#8, 0x06#8, 0x0F#8, 0x19#8, 0xFF#8], decode (op ++ 0#56) = .error .opcode) ∧
    (∀ op ∈ [0x01#8, 0x05#8, 0x10#8, 0x18#8], decode (op ++ 0#56) ≠ .error .opcode) ∧
    State.reset.seq.phase ≠ .faulted := by decide

/-- The lowest reserved bit of a command without operands, with one and in `RSV`; the first legal word beside each. -/
theorem witness_ReservedBitsRefused :
    decode 0x0300000000000001#64 = .error .reservedBits ∧ decode 0x0300000000000000#64 = .ok .term ∧
    decode 0x1000000000000010#64 = .error .reservedBits ∧ decode 0x100000000000000F#64 = .ok (.wrBorder 15) ∧
    decode 0x0101000000000000#64 = .error .reservedBits ∧ stoppedState.seq.phase ≠ .faulted := by decide

theorem witness_AtMostOneRowMatches :
    (∃ r1 ∈ opcodeTable, rowMatches r1 0x0300000000000000#64 = true) ∧
    (opcodeTable.filter (fun r => rowMatches r 0x1800000000000036#64)).map (·.op) = [0x18] := by decide

/-- Each operand at its largest value, and one above it; the words of the commands without operands. -/
theorem witness_StatementsAssemble :
    assemble (.setAddr 65535 65535 65535) = some [0x0100FFFFFFFFFFFF] ∧ assemble (.setAddr 65536 0 0) = none ∧
    assemble (.setMode 1 1 1) = some [0x0200000000000007] ∧ assemble (.setMode 0 2 0) = none ∧
    assemble (.wrRaster 511) = some [0x11000000000001FF] ∧ assemble (.wrRaster 512) = none ∧
    assemble (.wrDen 1) = some [0x1300000000000001] ∧ assemble (.wrDen 2) = none ∧
    assemble (.wrVwide 1) = some [0x1400000000000001] ∧ assemble (.wrVwide 2) = none ∧
    assemble (.wrHwide 1) = some [0x1500000000000001] ∧ assemble (.wrHwide 2) = none ∧
    assemble (.wrYscroll 7) = some [0x1600000000000007] ∧ assemble (.wrYscroll 8) = none ∧
    assemble (.wrXscroll 7) = some [0x1700000000000007] ∧ assemble (.wrXscroll 8) = none ∧
    assemble (.wrBg 3 15) = some [0x180000000000003F] ∧ assemble (.wrBg 4 0) = none ∧
    [Asm.getLine, .ready, .rdRaster].map assemble =
      [some [0x0400000000000000], some [0x0500000000000000], some [0x1200000000000000]] := by decide

/-- The pseudo-instructions of R70, by their words; `INITREGS` with one operand too large assembles to no word. -/
theorem witness_StatementsAssemble_pseudo :
    [ModeVariant.textNormal, .textMulti, .textExtended, .bitmapNormal, .bitmapMulti].map (fun m => assemble (.setModeNamed m)) =
      [some [0x0200000000000000], some [0x0200000000000001], some [0x0200000000000002], some [0x0200000000000004],
       some [0x0200000000000005]] ∧
    assemble .blank = some [0x1300000000000000] ∧ assemble .unblank = some [0x1300000000000001] ∧
    assemble (.initRegs 14 400 0 0 0 3 0 6 0 0 16) = none := by decide

/-- The largest value of every operand. -/
theorem witness_InitRegsPreparesReady : State.reset.seq.phase ≠ .faulted ∧
    (Asm.initRegs 15 511 1 1 1 7 7 15 15 15 15).wellFormed = true := by decide

theorem witness_StepRunsDecodedCommand :
    (withInputs [.command 0x0300000000000000#64, .engine] inRow).env.inputs = .command 0x0300000000000000#64 :: [.engine] ∧
    decode 0x0300000000000000#64 = .ok .term ∧ decodeTableWord 64 0x0300000000000000 = some .term := by decide

/-- A refused word of each kind, as the next input of a live and of a dead machine, and as a table word. -/
theorem witness_StepRunsDecodedCommand_refused :
    decode 0x0600000000000000#64 = .error .opcode ∧ decode 0x0300000000000001#64 = .error .reservedBits ∧
    (withInputs [.command 0x0600000000000000#64, .engine] inRow).env.inputs = .command 0x0600000000000000#64 :: [.engine] ∧
    (withInputs [.command 0x0300000000000001#64] deadState).env.inputs = .command 0x0300000000000001#64 :: [] ∧
    inRow.seq.phase ≠ .faulted ∧ deadState.seq.phase = .faulted ∧ decodeTableWord 64 0x0600000000000000 = none := by decide

/-- A state for each kind of input, alive and dead. -/
theorem witness_StepRunsOtherAgents :
    inRow.env.inputs = [] ∧ (withInputs [.engine] inRow).env.inputs = .engine :: [] ∧
    (withInputs [.grant] inRow).env.inputs = .grant :: [] ∧
    (withInputs [.memWrite (.sys 5 1)] inRow).env.inputs = .memWrite (.sys 5 1) :: [] ∧
    (withInputs [.lineWrite (.sys 5 1)] inRow).env.inputs = .lineWrite (.sys 5 1) :: [] ∧ inRow.seq.phase ≠ .faulted ∧
    deadState.env.inputs = [] ∧ deadState.seq.phase = .faulted ∧
    [Input.engine, .grant, .memWrite (.sys 5 1), .lineWrite (.sys 5 1)].all
      (fun i => decide ((withInputs [i] deadState).seq.phase = .faulted)) = true := by
  decide

theorem witness_StepRunsOtherAgents_dead (w : CmdWord) : Input.engine ≠ .command w ∧ Input.grant ≠ .command w ∧
    Input.memWrite (.sys 5 1) ≠ .command w ∧ Input.lineWrite (.sys 5 1) ≠ .command w := by simp

/-- Every phase the commands act in, and the one they do not; shared by the statements about single commands:
`CommandsAcceptedByPhase`, `SetAddrStoresAddresses`, `SetModeStages`, `LineReadsReturnLine`, `PortWritesStoreOneField`,
`WrBgStoresIndexedColour`. -/
theorem witness_CommandsAcceptedByPhase :
    State.reset.seq.phase = .waitReady ∧ inRow.seq.phase = .running ∧ stoppedState.seq.phase = .stopped ∧
    State.reset.seq.phase ≠ .faulted ∧ inRow.seq.phase ≠ .faulted ∧ stoppedState.seq.phase ≠ .faulted ∧
    deadState.seq.phase = .faulted := by decide

theorem witness_SetAddrStoresAddresses : inRow.seq.phase ≠ .faulted := by decide
theorem witness_SetModeStages : (staged .textExtended inRow).seq.phase ≠ .faulted := by decide
theorem witness_LineReadsReturnLine : stoppedState.seq.phase ≠ .faulted ∧ stoppedState.seq.line = 50 := by decide
theorem witness_PortWritesStoreOneField : inRow.seq.phase ≠ .faulted := by decide
theorem witness_WrBgStoresIndexedColour : inRow.seq.phase ≠ .faulted := by decide

theorem witness_TermRequestsStop : inRow.seq.phase ≠ .faulted ∧ inRow.ctl.stopReq = false ∧
    (stopping inRow).seq.phase ≠ .faulted ∧ (stopping inRow).ctl.stopReq = true := by decide

theorem witness_RasterReadIgnoresTarget : (∃ t u, exec (.wrRaster 7) inRow = .next t ∧ exec .rdRaster t = .next u) ∧
    ∃ t u, exec .rdRaster inRow = .next t ∧
      exec .rdRaster { inRow with regs := { inRow.regs with rasterTarget := none } } = .next u :=
  ⟨⟨_, _, rfl, rfl⟩, _, _, rfl, rfl⟩

/-- All fields set, before and after an accepted `READY`; and each field alone missing. -/
theorem witness_ReadyNeedsEveryField :
    (State.reset.setRegs (regsOf 14 400 0 0 0 3)).seq.phase ≠ .faulted ∧ allSet (regsOf 14 400 0 0 0 3) = true ∧
    inRow.ctl.ready = true ∧ allSet inRow.regs = true ∧ inRow.seq.phase ≠ .faulted ∧ State.reset.seq.phase ≠ .faulted ∧
    allSet State.reset.regs = false ∧ allSet { regsOf 14 400 0 0 0 3 with border := none } = false ∧
    allSet { regsOf 14 400 0 0 0 3 with bg3 := none } = false := by decide

theorem witness_CommandFrame : ∃ t, exec (.wrBg 3 6) inRow = .next t := ⟨_, rfl⟩

/-- Whether the command has a next state in which `f` is not what it was. -/
def changes {α : Type} [DecidableEq α] (f : State → α) (i : Instr) (s : State) : Bool :=
  match exec i s with
  | .next t => decide (f t ≠ f s)
  | .fault _ => false
  | .refused _ => false

theorem changes_sound {α : Type} [DecidableEq α] {f : State → α} {i : Instr} {s : State} (h : changes f i s = true) :
    ∃ t, exec i s = .next t ∧ f t ≠ f s := by
  unfold changes at h
  split at h
  · next t ht => exact ⟨t, ht, of_decide_eq_true h⟩
  · cases h
  · cases h

/-- Each command that changes something, on a state it changes (`changes_sound` gives the next state). -/
theorem witness_CommandWriteRights :
    changes (·.raster.charAddr) (.setAddr 1 2 0x2000) inRow = true ∧
    changes (·.raster.videoAddr) (.setAddr 1 2 0x2000) inRow = true ∧
    changes (·.raster.bitmapAddr) (.setAddr 1 2 0x2000) inRow = true ∧
    changes (·.raster.scheduledMode) (.setMode 1 0 0) inRow = true ∧
    changes (·.ctl.stopReq) .term inRow = true ∧ changes (·.ctl.refused) .ready State.reset = true ∧
    changes (·.ctl.ready) .ready (State.reset.setRegs (regsOf 14 400 0 0 0 3)) = true ∧
    changes (·.out.responses) .getLine inRow = true ∧ changes (·.out.responses) .rdRaster inRow = true := by decide

theorem witness_CommandWriteRights_ports :
    changes (·.regs.border) (.wrBorder 1) inRow = true ∧ changes (·.regs.rasterTarget) (.wrRaster 1) inRow = true ∧
    changes (·.regs.den) (.wrDen 0) inRow = true ∧ changes (·.regs.vwide) (.wrVwide 1) inRow = true ∧
    changes (·.regs.hwide) (.wrHwide 1) inRow = true ∧ changes (·.regs.yscroll) (.wrYscroll 7) inRow = true ∧
    changes (·.regs.xscroll) (.wrXscroll 7) inRow = true ∧ changes (·.regs.bg0) (.wrBg 0 15) inRow = true ∧
    changes (·.regs.bg1) (.wrBg 1 15) inRow = true ∧ changes (·.regs.bg2) (.wrBg 2 15) inRow = true ∧
    changes (·.regs.bg3) (.wrBg 3 15) inRow = true := by decide

/-! The end of a frame on the smallest geometry: 200 lines of 320 pixels, every pixel 0. -/

def smallConfig : Config := { geo := ⟨200, 320, 200, 0, 0, 0, 0⟩, ok := by decide }

/-- A frame with every row equal. -/
def flatFrame (n : Nat) (row : Row) : FrameBuffer := (List.range n).map (fun R => (R, row))

theorem storeFind_map (l : List Nat) (row : Row) (k : Nat) (h : k ∈ l) :
    storeFind (l.map (fun R => (R, row))) k = some row := by
  induction l with
  | nil => cases h
  | cons a l ih =>
    rw [List.map_cons, storeFind_cons]
    split
    · rfl
    · next hne => exact ih ((List.mem_cons.mp h).resolve_left fun e => hne e.symm)

/-- A row of `n` pixels 0. -/
def flatRow (n : Nat) : Row := List.replicate n (some 0)

theorem flatRow_sound (top n : Nat) : rowSound top n (flatRow n) :=
  ⟨by simp [flatRow], fun o ho => by rw [List.eq_of_mem_replicate ho]; exact Nat.zero_le top⟩

theorem flatRow_complete (n : Nat) : rowComplete n (flatRow n) := fun x hx => by
  simp [rowFind, flatRow, hx]

theorem flatRow_ne (n : Nat) : flatRow (n + 1) ≠ [] := by simp [flatRow]

theorem flatFrame_row (n : Nat) (row : Row) (R : Nat) (hR : R < n) : fbRow (flatFrame n row) R = row := by
  simp [flatFrame, fbRow, storeRead, storeFind_map _ _ R (List.mem_range.mpr hR)]

/-- Waiting for the grant of line 199. -/
def lastLine : State :=
  (((State.construct smallConfig).setSeq ⟨.running, 199, .advancing, 12736, true, 0⟩).setRegs (regsOf 0 400 0 0 0 3)).setCtl
    ⟨false, true, false, none, none⟩

/-- The same with the whole frame painted. -/
def lastState : State := { lastLine with fb := flatFrame 200 (flatRow 320) }

theorem lastState_inv : lastState.Inv where
  line := by decide
  bitmap := by decide
  fault := by decide
  participates := by decide
  ports := by decide
  sub := by decide
  stops := by decide
  waits := by decide
  cycles := by decide
  memory := by decide
  canonical := by
    refine ⟨List.pairwise_map.mpr List.pairwise_lt_range, fun p hp => ?_⟩
    obtain ⟨R, hR, rfl⟩ := List.mem_map.mp hp
    exact ⟨List.mem_range.mp hR, flatRow_ne 319, flatRow_sound 17 320⟩
  palette := fun _ p hp => by
    obtain ⟨R, hR, rfl⟩ := List.mem_map.mp hp
    exact flatRow_sound 15 320
  painted := fun R hR _ => (flatFrame_row 200 (flatRow 320) R hR).symm ▸ flatRow_complete 320
  publishes := by decide

theorem lastState_step : step lastState = .next (advanceDone lastState) := rfl

theorem witness_StepKeepsInvariant : ∃ s t : State, s.Inv ∧ step s = .next t :=
  ⟨lastState, _, lastState_inv, lastState_step⟩

theorem witness_PublishedFramesAreComplete : ∃ (s t : State) (es : List Event), s.Inv ∧ step s = .next t ∧
    t.out.trace = s.out.trace ++ es ∧ s.fb ∈ publishedFrames es ∧ (0 < s.cfg.geo.frameH ∧ 0 < s.cfg.geo.frameW) :=
  ⟨lastState, _, [.publish lastState.fb], lastState_inv, lastState_step, rfl, by simp [publishedFrames, publishedFrame],
    by decide⟩

/-- A bad line with a staged mode changes the mode; its row is painted. -/
theorem witness_BlockInvariants : ∃ t, step (staged .bitmapMulti borderRow) = .next t ∧
    (staged .bitmapMulti borderRow).LineInRange ∧ (staged .bitmapMulti borderRow).BitmapAligned ∧
    fbFind t.fb 5 0 ≠ fbFind (staged .bitmapMulti borderRow).fb 5 0 :=
  ⟨_, rfl, by decide, by decide, by decide +kernel⟩

theorem witness_BlockInvariants_commit :
    ∃ t, step (staged .bitmapMulti (atLine .running .lineStart 11 (regsOf 14 400 0 0 0 3))) = .next t ∧
      t.raster.currentMode ≠ .textNormal := ⟨_, rfl, by decide⟩

/-- States that meet `PortsReady`, a step, and a snapshot of a state with every field set, its values all told apart. -/
theorem witness_UnsetIsNeverRead : inRow.PortsReady ∧ State.reset.PortsReady ∧ (∃ t, step borderRow = .next t) ∧
    allSet borderRow.regs = true ∧
    snapshot (inMode .textNormal 0x1000 0x0400 0x2000 (atLine .running .lineStart 51 (regsOf 14 400 1 0 1 3))) =
      some { border := 14, rasterTarget := 400, den := 1, vwide := 0, hwide := 1, yscroll := 3, xscroll := 0, bg0 := 6,
             bg1 := 2, bg2 := 7, bg3 := 4, charAddr := 0x1000, videoAddr := 0x0400, bitmapAddr := 0x2000 } :=
  ⟨by decide, by decide, ⟨_, rfl⟩, rfl, rfl⟩

/-- Every flag set at once, in `STOPPED`, and a step from it. -/
theorem witness_FlagsAreNeverCleared :
    ∃ t, step (stoppedState.setCtl ⟨true, true, true, none, none⟩) = .next t := ⟨_, rfl⟩

/-- A fault recorded outside `FAULTED`, which no run reaches, and a step from it. -/
theorem witness_FlagsAreNeverCleared_fault :
    ∃ t, step (borderRow.setCtl ⟨false, true, false, some .addrRange, some ⟨0x10000, 20⟩⟩) = .next t ∧
      (borderRow.setCtl ⟨false, true, false, some .addrRange, some ⟨0x10000, 20⟩⟩).ctl.fault ≠ none :=
  ⟨_, rfl, by decide⟩

theorem witness_OnlyHostWritesHostState : ∃ t, step (withInputs [.engine] borderRow) = .next t ∧
    ∀ w rest, (withInputs [.engine] borderRow).env.inputs ≠ .command w :: rest :=
  ⟨_, rfl, fun _ _ h => by cases h⟩

/-- The same on a bad line with a mode staged, which the step commits. -/
theorem witness_OnlyHostWritesHostState_commit : ∃ t, step (withInputs [.engine] (staged .textMulti inRow)) = .next t ∧
    (t.raster.scheduledMode, t.raster.currentMode) = (none, .textMulti) ∧
    ∀ w rest, (withInputs [.engine] (staged .textMulti inRow)).env.inputs ≠ .command w :: rest :=
  ⟨_, rfl, by decide +kernel, fun _ _ h => by cases h⟩

theorem witness_OutputsOnlyGrow : ∃ t, step borderRow = .next t := ⟨_, rfl⟩

/-- A bad line with a mode staged, and a line that is not bad. -/
theorem witness_BadLineEffectsTogether :
    ((staged .textMulti inRow).AtLine ∧ snapshot (staged .textMulti inRow) = some (snapOf inRow) ∧
      isBadLine (staged .textMulti inRow).seq.line.toNat (snapOf inRow).yscroll = true) ∧
    (borderRow.AtLine ∧ snapshot borderRow = some (snapOf borderRow) ∧
      isBadLine borderRow.seq.line.toNat (snapOf borderRow).yscroll = false) ∧
    (∃ t, engineStep false (staged .textMulti inRow) = .next t) ∧ ∃ t, engineStep false borderRow = .next t :=
  ⟨by decide, by decide, ⟨_, rfl⟩, _, rfl⟩

/-- Line 100 of C4: bad, the target, and in-window; and the invisible line 10, which is not bad. -/
theorem witness_LineStepEventOrder :
    (atLine .running .lineStart 100 (regsOf 0 100 1 0 0 4)).AtLine ∧
    (snapshot (atLine .running .lineStart 100 (regsOf 0 100 1 0 0 4))).isSome = true ∧
    (nextOf (engineStep true (atLine .running .lineStart 100 (regsOf 0 100 1 0 0 4)))).map (·.seq.phase) = some .running ∧
    (atLine .running .lineStart 10 (regsOf 0 100 1 0 0 4)).AtLine ∧ isBadLine 10 4 = false ∧
    (nextOf (engineStep true (atLine .running .lineStart 10 (regsOf 0 100 1 0 0 4)))).map (·.seq.phase) = some .running := by
  decide +kernel

/-- A line that is the target and one that is not. -/
theorem witness_RasterInterruptAtTarget :
    (∃ t, engineStep false (atLine .running .lineStart 0 (regsOf 0 0 0 0 0 4)) = .next t) ∧
    (snapOf (atLine .running .lineStart 0 (regsOf 0 0 0 0 0 4))).rasterTarget = 0 ∧
    (∃ t, engineStep false (atLine .running .lineStart 1 (regsOf 0 511 0 0 0 4)) = .next t) ∧
    (atLine .running .lineStart 1 (regsOf 0 511 0 0 0 4)).AtLine ∧
    snapshot (atLine .running .lineStart 1 (regsOf 0 511 0 0 0 4)) =
      some (snapOf (atLine .running .lineStart 1 (regsOf 0 511 0 0 0 4))) :=
  ⟨⟨_, rfl⟩, by decide, ⟨_, rfl⟩, by decide, by decide⟩

/-- The last line, and the one before it. -/
theorem witness_AdvanceMovesToNextLine :
    lastState.seq.phase = .running ∧ lastState.seq.sub = .advancing ∧
    lastState.seq.line.toNat = lastState.cfg.geo.totalLines - 1 ∧
    (atLine .running .advancing 310 (regsOf 14 400 0 0 0 3)).seq.phase = .running ∧
    (atLine .running .advancing 310 (regsOf 14 400 0 0 0 3)).seq.line.toNat ≠ Config.ex.geo.totalLines - 1 := by decide

theorem witness_AdvanceWaitsForGrant : lastState.seq.phase = .running ∧ lastState.seq.sub = .advancing ∧
    inRow.seq.phase ≠ .faulted ∧ ¬ (inRow.seq.phase = .running ∧ inRow.seq.sub = .advancing) ∧
    stoppedState.seq.phase ≠ .faulted ∧ ¬ (stoppedState.seq.phase = .running ∧ stoppedState.seq.sub = .advancing) := by
  decide

/-- Writes whose instant is left open; a write while the advance is pending, after which it still is; a line step. -/
theorem witness_IntervalWritesSettle : lastState.seq.phase = .running ∧ lastState.seq.sub = .advancing ∧
    (∃ t, engineStep true (lastState.setEnv { lastState.env with lineWrites := [.sys 5 1, .sys 5 2] }) = .next t) ∧
    (∃ t, step (withInputs [.memWrite (.sys 5 1), .grant] lastState) = .next t ∧ t.seq.sub = .advancing) ∧
    inRow.AtLine ∧ ∃ t, engineStep false inRow = .next t :=
  ⟨rfl, rfl, ⟨_, rfl⟩, ⟨_, rfl, rfl⟩, by decide, _, rfl⟩

/-- Each of the values of an interval with two writes is the value at some instant. -/
theorem witness_IntervalWritesSettle_values : (2 : Byte) ∈ [0, 1, 2] ∧
    [0, 1, 2].map (heldValue (0 : Byte) [1, 2]) = [0, 1, 2] ∧ heldValue (7 : Byte) [] 5 = 7 := by decide

/-- R55: the interval of a line holds the writes made while its advance is pending, and none after its grant; a write
before the line step is no write of the interval. -/
theorem test_interval :
    intervalWrites (withInputs [.memWrite (.sys 5 1), .command 0, .engine, .lineWrite (.sys 6 2), .grant,
      .memWrite (.sys 5 3)] inRow).env = [.sys 5 1, .sys 6 2] ∧
    (nextOf (step (withInputs [.memWrite (.sys 5 1), .engine] inRow))).map
      (fun s => (memByte s.env.mem 5, intervalWrites s.env)) = some (1, []) := by decide

theorem witness_StopAtLineBoundary : (stopping inRow).seq.phase = .running ∧ (stopping inRow).seq.sub = .lineStart ∧
    (stopping inRow).ctl.stopReq = true := by decide

theorem witness_StopBeforeStart : (stopping State.reset).seq.phase = .waitReady ∧
    (stopping State.reset).ctl.stopReq = true := by decide

/-- The state after reset meets the invariant. -/
theorem reset_inv : State.reset.Inv where
  line := by decide
  bitmap := by decide
  fault := by decide
  participates := by decide
  ports := by decide
  sub := by decide
  stops := by decide
  waits := by decide
  cycles := by decide
  memory := by decide
  canonical := by decide
  palette := by decide
  painted := fun R _ h => absurd h (by simp [State.reset, State.construct, Sequencer.reset, linesDone])
  publishes := by decide

/-- A state after an accepted `READY`; and the state after reset, before any. -/
theorem witness_StartOnReady :
    ((atLine .waitReady .lineStart 0 (regsOf 14 400 0 0 0 3)).seq.phase = .waitReady ∧
      (atLine .waitReady .lineStart 0 (regsOf 14 400 0 0 0 3)).ctl.ready = true ∧
      (atLine .waitReady .lineStart 0 (regsOf 14 400 0 0 0 3)).ctl.stopReq = false) ∧
    (State.reset.seq.phase = .waitReady ∧ State.reset.ctl.ready = false ∧ State.reset.ctl.stopReq = false) ∧
    State.reset.Inv := ⟨by decide, by decide, reset_inv⟩

/-- Both kinds of frame length, the smallest among them. -/
theorem witness_BadLineDistance : 8 ≤ 312 ∧ 311 < 312 ∧ 312 % 8 = 0 ∧ 8 ≤ 8 ∧ 7 < 8 ∧ 8 ≤ 263 ∧ 256 < 263 ∧
    badLineAfter 263 256 14 7 := by decide

/-- Line 0 with `YSCROLL` 1 and a mode staged: the bad line is one line on, so three steps commit. -/
def waitingMode : State := staged .textMulti (atLine .running .lineStart 0 (regsOf 14 400 0 0 0 1))

theorem witness_ModeCommitsAtFirstBadLine :
    (waitingMode.AtLine ∧ waitingMode.LineInRange ∧ waitingMode.env.inputs = [] ∧
      snapshot waitingMode = some (snapOf waitingMode) ∧ waitingMode.raster.scheduledMode = some .textMulti ∧
      badLineAfter waitingMode.cfg.geo.totalLines waitingMode.seq.line.toNat 1 (snapOf waitingMode).yscroll) ∧
    (∃ t, runSteps 2 waitingMode = .next t) ∧ ∃ t, runSteps (2 * 1 + 1) waitingMode = .next t :=
  ⟨by decide, exists_next (by decide), exists_next (by decide)⟩

theorem window_small (s : State) (hq : intervalWrites s.env = []) (hm : s.env.mem = []) (snap : Snapshot)
    (hv : snap.videoAddr = 0x0400) (hc : snap.charAddr = 0x1000) (hb : snap.bitmapAddr = 0) (r c : Nat) (hr : r < 200)
    (hx : c < 320) : (∃ b, back s .textNormal snap r c = .ok b) ∧ ∃ f, fore s .textNormal snap r c = .ok f := by
  have hn := cellOf_lt hr hx
  have hlt : snap.videoAddr.toNat + cellOf r c < Config.memSize := by rw [hv]; simp [Config.memSize]; omega
  refine ⟨back_total _ hlt, fore_total hlt (fun code h => ?_) (by rw [hb]; decide) hn⟩
  rw [memOracle_quiet hq, hm] at h
  cases h
  simp [hc, memByte, storeRead, memDefault, Config.memSize]
  omega

/-- The first and the last in-window row and a border row beside each; on the first row, the columns at the edges of the
window, and every pixel of it can be computed. -/
theorem witness_LineStepPaintsFinalPixels :
    (inRow.AtLine ∧ snapshot inRow = some (snapOf inRow) ∧ visible inRow.cfg.geo inRow.seq.line.toNat = true ∧
      (snapOf inRow).den = 1 ∧ vExtent inRow.cfg.geo (snapOf inRow).vwide = (36, 236) ∧ inRow.row = 36 ∧
      ([50, 51, 250, 251].map (rowOf inRow.cfg.geo) = [35, 36, 235, 236]) ∧ inRow.InColumns (snapOf inRow) 32 ∧
      inRow.InColumns (snapOf inRow) 351 ∧ ¬ inRow.InColumns (snapOf inRow) 352) ∧
    ∀ x, inRow.InColumns (snapOf inRow) x →
      (∃ b, back inRow (lineMode inRow (snapOf inRow)) (snapOf inRow) inRow.contentRow (x - inRow.cfg.geo.contentX0) = .ok b) ∧
      ∃ f, fore inRow (lineMode inRow (snapOf inRow)) (snapOf inRow) inRow.contentRow (x - inRow.cfg.geo.contentX0) = .ok f := by
  refine ⟨by decide, fun x hx => ?_⟩
  have h2 : x < 352 := hx.2
  have hm : lineMode inRow (snapOf inRow) = .textNormal := by decide
  rw [hm]
  refine window_small inRow rfl rfl _ (by decide) (by decide) (by decide) _ _ (by decide) ?_
  change x - 32 < 320
  omega

/-- A disabled screen; and, with the screen enabled, the rows just outside the vertical extent. -/
theorem witness_BorderRowsFillAndCannotFault :
    borderRow.AtLine ∧ snapshot borderRow = some (snapOf borderRow) ∧
    visible borderRow.cfg.geo borderRow.seq.line.toNat = true ∧ (snapOf borderRow).den = 0 ∧
    (∀ l ∈ [50, 251], ∃ r, r = rowOf Config.ex.geo l ∧
      ¬ ((vExtent Config.ex.geo 0).1 ≤ r ∧ r < (vExtent Config.ex.geo 0).2)) :=
  ⟨by decide, by decide, by decide, by decide, fun l hl => ⟨_, rfl, by revert l; decide⟩⟩

/-- The last line before the visible range, and the first after it. -/
theorem witness_InvisibleLinesDrawNothing :
    (∀ l ∈ [14, 287], ¬ (Config.ex.geo.visFirst ≤ l ∧ l < Config.ex.geo.visFirst + Config.ex.geo.frameH)) ∧
    (atLine .running .lineStart 287 (regsOf 0 100 1 0 0 4)).AtLine ∧
    snapshot (atLine .running .lineStart 287 (regsOf 0 100 1 0 0 4)) =
      some (snapOf (atLine .running .lineStart 287 (regsOf 0 100 1 0 0 4))) := by decide

/-- The columns at the edges of the wide window. -/
theorem witness_BorderStripsCoverOutside : 0 < Config.ex.geo.frameW ∧ 383 < Config.ex.geo.frameW ∧
    ¬ ((hExtent Config.ex.geo 1).1 ≤ 38 ∧ 38 < (hExtent Config.ex.geo 1).2) ∧
    ((hExtent Config.ex.geo 1).1 ≤ 39 ∧ 39 < (hExtent Config.ex.geo 1).2) ∧
    ((hExtent Config.ex.geo 1).1 ≤ 342 ∧ 342 < (hExtent Config.ex.geo 1).2) ∧
    ¬ ((hExtent Config.ex.geo 1).1 ≤ 343 ∧ 343 < (hExtent Config.ex.geo 1).2) := by decide

def blankStart : State := atLine .running .lineStart 0 (regsOf 14 400 0 0 0 3)

theorem witness_BlankFrameIsAllBorder : blankStart.AtLine ∧ blankStart.seq.line = 0 ∧ blankStart.env.inputs = [] ∧
    snapshot blankStart = some (snapOf blankStart) ∧ (snapOf blankStart).den = 0 := by decide

/-- The same line of two frames: the second starts later and over another frame buffer. -/
def inRow2 : State := { inRow.setSeq { inRow.seq with cycle := 23232, frame := 1 } with fb := [(36, [some 3])] }

theorem witness_EqualInputsPaintEqualRows :
    (inRow.AtLine ∧ inRow2.AtLine ∧ inRow.cfg = inRow2.cfg ∧ inRow.seq.line = inRow2.seq.line ∧
      snapshot inRow = some (snapOf inRow) ∧ snapshot inRow2 = some (snapOf inRow) ∧
      lineMode inRow (snapOf inRow) = lineMode inRow2 (snapOf inRow) ∧ intervalWrites inRow.env = [] ∧
      intervalWrites inRow2.env = [] ∧ inRow.env.mem = inRow2.env.mem ∧ inRow.env.color = inRow2.env.color ∧
      inRow.env.draws = inRow2.env.draws ∧ visible inRow.cfg.geo inRow.seq.line.toNat = true) ∧
    ∃ t, engineStep false inRow = .next t ∧ t.seq.phase = .running :=
  ⟨by decide, _, rfl, by decide +kernel⟩

theorem witness_MemReadFaultsAboveMemory : 0x10000 ≤ 0x10000 ∧ 0xFFFF < 0x10000 := by decide

/-- A location that is written in the interval, and one that is not. -/
theorem witness_OracleReadsHeldValue : sysValues [.sys 5 1, .sys 7 3, .sys 5 2] 5 = [1, 2] ∧
    sysValues [.sys 5 1, .sys 7 3, .sys 5 2] 6 = [] ∧ colorValues [.color ⟨999, by decide⟩ 4] 999 = [4] ∧
    colorValues [.color ⟨999, by decide⟩ 4] 998 = [] := by decide

theorem witness_CellsAndPixelOrder : 199 < 200 ∧ 319 < 320 ∧ cellOf 199 319 = 999 ∧ hbit 0x80 0 = true ∧
    hbit 0x01 7 = true ∧ mpair 0xC0 0 = 3 ∧ mpair 0x03 6 = 3 ∧ mpair 0x03 7 = 3 := by decide

theorem witness_BitmapReadNeverFaults : (0xE000 : Addr).extractLsb' 0 13 = 0 ∧ 999 < 1000 ∧ 7 < 8 := by decide

/-- Video byte 0xC1 with a glyph: all four reads answer; the colours 7 and 8 are the last and first of their clauses. -/
theorem witness_TextModePixels :
    fetchVM (cellState .textNormal 0xC1 0x1608 0x1B 8) (snapOf (cellState .textNormal 0 0 0 0)) true 0 (cellOf 0 0) =
      .ok 0xC1 ∧
    fetchCH (cellState .textNormal 0xC1 0x1608 0x1B 8) (snapOf (cellState .textNormal 0 0 0 0)) true 0 0xC1 (0 % 8) =
      .ok 0x1B ∧
    fetchCH (cellState .textExtended 0xC1 0x1008 0xC3 7) (snapOf (cellState .textNormal 0 0 0 0)) true 0 (0xC1 % 64) (0 % 8) =
      .ok 0xC3 ∧
    fetchVM (cellState .textNormal 0xC1 0x1608 0x1B 8) (snapOf (cellState .textNormal 0 0 0 0)) false 0 (cellOf 0 0) =
      .ok 0xC1 ∧
    (fetchCR (cellState .textNormal 0xC1 0x1608 0x1B 8) true 0 (cellOf 0 0)).toNat = 8 ∧
    (fetchCR (cellState .textExtended 0xC1 0x1008 0xC3 7) true 0 (cellOf 0 0)).toNat = 7 ∧
    [mpair 0x1B 0, mpair 0x1B 2, mpair 0x1B 4, mpair 0x1B 6] = [0, 1, 2, 3] := by decide

/-- The four values of the two high bits of the video byte. -/
theorem witness_TextModePixels_background :
    [0x3F, 0x40, 0x7F, 0x80, 0xBF, 0xC0].map (fun v : Byte => v.toNat / 64) = [0, 1, 1, 2, 2, 3] := by decide

theorem witness_BitmapModePixels :
    fetchVM (cellState .bitmapMulti 0x25 0x2000 0x1B 9) (snapOf (cellState .bitmapMulti 0 0 0 0)) true 0 (cellOf 0 0) =
      .ok 0x25 ∧
    fetchBM (cellState .bitmapMulti 0x25 0x2000 0x1B 9) (snapOf (cellState .bitmapMulti 0 0 0 0)) true 0 (cellOf 0 0) (0 % 8) =
      .ok 0x1B ∧
    fetchVM (cellState .bitmapMulti 0x25 0x2000 0x1B 9) (snapOf (cellState .bitmapMulti 0 0 0 0)) false 0 (cellOf 0 0) =
      .ok 0x25 ∧
    [mpair 0x1B 0, mpair 0x1B 2, mpair 0x1B 4, mpair 0x1B 6] = [0, 1, 2, 3] := by decide

/-- A fault in a foreground read, and one in a background read. -/
theorem witness_FaultEndsTheEngine :
    ((p4 .textNormal 0).AtLine ∧ ∃ t, engineStep false (p4 .textNormal 0) = .next t ∧ t.seq.phase = .faulted) ∧
    (p4 .textExtended 0).AtLine ∧ ∃ t, engineStep false (p4 .textExtended 0) = .next t ∧ t.seq.phase = .faulted :=
  ⟨⟨by decide, _, rfl, by decide +kernel⟩, by decide, _, rfl, by decide +kernel⟩

/-- Cell 999 out of range, and the same line with the wide border, where no cell is. -/
theorem witness_FaultsExactlyWhenOutOfRange :
    (p4 .textNormal 0).AtLine ∧ (p4 .textNormal 0).BitmapAligned ∧
    snapshot (p4 .textNormal 0) = some (snapOf (p4 .textNormal 0)) ∧
    (p4 .textNormal 0).InWindow (snapOf (p4 .textNormal 0)) ∧ intervalWrites (p4 .textNormal 0).env = [] ∧
    (p4 .textNormal 0).InColumns (snapOf (p4 .textNormal 0)) 344 ∧
    0x10000 ≤ 0xFC19 + cellOf (p4 .textNormal 0).contentRow (344 - 32) ∧
    (p4 .textNormal 1).AtLine ∧ snapshot (p4 .textNormal 1) = some (snapOf (p4 .textNormal 1)) ∧
    (p4 .textNormal 1).InWindow (snapOf (p4 .textNormal 1)) := by decide

/-- The glyph of cell 0 out of range on line 58 (family F), in a text mode, and not in TextExtended. -/
theorem witness_FaultsExactlyWhenOutOfRange_glyph :
    0x10000 ≤ 0xF801 + 7 % 8 + 8 * (memByte [(0x0400, 0xFF)] 0x0400).toNat ∧
    ¬ 0x10000 ≤ 0xF801 + 7 % 8 + 8 * ((memByte [(0x0400, 0xFF)] 0x0400).toNat % 64) ∧
    0x10000 ≤ 0xFE01 + 7 % 8 + 8 * ((memByte [(0x0400, 0xFF)] 0x0400).toNat % 64) := by decide

/-- The largest addresses that never fault, on the line of cell 999. -/
def roomy : State := inMode .textNormal 0xF800 0xFC18 0xE000 (atLine .running .lineStart 243 (regsOf 14 400 1 0 0 3))

theorem witness_RoomyAddressesNeverFault :
    roomy.AtLine ∧ roomy.BitmapAligned ∧ snapshot roomy = some (snapOf roomy) ∧
    (snapOf roomy).videoAddr.toNat ≤ 0xFC18 ∧ (snapOf roomy).charAddr.toNat ≤ 0xF800 := by decide

end Sys2Proof.Tests
end

section
/-! PROOFS. The outputs of the machine only grow (R10, R56). -/

namespace Sys2Proof.Machine

/-- `p` is `o` with events and response words added at the end. -/
def Outputs.GrowsTo (o p : Outputs) : Prop :=
  (∃ es, p.trace = o.trace ++ es) ∧ ∃ rs, p.responses = o.responses ++ rs

theorem Outputs.GrowsTo.refl (o : Outputs) : o.GrowsTo o :=
  ⟨⟨[], (List.append_nil _).symm⟩, [], (List.append_nil _).symm⟩

theorem Outputs.GrowsTo.of_eq {o p : Outputs} (h : p = o) : o.GrowsTo p := h ▸ .refl o

theorem Outputs.GrowsTo.of_trace {o p : Outputs} {es : List Event} (ht : p.trace = o.trace ++ es)
    (hr : p.responses = o.responses) : o.GrowsTo p :=
  ⟨⟨es, ht⟩, [], by rw [hr, List.append_nil]⟩

theorem State.emit_outputs_grow (s : State) (e : Event) : s.out.GrowsTo (s.emit e).out :=
  .of_trace rfl rfl

theorem State.respond_outputs_grow (s : State) (r : Response) : s.out.GrowsTo (s.respond r).out :=
  ⟨⟨[], (List.append_nil _).symm⟩, [r], rfl⟩

theorem renderStep_outputs_grow (snap : Snapshot) (s : State) : s.out.GrowsTo (renderStep snap s).out := by
  obtain ⟨-, -, -, -, -, hresp, -, -, -, ⟨_, htrace, -⟩, -⟩ := renderStep_fields snap s
  exact .of_trace htrace hresp

theorem advanceDone_outputs_grow (s : State) : s.out.GrowsTo (advanceDone s).out := by
  obtain ⟨-, -, -, hresp, -, -, -, ⟨_, htrace, -⟩, -⟩ := advanceDone_fields s
  exact .of_trace htrace hresp

/-- A command adds at most a response word. -/
theorem exec_outputs_grow {i : Instr} {s t : State} (h : exec i s = .next t) : s.out.GrowsTo t.out := by
  obtain ⟨-, ⟨_, rfl, -⟩ | ⟨_, rfl, -⟩ | ⟨r, rfl⟩ | ⟨_, rfl, -⟩⟩ := exec_next_cases h
  · exact .of_eq (State.setRaster_out ..)
  · exact .of_eq (State.setCtl_out ..)
  · exact s.respond_outputs_grow r
  · exact .of_eq (State.setRegs_out ..)

/-- The other agents' steps add events only. -/
theorem AgentStep.outputs_grow {s t : State} (h : AgentStep s t) : s.out.GrowsTo t.out := by
  cases h with
  | wait _ h => exact .of_eq (congrArg State.out h)
  | stopWaiting _ _ h => subst h; exact State.emit_outputs_grow _ .stopped
  | start _ _ _ h => subst h; exact s.emit_outputs_grow .resume
  | stop _ _ _ h => subst h; exact State.emit_outputs_grow _ .stopped
  | line _ snap _ h => subst h; exact renderStep_outputs_grow snap s
  | advance _ _ h => subst h; exact advanceDone_outputs_grow s
  | memWrite _ _ h => subst h; exact .of_eq (State.setEnv_out ..)
  | lineWrite _ _ h => subst h; exact .of_eq (State.setEnv_out ..)

/-- Taking the input off the list leaves the outputs alone, and whatever the input then does only adds to them. -/
theorem step_outputs_grow {s t : State} (h : step s = .next t) : s.out.GrowsTo t.out := by
  obtain ⟨rest, hcases⟩ := step_cases h
  rw [← s.setEnv_out { s.env with inputs := rest }]
  obtain ⟨_, hexec⟩ | ⟨-, reason, rfl⟩ | hagent := hcases
  · exact exec_outputs_grow hexec
  · exact .of_eq (by rw [refuse_eq, State.setCtl_out])
  · exact hagent.outputs_grow

/-- Settles O30, by the case split of `step_cases`: a command, a refused word, or a step of another agent. -/
theorem outputsOnlyGrow : Obligations.OutputsOnlyGrow := by
  unfold Obligations.OutputsOnlyGrow
  exact fun _ _ h => step_outputs_grow h

end Sys2Proof.Machine
end

section
/-! PROOFS. Every step keeps the machine's invariant (R33, R39, R104, R119, R121, R122). -/

namespace Sys2Proof.Machine

/-! ### The invariant under one state update -/

/-- The environment enters the invariant by its two memories only. -/
theorem State.Inv.setEnv {s : State} (h : s.Inv) {e : Environment} (he : EnvWf e) : (s.setEnv e).Inv :=
  { h with memory := he }

theorem State.Inv.setRaster {s : State} (h : s.Inv) {r : RasterState} (hr : r.bitmapAddr.extractLsb' 0 13 = 0) :
    (s.setRaster r).Inv :=
  { h with bitmap := hr }

theorem State.Inv.setRegs {s : State} (h : s.Inv) {r : PortRegs} (hr : allSet s.regs = true → allSet r = true) :
    (s.setRegs r).Inv :=
  { h with ports := h.ports.imp_right fun hset hready => hr (hset hready) }

theorem State.Inv.setCtl {s : State} (h : s.Inv) {c : ControlFlags} (hfault : c.fault = s.ctl.fault)
    (hinfo : c.faultInfo = s.ctl.faultInfo) (hstop : s.ctl.stopReq = true → c.stopReq = true)
    (hready : s.ctl.ready = true → c.ready = true) (hset : c.ready = true → s.ctl.ready = true ∨ allSet s.regs = true) :
    (s.setCtl c).Inv :=
  { h with
    fault := by
      have hf := h.fault
      simp only [State.FaultMatches, State.setCtl_ctl, State.setCtl_seq] at hf ⊢
      rwa [hfault, hinfo]
    ports := ⟨fun hp => hready (h.ports.1 hp), fun hc => (hset hc).elim h.ports.2 id⟩
    stops := fun hp => hstop (h.stops hp) }

theorem State.Inv.respond {s : State} (h : s.Inv) (r : Response) : (s.respond r).Inv := { h with }

/-- Events that publish no frame leave the count of the published frames alone. -/
theorem State.PublishesComplete.append {s t : State} (h : s.PublishesComplete) {es : List Event}
    (htrace : t.out.trace = s.out.trace ++ es) (hes : publishedFrames es = []) (hseq : t.seq.frame = s.seq.frame)
    (hcfg : t.cfg = s.cfg) : t.PublishesComplete := by
  unfold State.PublishesComplete
  rw [htrace, publishedFrames_append, hes, List.append_nil, hseq, hcfg]
  exact h

theorem State.Inv.emit {s : State} (h : s.Inv) {e : Event} (he : publishedFrames [e] = []) : (s.emit e).Inv :=
  { h with publishes := h.publishes.append (State.emit_out s e ▸ rfl) he rfl rfl }

/-- The engine may move to `RUNNING` or `STOPPED` when the flags and the sub-position allow the phase. -/
theorem State.Inv.setPhase {s : State} (h : s.Inv) (halive : s.seq.phase ≠ .faulted) {p : Phase} {b : Bool}
    (hp : p = .running ∨ p = .stopped) (hb : b = true ↔ p = .running) (hready : p = .running → s.ctl.ready = true)
    (hsub : s.seq.sub = .advancing → p = .running) (hstop : p = .stopped → s.ctl.stopReq = true) :
    (s.setSeq { s.seq with phase := p, participating := b }).Inv :=
  have hlive : p ≠ .faulted := by rcases hp with rfl | rfl <;> decide
  { h with
    fault := ⟨iff_of_false (mt h.fault.1.mp halive) hlive, h.fault.2⟩
    participates := hb.trans (or_iff_left hlive).symm
    ports := ⟨hready, h.ports.2⟩
    sub := hsub
    stops := hstop
    waits := by rintro rfl; simp at hp
    palette := fun _ => h.palette halive }

/-! ### The invariant under a command -/

theorem exec_keeps_inv {i : Instr} {s t : State} (h : s.Inv) (hexec : exec i s = .next t) : t.Inv := by
  obtain ⟨-, ⟨r, rfl, -, hbitmap⟩ | ⟨c, rfl, hfault, hinfo, hstop, -, hready, hset⟩ | ⟨r, rfl⟩ | ⟨r, rfl, hset⟩⟩ :=
    exec_next_cases hexec
  · exact h.setRaster (hbitmap.elim (fun heq => heq ▸ h.bitmap) id)
  · exact h.setCtl hfault hinfo hstop hready hset
  · exact h.respond r
  · exact h.setRegs hset

theorem refuse_keeps_inv {s : State} (h : s.Inv) (reason : RefuseReason) : (refuse reason s).Inv :=
  h.setCtl rfl rfl id id .inl

/-! ### The invariant under starting and stopping -/

theorem State.Inv.not_advancing {s : State} (h : s.Inv) (hp : s.seq.phase ≠ .running) : s.seq.sub ≠ .advancing :=
  mt h.sub hp

theorem stopWaiting_keeps_inv {s : State} (h : s.Inv) (hp : s.seq.phase = .waitReady) (hstop : s.ctl.stopReq = true) :
    (stopWaiting s).Inv := by
  have hidle : s.seq.participating ≠ true := mt h.participates.mp (by simp [hp])
  refine State.Inv.emit (State.Inv.setPhase h (by simp [hp]) (.inr rfl) ?_ ?_ ?_ fun _ => hstop) rfl
  · simpa using hidle
  · simp
  · exact fun hsub => absurd hsub (h.not_advancing (by simp [hp]))

theorem start_keeps_inv {s : State} (h : s.Inv) (hp : s.seq.phase = .waitReady) (hready : s.ctl.ready = true) :
    (start s).Inv :=
  State.Inv.setPhase (h.emit rfl) (by simp [hp]) (.inl rfl) (by simp) (fun _ => hready) (fun _ => rfl) (by simp)

theorem stop_keeps_inv {s : State} (h : s.Inv) (hp : s.seq.phase = .running) (hsub : s.seq.sub = .lineStart)
    (hstop : s.ctl.stopReq = true) : (stop s).Inv :=
  (h.setPhase (by simp [hp]) (.inr rfl) (by simp) (by simp) (by simp [hsub]) fun _ => hstop).emit rfl

/-! ### The invariant under a line step -/

theorem beforeRender_keeps_inv {s : State} (h : s.Inv) (snap : Snapshot) : (beforeRender snap s).Inv := by
  cases hbad : isBadLine s.seq.line.toNat snap.yscroll with
  | false => rwa [beforeRender_good hbad]
  | true =>
    rw [beforeRender_bad hbad]
    exact (h.emit rfl).setRaster ((committed_bitmapAddr _).symm ▸ h.bitmap)

/-- A row that is listed is sound, and one that is not has no pixel. -/
theorem fbRow_sound {top w : Nat} {fb : FrameBuffer} (h : ∀ p ∈ fb, rowSound top w p.2) (R : Nat) :
    rowSound top w (fbRow fb R) := by
  unfold fbRow storeRead
  cases hfind : storeFind fb R with
  | none => exact ⟨Nat.zero_le w, by simp⟩
  | some row => exact h _ (storeFind_mem hfind)

/-- Rendering keeps the rows of the frame buffer sound, for indices it may write. -/
theorem RenderFrame.sound {top top' : Nat} {s t : State} (h : RenderFrame top s t) (htop : top ≤ top')
    (hs : ∀ p ∈ s.fb, rowSound top' s.cfg.geo.frameW p.2) : ∀ p ∈ t.fb, rowSound top' s.cfg.geo.frameW p.2 := by
  rcases h.fb with heq | ⟨-, row, heq, hgrows⟩
  · rwa [heq]
  · rw [heq]
    exact storeWrite_forall _ _ _ hs fun _ => (hgrows.mono htop).sound (fbRow_sound hs _)

theorem RenderFrame.canonical {top : Nat} {s t : State} (h : RenderFrame top s t) (htop : top ≤ 17)
    (hs : FrameBuffer.Canonical s.cfg.geo s.fb) : FrameBuffer.Canonical s.cfg.geo t.fb := by
  have hsound := h.sound htop fun p hp => (hs.2 p hp).2.2
  rcases h.fb with heq | ⟨hv, row, heq, -⟩
  · rwa [heq]
  · refine ⟨heq ▸ storeRising_write _ _ _ hs.1, fun p hp => ?_⟩
    have hplace : p.1 < s.cfg.geo.frameH ∧ p.2 ≠ [] :=
      storeWrite_forall (P := fun p => p.1 < s.cfg.geo.frameH ∧ p.2 ≠ []) [] _ row
        (fun p hp => ⟨(hs.2 p hp).1, (hs.2 p hp).2.1⟩) (fun hne => ⟨(rowOf_lt hv).1, hne⟩) p
        (by rwa [heq] at hp)
    exact ⟨hplace.1, hplace.2, hsound p hp⟩

/-- A painted row stays painted. -/
theorem RenderFrame.rowComplete {top : Nat} {s t : State} (h : RenderFrame top s t) {R : Nat}
    (hR : rowComplete s.cfg.geo.frameW (fbRow s.fb R)) : rowComplete s.cfg.geo.frameW (fbRow t.fb R) := by
  rcases h.fb with heq | ⟨-, row, heq, hgrows⟩
  · rwa [heq]
  · rw [heq, fbRow_setRow]
    split
    · next hrow => exact hgrows.complete (hrow ▸ hR)
    · exact hR

theorem RenderFrame.publishes {top : Nat} {s t : State} (h : RenderFrame top s t) (hs : s.PublishesComplete) :
    t.PublishesComplete := by
  obtain ⟨es, htrace, hes⟩ := h.trace
  exact hs.append htrace hes (by rw [h.seq]) h.cfg

theorem RenderFrame.painted {top : Nat} {s t : State} (h : RenderFrame top s t) (hs : s.PaintedSoFar) :
    t.PaintedSoFar := by
  unfold State.PaintedSoFar
  rw [h.cfg, h.seq]
  exact fun R hR hdone => h.rowComplete (hs R hR hdone)

theorem RenderFrame.memory {top : Nat} {s t : State} (h : RenderFrame top s t) (hs : s.MemoryCanonical) :
    t.MemoryCanonical := by
  unfold State.MemoryCanonical
  rwa [h.mem, h.color]

/-- Rendering that completes keeps the invariant. -/
theorem RenderFrame.keeps_inv {s t : State} (h : RenderFrame 15 s t) (hs : s.Inv) : t.Inv := by
  have hmemory := h.memory hs.memory
  have hcanonical := h.canonical (by decide) hs.canonical
  have hsound := fun hp => h.sound le_rfl (hs.palette hp)
  have hpainted := h.painted hs.painted
  have hpublishes := h.publishes hs.publishes
  cases t
  obtain ⟨rfl, rfl, rfl, rfl, rfl, -⟩ := h
  exact { hs with
    memory := hmemory, canonical := hcanonical, palette := hsound, painted := hpainted, publishes := hpublishes }

/-- Rendering that faults ends in a state of the invariant, the line's row being any value (U4). -/
theorem RenderFrame.raiseFault_inv {s t : State} (h : RenderFrame 17 s t) (hs : s.Inv) (hp : s.seq.phase = .running)
    (hsub : s.seq.sub = .lineStart) (code : FaultCode) (addr : Nat) : (raiseFault code addr t).Inv := by
  have hmemory := h.memory hs.memory
  have hcanonical := h.canonical (by decide) hs.canonical
  have hpainted := h.painted hs.painted
  have hpublishes : (raiseFault code addr t).PublishesComplete := (h.publishes hs.publishes).append rfl rfl rfl rfl
  cases t
  obtain ⟨rfl, rfl, rfl, rfl, rfl, -⟩ := h
  exact { hs with
    fault := ⟨iff_of_true rfl rfl, rfl⟩
    participates := iff_of_true (hs.participates.mpr (.inl hp)) (.inr rfl)
    ports := ⟨nofun, hs.ports.2⟩
    sub := fun hadv => absurd (hsub.symm.trans hadv) (by decide)
    stops := nofun
    waits := nofun
    memory := hmemory
    canonical := hcanonical
    palette := fun halive => absurd rfl halive
    painted := hpainted
    publishes := hpublishes }

/-- Asking for the advance keeps the invariant, the line's row being painted if the line is visible (R96, R119). -/
theorem requestAdvance_keeps_inv {s : State} (h : s.Inv) (hp : s.seq.phase = .running)
    (hrow : visible s.cfg.geo s.seq.line.toNat = true → rowComplete s.cfg.geo.frameW (fbRow s.fb s.row)) :
    (requestAdvance s).Inv := by
  have hpainted : (requestAdvance s).PaintedSoFar := by
    intro R hR hdone
    simp only [linesDone, requestAdvance_cfg, requestAdvance_seq, requestAdvance_fb, if_true] at hR hdone ⊢
    by_cases hline : s.cfg.geo.visFirst + R = s.seq.line.toNat
    · have hR' : R = s.row := by unfold State.row rowOf; omega
      exact hR' ▸ hrow (visible_iff.mpr (by omega))
    · refine h.painted R hR (hdone.imp_right fun hlt => ?_)
      unfold linesDone
      omega
  exact { h.emit (e := .advance Config.cyclesPerLine) rfl with sub := fun _ => hp, painted := hpainted }

theorem renderStep_keeps_inv {s : State} (h : s.Inv) (hat : s.AtLine) (snap : Snapshot) : (renderStep snap s).Inv := by
  obtain ⟨hp, hsub, -⟩ := hat
  obtain ⟨hcfg, hseq, -⟩ := beforeRender_fields snap s
  have hbefore := beforeRender_keeps_inv h snap
  obtain ⟨_, u, hu, ⟨rfl, heq, hrow⟩ | ⟨rfl, a, heq⟩⟩ := renderStep_frame snap s
  · have hucfg : u.cfg = s.cfg := hu.cfg.trans hcfg
    have huseq : u.seq = s.seq := hu.seq.trans hseq
    rw [heq]
    refine requestAdvance_keeps_inv (hu.keeps_inv hbefore) (huseq ▸ hp) ?_
    simpa only [State.row, hucfg, huseq] using hrow
  · rw [heq]
    exact hu.raiseFault_inv hbefore (hseq ▸ hp) (hseq ▸ hsub) ..

/-! ### The invariant under an advance -/

theorem settleWrites_keeps_inv {s : State} (h : s.Inv) : (settleWrites s).Inv :=
  h.setEnv (EnvWf_applyWrites s.env.lineWrites h.memory)

/-- After the line step of the last line every row of the frame is painted, with indices 0 to 15 (R121, R122). -/
theorem State.Inv.frame_complete {s : State} (h : s.Inv) (hp : s.seq.phase = .running) (hsub : s.seq.sub = .advancing)
    (hlast : s.seq.line.toNat = s.cfg.geo.totalLines - 1) : FrameBuffer.Complete s.cfg.geo s.fb := by
  obtain ⟨-, -, -, hvis, -⟩ := s.cfg.ok
  refine fun R hR => ⟨fbRow_sound (h.palette (by simp [hp])) R, h.painted R hR (.inr ?_)⟩
  simp only [linesDone, hsub, if_true]
  omega

/-- The cycle count stays right when one line's cycles are added and one more line is behind the engine (R19, R97). -/
theorem State.CycleCounts.advance {s t : State} (h : s.CycleCounts)
    (hcycle : t.seq.cycle = s.seq.cycle + Config.cyclesPerLine) (hcfg : t.cfg = s.cfg)
    (hlines : t.seq.frame * s.cfg.geo.totalLines + t.seq.line.toNat =
      s.seq.frame * s.cfg.geo.totalLines + s.seq.line.toNat + 1) : t.CycleCounts := by
  unfold State.CycleCounts at h ⊢
  rw [hcycle, hcfg, hlines, h, Nat.mul_succ]

theorem State.PublishesComplete.publish {s t : State} (h : s.PublishesComplete) {fb : FrameBuffer}
    (htrace : t.out.trace = s.out.trace ++ [.publish fb]) (hfb : FrameBuffer.Complete s.cfg.geo fb)
    (hseq : t.seq.frame = s.seq.frame + 1) (hcfg : t.cfg = s.cfg) : t.PublishesComplete := by
  have hframes : publishedFrames t.out.trace = publishedFrames s.out.trace ++ [fb] := by
    rw [htrace, publishedFrames_append]; rfl
  unfold State.PublishesComplete
  rw [hframes, hseq, hcfg, List.length_append, h.1]
  refine ⟨rfl, fun fb' hmem => ?_⟩
  rcases List.mem_append.mp hmem with hold | hnew
  · exact h.2 fb' hold
  · exact List.mem_singleton.mp hnew ▸ hfb

/-- The publication that ends a frame (R97, R98). -/
theorem advanceDone_last_inv {s : State} (h : s.Inv) (hp : s.seq.phase = .running) (hsub : s.seq.sub = .advancing)
    (hlast : s.seq.line.toNat = s.cfg.geo.totalLines - 1) : (advanceDone s).Inv := by
  obtain ⟨hpos, -⟩ := s.cfg.ok
  have hcomplete := h.frame_complete hp hsub hlast
  rw [advanceDone_last hlast]
  exact { settleWrites_keeps_inv h with
    line := hpos
    sub := nofun
    waits := fun hw => absurd (hp.symm.trans hw) (by decide)
    cycles := State.CycleCounts.advance h.cycles rfl rfl (by
      show (s.seq.frame + 1) * s.cfg.geo.totalLines + 0 = _
      rw [Nat.succ_mul]; omega)
    painted := fun R hR _ => (hcomplete R hR).2
    publishes := h.publishes.publish rfl hcomplete rfl rfl }

/-- The advance to the next line of a frame (R97). -/
theorem advanceDone_next_inv {s : State} (h : s.Inv) (hp : s.seq.phase = .running) (hsub : s.seq.sub = .advancing)
    (hnext : s.seq.line.toNat ≠ s.cfg.geo.totalLines - 1) : (advanceDone s).Inv := by
  have hrange := h.line
  have hline : (s.seq.line + 1).toNat = s.seq.line.toNat + 1 := by
    have hmove := (advanceDone_line hrange).1
    rw [advanceDone_next hnext, Nat.mod_eq_of_lt (by omega)] at hmove
    exact hmove
  rw [advanceDone_next hnext]
  exact { settleWrites_keeps_inv h with
    line := by
      simp only [State.LineInRange, State.setSeq_seq, State.setSeq_cfg, settleWrites_cfg, hline]
      omega
    sub := nofun
    waits := fun hw => absurd (hp.symm.trans hw) (by decide)
    cycles := State.CycleCounts.advance h.cycles rfl rfl (by simp only [State.setSeq_seq, hline]; rfl)
    painted := fun R hR hdone => h.painted R hR (hdone.imp_right fun hlt => by
      simpa only [linesDone, State.setSeq_seq, State.setSeq_cfg, settleWrites_cfg, hline, hsub, if_true, reduceCtorEq,
        if_false, Nat.add_zero] using hlt) }

theorem advanceDone_keeps_inv {s : State} (h : s.Inv) (hp : s.seq.phase = .running) (hsub : s.seq.sub = .advancing) :
    (advanceDone s).Inv := by
  by_cases hlast : s.seq.line.toNat = s.cfg.geo.totalLines - 1
  · exact advanceDone_last_inv h hp hsub hlast
  · exact advanceDone_next_inv h hp hsub hlast

/-! ### The invariant under every step -/

theorem AgentStep.keeps_inv {s t : State} (hagent : AgentStep s t) (h : s.Inv) : t.Inv := by
  cases hagent with
  | wait _ heq => exact heq ▸ h
  | stopWaiting hp hstop heq => exact heq ▸ stopWaiting_keeps_inv h hp hstop
  | start hp _ hready heq => exact heq ▸ start_keeps_inv h hp hready
  | stop hp hsub hstop heq => exact heq ▸ stop_keeps_inv h hp hsub hstop
  | line hat snap _ heq => exact heq ▸ renderStep_keeps_inv h hat snap
  | advance hp hsub heq => exact heq ▸ advanceDone_keeps_inv h hp hsub
  | memWrite _ m heq => exact heq ▸ h.setEnv (EnvWf_applyWrite m h.memory)
  | lineWrite _ m heq => exact heq ▸ h.setEnv h.memory

/-- Taking the input off the list keeps the invariant, and so does whatever the input then does. -/
theorem step_keeps_inv {s t : State} (h : s.Inv) (hstep : step s = .next t) : t.Inv := by
  obtain ⟨rest, hcases⟩ := step_cases hstep
  have htaken : (s.setEnv { s.env with inputs := rest }).Inv := h.setEnv h.memory
  obtain ⟨_, hexec⟩ | ⟨-, reason, rfl⟩ | hagent := hcases
  · exact exec_keeps_inv htaken hexec
  · exact refuse_keeps_inv htaken reason
  · exact hagent.keeps_inv htaken

/-- Settles O25, by the case split of `step_cases`; the line step and the advance carry the frame buffer's clauses. -/
theorem stepKeepsInvariant : Obligations.StepKeepsInvariant := by
  unfold Obligations.StepKeepsInvariant
  exact fun _ _ h hstep => step_keeps_inv h hstep

end Sys2Proof.Machine
end

section
/-! PROOFS. What a host command may write (R34), command by command. -/

namespace Sys2Proof.Machine

/-- The state a command leaves in every phase but `FAULTED` (R71 to R85). -/
def commandEffect (i : Instr) (s : State) : State :=
  match i with
  | .setAddr c v b => s.setRaster { s.raster with charAddr := c, videoAddr := v, bitmapAddr := maskBitmap b }
  | .setMode b e m => s.setRaster { s.raster with scheduledMode := some (resolveMode b e m) }
  | .term => requestStop s
  | .getLine => s.respond (s.seq.line.setWidth 16)
  | .ready => if allSet s.regs then setReady s else refuse .unsetRegister s
  | .wrBorder c => s.setRegs { s.regs with border := some c }
  | .wrRaster t => s.setRegs { s.regs with rasterTarget := some t }
  | .rdRaster => s.respond (s.seq.line.setWidth 16)
  | .wrDen v => s.setRegs { s.regs with den := some v }
  | .wrVwide v => s.setRegs { s.regs with vwide := some v }
  | .wrHwide v => s.setRegs { s.regs with hwide := some v }
  | .wrYscroll v => s.setRegs { s.regs with yscroll := some v }
  | .wrXscroll v => s.setRegs { s.regs with xscroll := some v }
  | .wrBg x c => s.setRegs (writeBg x c s.regs)

theorem exec_eq_hostStep (i : Instr) (s : State) : exec i s = hostStep s (commandEffect i s) := by
  cases i
  case setAddr c v b => simp only [exec, execSetAddr, startFrame_eq, commandEffect]
  all_goals rfl

theorem exec_next_iff {i : Instr} {s t : State} :
    exec i s = .next t ↔ s.seq.phase ≠ .faulted ∧ t = commandEffect i s := by
  rw [exec_eq_hostStep, hostStep_next_iff]

/-- `READY` writes the ready flag or the refusal mark and no other state (R75). -/
theorem commandEffect_ready (s : State) :
    ∃ r f, commandEffect .ready s = s.setCtl { s.ctl with ready := r, refused := f } := by
  simp only [commandEffect]
  split
  · unfold setReady
    split
    · exact ⟨_, _, rfl⟩
    · exact ⟨_, _, rfl⟩
  · exact ⟨_, _, rfl⟩

/-- A background write leaves the other register-port fields alone (R85). -/
theorem writeBg_eq (x : BitVec 2) (c : Nibble) (r : PortRegs) :
    ∃ b0 b1 b2 b3, writeBg x c r = { r with bg0 := b0, bg1 := b1, bg2 := b2, bg3 := b3 } := by
  unfold writeBg
  repeat' split
  all_goals exact ⟨_, _, _, _, rfl⟩

/-- Settles O22: each command writes its own register, flag or response, and every other one is equal before and
after. -/
theorem commandWriteRights : Obligations.CommandWriteRights := by
  unfold Obligations.CommandWriteRights
  intro i s t h
  obtain ⟨-, rfl⟩ := exec_next_iff.mp h
  cases i
  case ready =>
    obtain ⟨r, f, heq⟩ := commandEffect_ready s
    simp [heq]
  case wrBg x c =>
    obtain ⟨b0, b1, b2, b3, heq⟩ := writeBg_eq x c s.regs
    simp [commandEffect, heq]
  all_goals simp [commandEffect, requestStop]

end Sys2Proof.Machine
end

section
/-! PROOFS. The block's invariants (R33). -/

namespace Sys2Proof.Machine

/-- A commit changes nothing, or it clears the staged mode and makes it the current one (R94). -/
theorem committed_cases (r : RasterState) :
    committed r = r ∨ (committed r).scheduledMode = none ∧ r.scheduledMode = some (committed r).currentMode := by
  unfold committed
  split
  · next v hv => exact .inr ⟨rfl, hv⟩
  · exact .inl rfl

/-- A line step leaves RasterState alone, or its line is bad and it commits the staged mode (R92, R94). -/
theorem renderStep_raster_cases (snap : Snapshot) (s : State) :
    (renderStep snap s).raster = s.raster ∨
      isBadLine s.seq.line.toNat snap.yscroll = true ∧ (renderStep snap s).raster.scheduledMode = none ∧
        s.raster.scheduledMode = some (renderStep snap s).raster.currentMode := by
  obtain ⟨-, -, -, -, -, -, -, -, hraster, -⟩ := renderStep_fields snap s
  rw [hraster]
  split
  · next hbad => exact (committed_cases s.raster).imp_right fun hcommit => ⟨hbad, hcommit⟩
  · exact .inl rfl

/-- A line step never writes the bitmap address. -/
theorem renderStep_bitmapAddr (snap : Snapshot) (s : State) :
    (renderStep snap s).raster.bitmapAddr = s.raster.bitmapAddr := by
  obtain ⟨-, -, -, -, -, -, -, -, hraster, -⟩ := renderStep_fields snap s
  rw [hraster]
  split
  · exact committed_bitmapAddr _
  · rfl

/-- What R33 says of a step from `s` to `t`. -/
def BlockStep (s t : State) : Prop :=
  (s.LineInRange → t.LineInRange) ∧
  (s.BitmapAligned → t.BitmapAligned) ∧
  (t.raster.currentMode ≠ s.raster.currentMode →
    s.AtLine ∧ ∃ snap, snapshot s = some snap ∧ isBadLine s.seq.line.toNat snap.yscroll = true ∧
      s.raster.scheduledMode = some t.raster.currentMode ∧ t.raster.scheduledMode = none) ∧
  ∀ R c, fbFind t.fb R c ≠ fbFind s.fb R c →
    s.AtLine ∧ visible s.cfg.geo s.seq.line.toNat = true ∧ R = s.row

/-- A step that keeps the current mode and the frame buffer has only the two registers to account for. -/
theorem BlockStep.of_kept {s t : State} (hline : s.LineInRange → t.LineInRange)
    (hbitmap : s.BitmapAligned → t.BitmapAligned) (hmode : t.raster.currentMode = s.raster.currentMode)
    (hfb : t.fb = s.fb) : BlockStep s t :=
  ⟨hline, hbitmap, fun hne => absurd hmode hne, fun _ _ hne => absurd (hfb ▸ rfl) hne⟩

theorem exec_blockStep {i : Instr} {s t : State} (h : exec i s = .next t) : BlockStep s t := by
  obtain ⟨-, ⟨r, rfl, hmode, hbitmap⟩ | ⟨c, rfl, -⟩ | ⟨r, rfl⟩ | ⟨r, rfl, -⟩⟩ := exec_next_cases h
  · exact .of_kept id (fun hs => hbitmap.elim (fun heq => by rwa [State.BitmapAligned, State.setRaster_raster, heq]) id)
      hmode rfl
  · exact .of_kept id id rfl rfl
  · exact .of_kept id id rfl rfl
  · exact .of_kept id id rfl rfl

/-- The line step is where the mode and the pixels may change (R90). -/
theorem renderStep_blockStep {s : State} (hat : s.AtLine) {snap : Snapshot} (hsnap : snapshot s = some snap) :
    BlockStep s (renderStep snap s) := by
  obtain ⟨-, hcfg, -, -, -, -, hline, -, -, -, hfb⟩ := renderStep_fields snap s
  refine ⟨fun h => ?_, fun h => ?_, fun hne => ?_, fun R c hne => ?_⟩
  · rwa [State.LineInRange, hline, hcfg]
  · rwa [State.BitmapAligned, renderStep_bitmapAddr]
  · obtain heq | ⟨hbad, hnone, hstaged⟩ := renderStep_raster_cases snap s
    · exact absurd (congrArg RasterState.currentMode heq) hne
    · exact ⟨hat, snap, hsnap, hbad, hstaged, hnone⟩
  · obtain heq | ⟨hv, row, heq⟩ := hfb
    · exact absurd (by rw [heq]) hne
    · refine ⟨hat, hv, by_contra fun hR => hne ?_⟩
      rw [heq, fbFind_setRow_other _ _ hR]

theorem AgentStep.blockStep {s t : State} (h : AgentStep s t) : BlockStep s t := by
  cases h with
  | wait _ heq => exact heq ▸ .of_kept id id rfl rfl
  | stopWaiting _ _ heq => exact heq ▸ .of_kept id id rfl rfl
  | start _ _ _ heq => exact heq ▸ .of_kept id id rfl rfl
  | stop _ _ _ heq => exact heq ▸ .of_kept id id rfl rfl
  | line hat snap hsnap heq => exact heq ▸ renderStep_blockStep hat hsnap
  | advance _ _ heq =>
    obtain ⟨-, -, -, -, hraster, hfb, -, -, hline⟩ := advanceDone_fields s
    exact heq ▸ .of_kept hline (fun hs => by rwa [State.BitmapAligned, hraster]) (by rw [hraster]) hfb
  | memWrite _ _ heq => exact heq ▸ .of_kept id id rfl rfl
  | lineWrite _ _ heq => exact heq ▸ .of_kept id id rfl rfl

/-- The input list is none of the state R33 speaks of, so taking an input off it changes nothing here. -/
theorem step_blockStep {s t : State} (h : step s = .next t) : BlockStep s t := by
  obtain ⟨rest, hcases⟩ := step_cases h
  suffices BlockStep (s.setEnv { s.env with inputs := rest }) t from this
  obtain ⟨_, hexec⟩ | ⟨-, reason, rfl⟩ | hagent := hcases
  · exact exec_blockStep hexec
  · exact .of_kept id id rfl rfl
  · exact hagent.blockStep

/-- Settles O26: line 0 lies in every geometry, address 0 is aligned, and the steps are `step_blockStep`. -/
theorem blockInvariants : Obligations.BlockInvariants := by
  unfold Obligations.BlockInvariants
  exact ⟨fun cfg => ⟨cfg.ok.1, rfl⟩, fun _ _ h => step_blockStep h⟩

end Sys2Proof.Machine
end

section
/-! PROOFS. `UNSET` register-port fields (R39, R91). -/

namespace Sys2Proof.Machine

/-- The engine's turn fails in `FAULTED`, and in a line step without a snapshot. -/
theorem engineStep_fault {granted : Bool} {s : State} {f : Fault} (h : engineStep granted s = .fault f) :
    f = .engineDead ∨ s.seq.phase = .running ∧ snapshot s = none := by
  unfold engineStep at h
  split at h
  · split at h
    · cases h
    · split at h <;> cases h
  · next hp =>
    split at h
    · unfold lineStep at h
      split at h
      · cases h
      · split at h
        · cases h
        · next hnone => exact .inr ⟨hp, hnone⟩
    · split at h <;> cases h
  · cases h
  · cases h; exact .inl rfl

theorem grantStep_fault {s : State} {f : Fault} (h : grantStep s = .fault f) : f = .engineDead := by
  unfold grantStep at h
  split at h
  · cases h
  · split at h <;> cases h
  · cases h
  · cases h; rfl

theorem hostWord_fault {w : CmdWord} {s : State} {f : Fault} (h : hostWord w s = .fault f) : f = .hostStuck := by
  unfold hostWord at h
  split at h
  · rw [exec_eq_hostStep] at h
    exact (hostStep_fault_iff.mp h).2
  · exact (hostStep_fault_iff.mp h).2

/-- A step that has no next state is one in `FAULTED`, or a line step without a snapshot. -/
theorem step_fault_cases {s : State} {f : Fault} (h : step s = .fault f) :
    f = .hostStuck ∨ f = .engineDead ∨ s.seq.phase = .running ∧ snapshot s = none := by
  unfold step machineStep at h
  split at h
  · exact .inr (engineStep_fault h)
  · next i rest _ =>
    cases i with
    | command w => exact .inl (hostWord_fault h)
    | engine => exact .inr (engineStep_fault (s := s.setEnv { s.env with inputs := rest }) h)
    | grant => exact .inr (.inl (grantStep_fault h))
    | memWrite m =>
      simp only [inputStep, memWriteStep] at h
      split at h <;> cases h
      exact .inr (.inl rfl)
    | lineWrite m =>
      simp only [inputStep, lineWriteStep] at h
      split at h <;> cases h
      exact .inr (.inl rfl)

/-- A ready machine never reads an `UNSET` field: it runs only with every field set, and then there is a snapshot. -/
theorem step_ne_unsetSnapshot {s : State} (h : s.PortsReady) : step s ≠ .fault .unsetSnapshot := by
  intro hfault
  obtain hf | hf | ⟨hp, hnone⟩ := step_fault_cases hfault
  · cases hf
  · cases hf
  · obtain ⟨snap, hsnap⟩ := snapshot_of_allSet (h.2 (h.1 hp))
    rw [hnone] at hsnap
    cases hsnap

/-- No field that holds a number in `r` is `UNSET` in `r'`. -/
def PortRegs.StaySet (r r' : PortRegs) : Prop :=
  (r.border ≠ none → r'.border ≠ none) ∧ (r.rasterTarget ≠ none → r'.rasterTarget ≠ none) ∧
  (r.den ≠ none → r'.den ≠ none) ∧ (r.vwide ≠ none → r'.vwide ≠ none) ∧ (r.hwide ≠ none → r'.hwide ≠ none) ∧
  (r.yscroll ≠ none → r'.yscroll ≠ none) ∧ (r.xscroll ≠ none → r'.xscroll ≠ none) ∧ (r.bg0 ≠ none → r'.bg0 ≠ none) ∧
  (r.bg1 ≠ none → r'.bg1 ≠ none) ∧ (r.bg2 ≠ none → r'.bg2 ≠ none) ∧ (r.bg3 ≠ none → r'.bg3 ≠ none)

theorem PortRegs.StaySet.of_eq {r r' : PortRegs} (h : r' = r) : r.StaySet r' :=
  h ▸ ⟨id, id, id, id, id, id, id, id, id, id, id⟩

theorem writeBg_staySet (x : BitVec 2) (c : Nibble) (r : PortRegs) : r.StaySet (writeBg x c r) := by
  unfold writeBg
  repeat' split
  all_goals simp [PortRegs.StaySet]

theorem commandEffect_staySet (i : Instr) (s : State) : s.regs.StaySet (commandEffect i s).regs := by
  cases i
  case ready =>
    obtain ⟨_, _, heq⟩ := commandEffect_ready s
    exact .of_eq (by rw [heq, State.setCtl_regs])
  case wrBg x c => exact writeBg_staySet x c s.regs
  case setAddr | setMode | term | getLine | rdRaster => exact .of_eq rfl
  all_goals simp [commandEffect, PortRegs.StaySet]

/-- Only the host writes register-port fields (R31, R34). -/
theorem AgentStep.regs {s t : State} (h : AgentStep s t) : t.regs = s.regs := by
  cases h with
  | line _ snap _ heq => exact heq ▸ (renderStep_fields snap s).1
  | advance _ _ heq => exact heq ▸ (advanceDone_fields s).1
  | wait _ heq | stopWaiting _ _ heq | start _ _ _ heq | stop _ _ _ heq | memWrite _ _ heq | lineWrite _ _ heq =>
    exact heq ▸ rfl

theorem step_staySet {s t : State} (h : step s = .next t) : s.regs.StaySet t.regs := by
  obtain ⟨rest, ⟨i, hexec⟩ | ⟨-, reason, rfl⟩ | hagent⟩ := step_cases h
  · obtain ⟨-, rfl⟩ := exec_next_iff.mp hexec
    exact commandEffect_staySet i (s.setEnv { s.env with inputs := rest })
  · exact .of_eq rfl
  · exact .of_eq hagent.regs

/-- Settles O27, from what a failing step can be, what each command writes, and what a snapshot holds. -/
theorem unsetIsNeverRead : Obligations.UnsetIsNeverRead := by
  unfold Obligations.UnsetIsNeverRead
  refine ⟨fun _ h => step_ne_unsetSnapshot h, fun _ _ h => step_staySet h, fun _ h => snapshot_of_allSet h,
    fun s snap h => ?_⟩
  obtain ⟨hregs, hchar, hvideo, hbitmap⟩ := snapshot_some h
  rw [hregs]
  exact ⟨rfl, rfl, rfl, rfl, rfl, rfl, rfl, rfl, rfl, rfl, rfl, hchar.symm, hvideo.symm, hbitmap.symm⟩

end Sys2Proof.Machine
end

section
/-! PROOFS. The control flags and the final phases (R16, R27 to R29), and what the host alone writes (R34). -/

namespace Sys2Proof.Machine

/-- What a step from `s` to `t` must not clear or leave. -/
def FlagsKept (s t : State) : Prop :=
  (s.ctl.stopReq = true → t.ctl.stopReq = true) ∧ (s.ctl.ready = true → t.ctl.ready = true) ∧
  (s.ctl.refused = true → t.ctl.refused = true) ∧ (s.seq.phase = .stopped → t.seq.phase = .stopped) ∧
  s.seq.phase ≠ .faulted ∧ (s.ctl.fault ≠ none → t.ctl.fault ≠ none)

theorem FlagsKept.of_ctl {s t : State} (hctl : t.ctl = s.ctl)
    (hstopped : s.seq.phase = .stopped → t.seq.phase = .stopped) (halive : s.seq.phase ≠ .faulted) : FlagsKept s t := by
  unfold FlagsKept
  rw [hctl]
  exact ⟨id, id, id, hstopped, halive, id⟩

theorem exec_flagsKept {i : Instr} {s t : State} (h : exec i s = .next t) : FlagsKept s t := by
  obtain ⟨halive, ⟨r, rfl, -⟩ | ⟨c, rfl, hfault, -, hstop, hrefused, hready, -⟩ | ⟨r, rfl⟩ | ⟨r, rfl, -⟩⟩ :=
    exec_next_cases h
  · exact .of_ctl rfl id halive
  · exact ⟨hstop, hready, hrefused, id, halive, fun hf => by rwa [State.setCtl_ctl, hfault]⟩
  · exact .of_ctl rfl id halive
  · exact .of_ctl rfl id halive

theorem renderStep_flagsKept {s : State} (hp : s.seq.phase = .running) (snap : Snapshot) :
    FlagsKept s (renderStep snap s) := by
  obtain ⟨-, -, hstop, hready, hrefused, -, -, hfault, -⟩ := renderStep_fields snap s
  unfold FlagsKept
  rw [hstop, hready, hrefused]
  exact ⟨id, id, id, by simp [hp], by simp [hp], hfault⟩

theorem AgentStep.flagsKept {s t : State} (h : AgentStep s t) : FlagsKept s t := by
  cases h with
  | wait halive heq => subst heq; exact .of_ctl rfl id halive
  | stopWaiting hp _ heq => exact heq ▸ .of_ctl rfl (fun _ => rfl) (by simp [hp])
  | start hp _ _ heq => exact heq ▸ .of_ctl rfl (by simp [hp]) (by simp [hp])
  | stop hp _ _ heq => exact heq ▸ .of_ctl rfl (fun _ => rfl) (by simp [hp])
  | line hat snap _ heq => exact heq ▸ renderStep_flagsKept hat.1 snap
  | advance hp _ heq =>
    obtain ⟨-, -, hctl, -⟩ := advanceDone_fields s
    exact heq ▸ .of_ctl hctl (by simp [hp]) (by simp [hp])
  | memWrite halive _ heq => exact heq ▸ .of_ctl rfl id halive
  | lineWrite halive _ heq => exact heq ▸ .of_ctl rfl id halive

theorem step_flagsKept {s t : State} (h : step s = .next t) : FlagsKept s t := by
  obtain ⟨rest, hcases⟩ := step_cases h
  suffices FlagsKept (s.setEnv { s.env with inputs := rest }) t from this
  obtain ⟨_, hexec⟩ | ⟨halive, reason, rfl⟩ | hagent := hcases
  · exact exec_flagsKept hexec
  · exact ⟨id, id, fun _ => rfl, id, halive, id⟩
  · exact hagent.flagsKept

/-- Settles O28, by the case split of `step_cases`. -/
theorem flagsAreNeverCleared : Obligations.FlagsAreNeverCleared := by
  unfold Obligations.FlagsAreNeverCleared
  exact fun _ _ h => step_flagsKept h

/-- What no agent but the host may change in a step from `s` to `t`. -/
def HostStateKept (s t : State) : Prop :=
  t.regs = s.regs ∧ t.raster.charAddr = s.raster.charAddr ∧ t.raster.videoAddr = s.raster.videoAddr ∧
  t.raster.bitmapAddr = s.raster.bitmapAddr ∧ t.ctl.stopReq = s.ctl.stopReq ∧ t.ctl.ready = s.ctl.ready ∧
  t.ctl.refused = s.ctl.refused ∧ t.out.responses = s.out.responses ∧
  (t.raster.scheduledMode = s.raster.scheduledMode ∨
    t.raster.scheduledMode = none ∧ s.raster.scheduledMode = some t.raster.currentMode) ∧ t.cfg = s.cfg

theorem HostStateKept.of_eq {s t : State} (hregs : t.regs = s.regs) (hraster : t.raster = s.raster)
    (hctl : t.ctl = s.ctl) (hresponses : t.out.responses = s.out.responses) (hcfg : t.cfg = s.cfg) :
    HostStateKept s t := by
  unfold HostStateKept
  rw [hraster, hctl]
  exact ⟨hregs, rfl, rfl, rfl, rfl, rfl, rfl, hresponses, .inl rfl, hcfg⟩

/-- The line step's own write to RasterState is the commit (R94). -/
theorem renderStep_hostStateKept (snap : Snapshot) (s : State) : HostStateKept s (renderStep snap s) := by
  obtain ⟨hregs, hcfg, hstop, hready, hrefused, hresponses, -, -, hraster, -⟩ := renderStep_fields snap s
  refine ⟨hregs, ?_, ?_, renderStep_bitmapAddr snap s, hstop, hready, hrefused, hresponses, ?_, hcfg⟩
  · rw [hraster]; split <;> simp
  · rw [hraster]; split <;> simp
  · exact (renderStep_raster_cases snap s).imp (congrArg RasterState.scheduledMode) And.right

theorem AgentStep.hostStateKept {s t : State} (h : AgentStep s t) : HostStateKept s t := by
  cases h with
  | line _ snap _ heq => exact heq ▸ renderStep_hostStateKept snap s
  | advance _ _ heq =>
    obtain ⟨hregs, hcfg, hctl, hresponses, hraster, -⟩ := advanceDone_fields s
    exact heq ▸ .of_eq hregs hraster hctl hresponses hcfg
  | wait _ heq | stopWaiting _ _ heq | start _ _ _ heq | stop _ _ _ heq | memWrite _ _ heq | lineWrite _ _ heq =>
    exact heq ▸ .of_eq rfl rfl rfl rfl rfl

/-- Settles O29: a step whose input is no command is an `AgentStep`, and of those the line step alone writes
RasterState. -/
theorem onlyHostWritesHostState : Obligations.OnlyHostWritesHostState := by
  unfold Obligations.OnlyHostWritesHostState
  intro s t h hinputs
  obtain ⟨rest, hagent⟩ := step_agent h hinputs
  exact hagent.hostStateKept

end Sys2Proof.Machine
end

section
/-! PROOFS. The variants' codes and hooks (R24, R127 to R129). -/

namespace Sys2Proof.Machine

/-- The debug colour is one of the two reserved indices, whichever the variant has (R129). -/
theorem debugColor_reserved (m : ModeVariant) : debugColor m = 16 ∨ debugColor m = 17 := by
  unfold debugColor
  split
  · exact .inr rfl
  · exact .inl rfl

/-- Settles O57: the codes are the definition's, the hooks do nothing, the debug colour is a free choice of two. -/
theorem variantCapabilities : Obligations.VariantCapabilities := by
  unfold Obligations.VariantCapabilities
  exact ⟨⟨rfl, rfl, rfl, rfl, rfl⟩, fun m s c v b L =>
    ⟨startFrame_eq m c v b s, onBadLine_eq m L s, debugColor_reserved m⟩⟩

end Sys2Proof.Machine
end

section
/-! PROOFS. Who moves next: the machine's step by its next input (R53, R60, R86, R147). -/

namespace Sys2Proof.Machine

/-! ### The dispatch -/

/-- A step with an input left carries out the first one, which it takes off the list. -/
theorem step_cons {s : State} {i : Input} {rest : List Input} (h : s.env.inputs = i :: rest) :
    step s = inputStep i (s.setEnv { s.env with inputs := rest }) := by
  simp only [step, machineStep, h]

theorem step_withFetchWord (s : State) (nbits w : Nat) :
    step (s.withFetchWord nbits w) = hostWord (tableWord nbits w) s := rfl

theorem hostWord_decoded {w : CmdWord} {i : Instr} (h : decode w = .ok i) (s : State) : hostWord w s = exec i s := by
  simp only [hostWord, h]

theorem hostWord_refused {w : CmdWord} {reason : RefuseReason} (h : decode w = .error reason) (s : State) :
    hostWord w s = hostStep s (refuse reason s) := by
  simp only [hostWord, h]

theorem decodeTableWord_some {nbits w : Nat} {i : Instr} (h : decodeTableWord nbits w = some i) :
    decode (tableWord nbits w) = .ok i := by
  unfold decodeTableWord at h
  split at h
  · next j hj => cases h; exact hj
  · cases h

theorem decodeTableWord_none {nbits w : Nat} (h : decodeTableWord nbits w = none) :
    ∃ reason, decode (tableWord nbits w) = .error reason := by
  unfold decodeTableWord at h
  split at h
  · cases h
  · next reason hreason => exact ⟨reason, hreason⟩

/-- Settles O9: the dispatch takes the word off the list, and decoding says what the word then does. -/
theorem stepRunsDecodedCommand : Obligations.StepRunsDecodedCommand := by
  unfold Obligations.StepRunsDecodedCommand
  refine ⟨fun s w rest i hin hdec => ?_, fun s w rest reason hin hdec => ?_, fun s nbits w i hdec => ?_,
    fun s nbits w hdec halive => ?_⟩
  · rw [step_cons hin]
    exact hostWord_decoded hdec _
  · have hword : step s = hostStep (s.setEnv { s.env with inputs := rest }) _ :=
      (step_cons hin).trans (hostWord_refused hdec _)
    exact ⟨fun halive => hword.trans (hostStep_of_alive _ halive), fun hdead => hword.trans (hostStep_of_faulted _ hdead)⟩
  · rw [step_withFetchWord, hostWord_decoded (decodeTableWord_some hdec)]
  · obtain ⟨reason, hreason⟩ := decodeTableWord_none hdec
    rw [step_withFetchWord, hostWord_refused hreason, hostStep_of_alive _ halive, refuse_eq]
    rfl

/-! ### The other agents' steps, alive and dead -/

theorem engineStep_of_faulted (granted : Bool) {s : State} (h : s.seq.phase = .faulted) :
    engineStep granted s = .fault .engineDead := by
  simp only [engineStep, h]

theorem grantStep_of_faulted {s : State} (h : s.seq.phase = .faulted) : grantStep s = .fault .engineDead := by
  simp only [grantStep, h]

theorem memWriteStep_of_alive (m : MemWrite) {s : State} (h : s.seq.phase ≠ .faulted) :
    memWriteStep m s = .next (s.setEnv (applyWrite s.env m)) := if_neg h

theorem lineWriteStep_of_alive (m : MemWrite) {s : State} (h : s.seq.phase ≠ .faulted) :
    lineWriteStep m s = .next (s.setEnv { s.env with lineWrites := s.env.lineWrites ++ [m] }) := if_neg h

/-- In `FAULTED` no input but a command has a meaning of its own (R86, R151, log 8). -/
theorem inputStep_of_faulted {i : Input} (hi : ∀ w, i ≠ .command w) {s : State} (h : s.seq.phase = .faulted) :
    inputStep i s = .fault .engineDead := by
  cases i with
  | command w => exact absurd rfl (hi w)
  | engine => exact engineStep_of_faulted false h
  | grant => exact grantStep_of_faulted h
  | memWrite m => exact if_pos h
  | lineWrite m => exact if_pos h

/-- Settles O10: the dispatch hands each input to its agent, and in `FAULTED` no agent has a step. -/
theorem stepRunsOtherAgents : Obligations.StepRunsOtherAgents := by
  unfold Obligations.StepRunsOtherAgents
  exact fun s => ⟨step_empty, fun _ hin => step_cons hin, fun _ hin => step_cons hin,
    fun _ m hin halive => (step_cons hin).trans (memWriteStep_of_alive m halive),
    fun _ m hin halive => (step_cons hin).trans (lineWriteStep_of_alive m halive),
    fun hin hdead => (step_empty hin).trans (engineStep_of_faulted true hdead),
    fun _ _ hin hi hdead => (step_cons hin).trans (inputStep_of_faulted hi hdead)⟩

end Sys2Proof.Machine
end

section
/-! PROOFS. The values a memory read may answer (R42, R43, R55). -/

namespace Sys2Proof.Machine

/-! ### One read -/

@[simp] theorem heldValue_nil {α : Type} (now : α) (instant : Nat) : heldValue now [] instant = now := rfl

/-- Each value of the interval is held at some instant. -/
theorem exists_heldValue_eq {α : Type} {now v : α} {later : List α} (h : v ∈ now :: later) :
    ∃ instant, heldValue now later instant = v := by
  obtain ⟨k, hk, rfl⟩ := List.getElem_of_mem h
  refine ⟨k, ?_⟩
  cases later with
  | nil =>
    obtain rfl : k = 0 := Nat.lt_one_iff.mp hk
    rfl
  | cons w rest =>
    simp only [heldValue, List.length_cons] at hk ⊢
    rw [Nat.mod_eq_of_lt hk, List.getD_eq_getElem]

/-- Settles O51: the only test of `memRead` is the bound of memory. -/
theorem memReadFaultsAboveMemory : Obligations.MemReadFaultsAboveMemory := by
  unfold Obligations.MemReadFaultsAboveMemory
  exact fun s id a => ⟨fun hout => if_pos hout, fun hin => if_neg (Nat.not_le.mpr hin)⟩

/-- Settles O52: a read is a held value, and a location without later values holds only the present one. -/
theorem oracleReadsHeldValue : Obligations.OracleReadsHeldValue := by
  unfold Obligations.OracleReadsHeldValue
  refine fun s id a n => ⟨heldValue_mem .., fun hquiet => ?_, heldValue_mem .., fun hquiet => ?_⟩
  · rw [memOracle, hquiet, heldValue_nil]
  · rw [colorRead, hquiet, heldValue_nil]

/-! ### The values of some writes -/

theorem mem_sysValues {ws : List MemWrite} {a : Nat} {v : Byte} :
    v ∈ sysValues ws a ↔ ∃ b, MemWrite.sys b v ∈ ws ∧ b.toNat = a := by
  induction ws with
  | nil => simp [sysValues]
  | cons w ws ih =>
    cases w with
    | sys b u =>
      simp only [sysValues, List.mem_cons, MemWrite.sys.injEq]
      split
      · grind
      · grind
    | color c u => simp [sysValues, ih]

theorem mem_colorValues {ws : List MemWrite} {n : Nat} {v : Nibble} :
    v ∈ colorValues ws n ↔ ∃ c, MemWrite.color c v ∈ ws ∧ c.val = n := by
  induction ws with
  | nil => simp [colorValues]
  | cons w ws ih =>
    cases w with
    | sys b u => simp [colorValues, ih]
    | color c u =>
      simp only [colorValues, List.mem_cons, MemWrite.color.injEq]
      split
      · grind
      · grind

/-- Fewer writes give a byte no other values. -/
theorem sysValues_subset {ws vs : List MemWrite} (h : ws ⊆ vs) (a : Nat) : sysValues ws a ⊆ sysValues vs a := by
  intro v hv
  obtain ⟨b, hb, ha⟩ := mem_sysValues.mp hv
  exact mem_sysValues.mpr ⟨b, h hb, ha⟩

theorem colorValues_subset {ws vs : List MemWrite} (h : ws ⊆ vs) (n : Nat) : colorValues ws n ⊆ colorValues vs n := by
  intro v hv
  obtain ⟨c, hc, hn⟩ := mem_colorValues.mp hv
  exact mem_colorValues.mpr ⟨c, h hc, hn⟩

/-- After some writes a byte holds the last value they gave it, and its old value if they gave it none. -/
theorem applyWrites_memByte (e : Environment) (ws : List MemWrite) (a : Nat) :
    memByte (applyWrites e ws).mem a = (sysValues ws a).getLast?.getD (memByte e.mem a) := by
  induction ws generalizing e with
  | nil => rfl
  | cons w ws ih =>
    refine (ih (applyWrite e w)).trans ?_
    cases w with
    | color c v => rfl
    | sys b v =>
      simp only [applyWrite, memByte_write, sysValues, eq_comm (a := a)]
      split
      · rw [List.getLast?_cons, Option.getD_some]
      · rfl

theorem applyWrites_colorCell (e : Environment) (ws : List MemWrite) (n : Nat) :
    colorCell (applyWrites e ws).color n = (colorValues ws n).getLast?.getD (colorCell e.color n) := by
  induction ws generalizing e with
  | nil => rfl
  | cons w ws ih =>
    refine (ih (applyWrite e w)).trans ?_
    cases w with
    | sys b v => rfl
    | color c v =>
      simp only [applyWrite, colorCell_write, colorValues, eq_comm (a := n)]
      split
      · rw [List.getLast?_cons, Option.getD_some]
      · rfl

/-! ### The line step and the end of its advance -/

theorem engineStep_atLine {granted : Bool} {s t : State} (hat : s.AtLine) (h : engineStep granted s = .next t) :
    ∃ snap, t = renderStep snap s := by
  cases hsnap : snapshot s with
  | some snap =>
    rw [engineStep_running granted hat hsnap] at h
    cases h
    exact ⟨snap, rfl⟩
  | none =>
    obtain ⟨hp, hsub, hstop⟩ := hat
    simp [engineStep, lineStep, hp, hsub, hstop, hsnap] at h

/-- A line step changes nothing of the environment but the compositor's draws. -/
theorem renderStep_env (snap : Snapshot) (s : State) :
    (renderStep snap s).env.mem = s.env.mem ∧ (renderStep snap s).env.color = s.env.color ∧
      (renderStep snap s).env.lineWrites = s.env.lineWrites ∧ (renderStep snap s).env.inputs = s.env.inputs := by
  obtain ⟨-, -, -, -, -, henv, -⟩ := beforeRender_fields snap s
  obtain ⟨_, u, hu, hend⟩ := renderStep_frame snap s
  have hu_env : (renderStep snap s).env = u.env := by
    obtain ⟨-, heq, -⟩ | ⟨-, a, heq⟩ := hend
    · rw [heq, requestAdvance_env]
    · rw [heq, raiseFault_env]
  rw [hu_env, hu.mem, hu.color, hu.lineWrites, hu.inputs, henv]
  exact ⟨rfl, rfl, rfl, rfl⟩

theorem engineStep_advancing {s : State} (hp : s.seq.phase = .running) (hsub : s.seq.sub = .advancing)
    (granted : Bool) : engineStep granted s = .next (if granted then advanceDone s else s) := by
  cases granted <;> simp [engineStep, hp, hsub]

theorem grantStep_advancing {s : State} (hp : s.seq.phase = .running) (hsub : s.seq.sub = .advancing) :
    grantStep s = .next (advanceDone s) := by
  simp only [grantStep, hp, hsub]

theorem advanceDone_sub (s : State) : (advanceDone s).seq.sub = .lineStart := by
  by_cases hlast : s.seq.line.toNat = s.cfg.geo.totalLines - 1
  · rw [advanceDone_last hlast]; rfl
  · rw [advanceDone_next hlast]; rfl

/-- A command word leaves the environment alone (R88). -/
theorem hostWord_env {w : CmdWord} {s t : State} (h : hostWord w s = .next t) : t.env = s.env := by
  unfold hostWord at h
  split at h
  · obtain ⟨-, ⟨_, rfl, -⟩ | ⟨_, rfl, -⟩ | ⟨_, rfl⟩ | ⟨_, rfl, -⟩⟩ := exec_next_cases h <;> rfl
  · obtain ⟨-, rfl⟩ := hostStep_next_iff.mp h
    rfl

/-! ### A step while the advance is pending -/

/-- From `s` to `t` the memories take no value but those of the interval of `s`, and while the advance stays pending
no write joins the interval. -/
structure IntervalKept (s t : State) : Prop where
  mem : ∀ a, memByte t.env.mem a ∈ memByte s.env.mem a :: sysValues (intervalWrites s.env) a
  color : ∀ n, colorCell t.env.color n ∈ colorCell s.env.color n :: colorValues (intervalWrites s.env) n
  coming : t.seq.sub = .advancing → intervalWrites t.env ⊆ intervalWrites s.env

/-- It is enough that the step carries out writes `ws` of the interval, on an environment `e` with the old
memories. -/
theorem IntervalKept.of_applyWrites {s t : State} (e : Environment) {ws : List MemWrite}
    (hold : e.mem = s.env.mem ∧ e.color = s.env.color) (hws : ws ⊆ intervalWrites s.env)
    (hnew : t.env.mem = (applyWrites e ws).mem ∧ t.env.color = (applyWrites e ws).color)
    (hcoming : t.seq.sub = .advancing → intervalWrites t.env ⊆ intervalWrites s.env) : IntervalKept s t where
  mem a := by
    have h := applyWrites_memByte_mem e ws a
    rw [hold.1, ← hnew.1] at h
    exact List.cons_subset_cons _ (sysValues_subset hws a) h
  color n := by
    have h := applyWrites_colorCell_mem e ws n
    rw [hold.2, ← hnew.2] at h
    exact List.cons_subset_cons _ (colorValues_subset hws n) h
  coming := hcoming

/-- A step that carries out no write and leaves the interval's writes as they are. -/
theorem IntervalKept.of_unwritten {s t : State} (hmem : t.env.mem = s.env.mem) (hcolor : t.env.color = s.env.color)
    (hsame : intervalWrites t.env = intervalWrites s.env) : IntervalKept s t :=
  .of_applyWrites s.env ⟨rfl, rfl⟩ (List.nil_subset _) ⟨hmem, hcolor⟩ fun _ => hsame ▸ List.Subset.refl _

/-- The end of the advance carries out the writes whose instant was left open, and the advance is pending no more. -/
theorem advanceDone_intervalKept (s : State) (rest : List Input) :
    IntervalKept s (advanceDone (s.setEnv { s.env with inputs := rest })) := by
  refine .of_applyWrites { s.env with inputs := rest } ⟨rfl, rfl⟩ (List.subset_append_left s.env.lineWrites _) ?_
    fun hsub => ?_
  · rw [advanceDone_env]
    exact ⟨rfl, rfl⟩
  · rw [advanceDone_sub] at hsub
    cases hsub

/-- A write of the platform now, the next input, is one of the interval's writes. -/
theorem memWrite_intervalKept {s : State} {m : MemWrite} {rest : List Input} (hin : s.env.inputs = .memWrite m :: rest) :
    IntervalKept s (s.setEnv (applyWrite { s.env with inputs := rest } m)) := by
  have hinterval : intervalWrites s.env = s.env.lineWrites ++ m :: comingWrites rest := by
    rw [intervalWrites, hin, comingWrites_memWrite]
  refine .of_applyWrites { s.env with inputs := rest } (ws := [m]) ⟨rfl, rfl⟩ ?_ ⟨rfl, rfl⟩ fun _ => ?_
  · simp [hinterval]
  · obtain ⟨hline, -, hinputs⟩ := applyWrite_rest { s.env with inputs := rest } m
    rw [hinterval, State.setEnv_env, intervalWrites, hline, hinputs]
    exact ((List.sublist_cons_self m _).append_left _).subset

/-- While the advance is pending every step keeps to the values of the interval. -/
theorem step_intervalKept {s t : State} (hp : s.seq.phase = .running) (hsub : s.seq.sub = .advancing)
    (h : step s = .next t) : IntervalKept s t := by
  have hp' : ∀ e, (s.setEnv e).seq.phase = .running := fun _ => hp
  have hsub' : ∀ e, (s.setEnv e).seq.sub = .advancing := fun _ => hsub
  have halive : ∀ e, (s.setEnv e).seq.phase ≠ .faulted := by simp [hp]
  cases hin : s.env.inputs with
  | nil =>
    rw [step_empty hin, engineStep_advancing hp hsub true] at h
    cases h
    exact advanceDone_intervalKept s s.env.inputs
  | cons i rest =>
    rw [step_cons hin] at h
    cases i with
    | command w =>
      have henv : t.env = { s.env with inputs := rest } := hostWord_env h
      exact .of_unwritten (by rw [henv]) (by rw [henv]) (by simp [henv, intervalWrites, hin])
    | engine =>
      rw [inputStep, engineStep_advancing (hp' _) (hsub' _) false] at h
      cases h
      exact .of_unwritten rfl rfl (by simp [intervalWrites, hin])
    | grant =>
      rw [inputStep, grantStep_advancing (hp' _) (hsub' _)] at h
      cases h
      exact advanceDone_intervalKept s rest
    | memWrite m =>
      rw [inputStep, memWriteStep_of_alive m (halive _)] at h
      cases h
      exact memWrite_intervalKept hin
    | lineWrite m =>
      rw [inputStep, lineWriteStep_of_alive m (halive _)] at h
      cases h
      exact .of_unwritten rfl rfl (by simp [intervalWrites, hin])

/-- Settles O38: the reads by definition, the line step by its frame, the pending advance by `step_intervalKept`, and
its end by what a list of writes leaves in a location. -/
theorem intervalWritesSettle : Obligations.IntervalWritesSettle := by
  unfold Obligations.IntervalWritesSettle
  refine ⟨fun _ _ _ _ => ⟨rfl, rfl⟩, fun _ _ _ _ hv => exists_heldValue_eq hv, fun g s t hat h => ?_,
    fun s t hp hsub h => ?_, fun s t hp hsub h => ?_⟩
  · obtain ⟨snap, rfl⟩ := engineStep_atLine hat h
    obtain ⟨hmem, hcolor, hline, hinputs⟩ := renderStep_env snap s
    exact ⟨hmem, hcolor, by rw [intervalWrites, intervalWrites, hline, hinputs]⟩
  · have hkept := step_intervalKept hp hsub h
    exact ⟨hkept.mem, hkept.color, fun hadv => ⟨fun a => sysValues_subset (hkept.coming hadv) a,
      fun n => colorValues_subset (hkept.coming hadv) n⟩⟩
  · rw [engineStep_advancing hp hsub true] at h
    cases h
    obtain ⟨-, hdraws, hinputs⟩ := applyWrites_rest s.env s.env.lineWrites
    simp only [if_true, advanceDone_env, settleWrites_env]
    exact ⟨applyWrites_memByte _ _, applyWrites_colorCell _ _, trivial, hdraws, hinputs⟩

end Sys2Proof.Machine
end

section
/-! PROOFS. The decoder and the encoder are inverse to each other, row by row of the opcode table (R61 to R66). -/

namespace Sys2Proof

/-! ### The fields of a word and of a row -/

/-- The operand field, `w[47:0]` (R61). -/
def operandOf (w : CmdWord) : BitVec 48 := w.extractLsb' 0 48

theorem opOf_and (v w : CmdWord) : opOf (v &&& w) = opOf v &&& opOf w := BitVec.extractLsb'_and

theorem rsvOf_and (v w : CmdWord) : rsvOf (v &&& w) = rsvOf v &&& rsvOf w := BitVec.extractLsb'_and

theorem operandOf_and (v w : CmdWord) : operandOf (v &&& w) = operandOf v &&& operandOf w := BitVec.extractLsb'_and

/-- A word is its three fields, one after the other (R61). -/
theorem append_fields (w : CmdWord) : opOf w ++ rsvOf w ++ operandOf w = w := by
  simp only [opOf, rsvOf, operandOf, BitVec.extractLsb'_append_extractLsb'_eq_extractLsb', BitVec.extractLsb'_eq_self]

/-- Every row fixes the whole operation code and a zero `RSV`, and asks for no operand bit that is 1 (R63). -/
theorem row_fields : ∀ row ∈ opcodeTable,
    (opOf row.mask = BitVec.allOnes 8 ∧ opOf row.pattern = row.op) ∧
      (rsvOf row.mask = BitVec.allOnes 8 ∧ rsvOf row.pattern = 0) ∧ operandOf row.pattern = 0 := by decide

/-- The rows have distinct operation codes (R63). -/
theorem table_ops_nodup : (opcodeTable.map OpRow.op).Nodup := by decide

theorem row_eq_of_op_eq {r1 r2 : OpRow} (h1 : r1 ∈ opcodeTable) (h2 : r2 ∈ opcodeTable) (h : r1.op = r2.op) :
    r1 = r2 := List.inj_on_of_nodup_map table_ops_nodup h1 h2 h

/-! ### What a match says -/

/-- Bits that a mask has none of all lie in its complement. -/
theorem and_not_eq_self {n : Nat} {x m : BitVec n} (h : x &&& m = 0) : x &&& ~~~ m = x := by
  ext i hi
  have hbit : (x[i] && m[i]) = false := by
    rw [← BitVec.getElem_and hi, h]
    exact BitVec.getElem_zero hi
  rw [BitVec.getElem_and, BitVec.getElem_not]
  cases hx : x[i] with
  | false => rfl
  | true => simpa [hx] using hbit

section
variable {row : OpRow} {w : CmdWord}

theorem opOf_of_rowMatches (hrow : row ∈ opcodeTable) (h : rowMatches row w = true) : opOf w = row.op := by
  obtain ⟨⟨hmask, hpattern⟩, -⟩ := row_fields row hrow
  have hand := congrArg opOf (beq_iff_eq.mp h)
  rwa [opOf_and, hmask, hpattern, BitVec.and_allOnes] at hand

theorem rsvOf_of_rowMatches (hrow : row ∈ opcodeTable) (h : rowMatches row w = true) : rsvOf w = 0 := by
  obtain ⟨-, ⟨hmask, hpattern⟩, -⟩ := row_fields row hrow
  have hand := congrArg rsvOf (beq_iff_eq.mp h)
  rwa [rsvOf_and, hmask, hpattern, BitVec.and_allOnes] at hand

/-- A matching word has no operand bit that the layout does not use. -/
theorem operandOf_of_rowMatches (hrow : row ∈ opcodeTable) (h : rowMatches row w = true) :
    operandOf w &&& ~~~ operandOf row.mask = operandOf w := by
  obtain ⟨-, -, hpattern⟩ := row_fields row hrow
  apply and_not_eq_self
  rw [← operandOf_and, beq_iff_eq.mp h, hpattern]

end

/-- Two rows that match one word have its operation code, so they are one row. -/
theorem row_eq_of_rowMatches {r1 r2 : OpRow} {w : CmdWord} (h1 : r1 ∈ opcodeTable) (h2 : r2 ∈ opcodeTable)
    (hm1 : rowMatches r1 w = true) (hm2 : rowMatches r2 w = true) : r1 = r2 :=
  row_eq_of_op_eq h1 h2 ((opOf_of_rowMatches h1 hm1).symm.trans (opOf_of_rowMatches h2 hm2))

/-! ### What decoding answers -/

theorem decode_of_rowMatches {row : OpRow} {w : CmdWord} (hrow : row ∈ opcodeTable) (h : rowMatches row w = true) :
    decode w = .ok (row.build w) := by
  unfold decode
  cases hfind : opcodeTable.find? (fun row => rowMatches row w) with
  | some row' =>
    have hmatch : rowMatches row' w = true := List.find?_some (p := fun row => rowMatches row w) hfind
    rw [row_eq_of_rowMatches hrow (List.mem_of_find?_eq_some hfind) h hmatch]
  | none => exact absurd h (List.find?_eq_none.mp hfind row hrow)

/-- A word that matches no row is refused, by whether its operation code is known (R65, R66). -/
theorem decode_of_no_row {w : CmdWord} (h : ∀ row ∈ opcodeTable, rowMatches row w = false) :
    decode w = .error (if ∃ row ∈ opcodeTable, row.op = opOf w then .reservedBits else .opcode) := by
  have hfind : opcodeTable.find? (fun row => rowMatches row w) = none := by simpa using h
  unfold decode
  rw [hfind]
  simp only [List.any_eq_true, beq_iff_eq]
  split <;> rfl

/-- A word matches a row and decodes to its command, or matches none and is refused (R64). -/
theorem decode_cases (w : CmdWord) :
    (∃ row ∈ opcodeTable, rowMatches row w = true ∧ decode w = .ok (row.build w)) ∨
      ((∀ row ∈ opcodeTable, rowMatches row w = false) ∧
        decode w = .error (if ∃ row ∈ opcodeTable, row.op = opOf w then .reservedBits else .opcode)) := by
  by_cases h : ∀ row ∈ opcodeTable, rowMatches row w = false
  · exact .inr ⟨h, decode_of_no_row h⟩
  · push Not at h
    obtain ⟨row, hrow, hmatch⟩ := h
    have hmatch := Bool.eq_true_of_not_eq_false hmatch
    exact .inl ⟨row, hrow, hmatch, decode_of_rowMatches hrow hmatch⟩

theorem decode_error_opcode_iff {w : CmdWord} :
    decode w = .error .opcode ↔ ¬ ∃ row ∈ opcodeTable, row.op = opOf w := by
  obtain ⟨row, hrow, hmatch, hdec⟩ | ⟨-, hdec⟩ := decode_cases w
  · simp only [hdec, reduceCtorEq, false_iff, not_not]
    exact ⟨row, hrow, (opOf_of_rowMatches hrow hmatch).symm⟩
  · rw [hdec]
    split <;> simp [*]

/-- The row of the word's operation code is the only one that the word could match. -/
theorem decode_error_reservedBits_iff {w : CmdWord} :
    decode w = .error .reservedBits ↔ ∃ row ∈ opcodeTable, row.op = opOf w ∧ rowMatches row w = false := by
  obtain ⟨row, hrow, hmatch, hdec⟩ | ⟨hnone, hdec⟩ := decode_cases w
  · simp only [hdec, reduceCtorEq, false_iff]
    rintro ⟨row', hrow', hop, hno⟩
    have heq := row_eq_of_op_eq hrow' hrow (hop.trans (opOf_of_rowMatches hrow hmatch))
    exact Bool.false_ne_true (hno.symm.trans (heq ▸ hmatch))
  · rw [hdec]
    constructor
    · intro h
      split at h
      · next hknown =>
        obtain ⟨row, hrow, hop⟩ := hknown
        exact ⟨row, hrow, hop, hnone row hrow⟩
      · cases h
    · rintro ⟨row, hrow, hop, -⟩
      rw [if_pos ⟨row, hrow, hop⟩]

/-! ### From a word to its command and back -/

theorem opcodeOf_build : ∀ row ∈ opcodeTable, ∀ w, opcodeOf (row.build w) = row.op := by
  simp [opcodeTable, opcodeOf]

/-- The `n` low bits of a word, zero-extended, are its operand under a mask of the `n` low bits. -/
theorem lowBits_eq_operandOf_and (w : CmdWord) (n : Nat) {m : BitVec 48}
    (hm : ∀ i, i < 48 → m.getLsbD i = decide (i < n)) : (w.extractLsb' 0 n).setWidth 48 = operandOf w &&& m := by
  ext i hi
  rw [BitVec.getElem_and, ← BitVec.getLsbD_eq_getElem (x := m), hm i hi]
  simp [operandOf, BitVec.getLsbD_extractLsb', Bool.and_comm]

/-- A command built from a word has the operand bits that the row's layout uses (R63). -/
theorem argOf_build : ∀ row ∈ opcodeTable, ∀ w, argOf (row.build w) = operandOf w &&& ~~~ operandOf row.mask := by
  have noOperand : ∀ w : CmdWord, 0#48 = operandOf w &&& ~~~ operandOf 0xFFFFFFFFFFFFFFFF#64 := fun w => by
    rw [show ~~~ operandOf 0xFFFFFFFFFFFFFFFF#64 = 0#48 by decide, BitVec.and_zero]
  simp only [opcodeTable, List.forall_mem_cons, argOf, BitVec.extractLsb'_append_extractLsb'_eq_extractLsb']
  refine ⟨fun w => ?setAddr, fun w => lowBits_eq_operandOf_and w 3 (by decide), noOperand, noOperand, noOperand,
    fun w => lowBits_eq_operandOf_and w 4 (by decide), fun w => lowBits_eq_operandOf_and w 9 (by decide), noOperand,
    fun w => lowBits_eq_operandOf_and w 1 (by decide), fun w => lowBits_eq_operandOf_and w 1 (by decide),
    fun w => lowBits_eq_operandOf_and w 1 (by decide), fun w => lowBits_eq_operandOf_and w 3 (by decide),
    fun w => lowBits_eq_operandOf_and w 3 (by decide), fun w => lowBits_eq_operandOf_and w 6 (by decide), by simp⟩
  case setAddr =>
    rw [show ~~~ operandOf 0xFFFF000000000000#64 = BitVec.allOnes 48 by decide, BitVec.and_allOnes]
    rfl

/-- A word that matches a row is the word of the command the row builds from it. -/
theorem encode_build {row : OpRow} {w : CmdWord} (hrow : row ∈ opcodeTable) (h : rowMatches row w = true) :
    encode (row.build w) = w := by
  have hop : opcodeOf (row.build w) = opOf w := (opcodeOf_build row hrow w).trans (opOf_of_rowMatches hrow h).symm
  have harg : argOf (row.build w) = operandOf w := (argOf_build row hrow w).trans (operandOf_of_rowMatches hrow h)
  have hrsv : 0#8 = rsvOf w := (rsvOf_of_rowMatches hrow h).symm
  rw [encode, hop, harg, hrsv, append_fields]

/-- A word that decodes is the word of what it decodes to. -/
theorem encode_of_decode {w : CmdWord} {i : Instr} (h : decode w = .ok i) : encode i = w := by
  obtain ⟨row, hrow, hmatch, hdec⟩ | ⟨-, hdec⟩ := decode_cases w
  · cases hdec.symm.trans h
    exact encode_build hrow hmatch
  · cases hdec.symm.trans h

/-! ### From a command to its word and back -/

/-- Every command's word matches the row of its operation code. -/
theorem encodesRow (i : Instr) : Laws.EncodesRow.Statement i := by
  cases i with
  | setAddr c v b => exact Laws.EncodesRow.setAddr c v b
  | setMode b e m => exact Laws.EncodesRow.setMode b e m
  | term => exact Laws.EncodesRow.term
  | getLine => exact Laws.EncodesRow.getLine
  | ready => exact Laws.EncodesRow.ready
  | wrBorder c => exact Laws.EncodesRow.wrBorder c
  | wrRaster t => exact Laws.EncodesRow.wrRaster t
  | rdRaster => exact Laws.EncodesRow.rdRaster
  | wrDen v => exact Laws.EncodesRow.wrDen v
  | wrVwide v => exact Laws.EncodesRow.wrVwide v
  | wrHwide v => exact Laws.EncodesRow.wrHwide v
  | wrYscroll v => exact Laws.EncodesRow.wrYscroll v
  | wrXscroll v => exact Laws.EncodesRow.wrXscroll v
  | wrBg x c => exact Laws.EncodesRow.wrBg x c

/-- A field of a command's word is that field of its operand. -/
theorem extract_encode (i : Instr) {k n : Nat} (h : k + n ≤ 48) :
    (encode i).extractLsb' k n = (argOf i).extractLsb' k n :=
  extract_append (opcodeOf i) 0 (argOf i) k n h

/-- The row of a command's operation code reads every operand back from the word: each field stands in the operand
where the row's `build` looks for it. -/
theorem build_encode (i : Instr) : ∀ row ∈ opcodeTable, row.op = opcodeOf i → row.build (encode i) = i := by
  cases i
  -- the fields of the operand, in the row with the command's operation code
  all_goals
    simp (disch := decide) only [opcodeTable, List.forall_mem_cons, opcodeOf, extract_encode, argOf,
      BitVec.extractLsb'_setWidth_of_le, BitVec.extractLsb'_append_eq_of_le, BitVec.extractLsb'_append_eq_of_add_le]
  -- the other 13 rows have another operation code
  all_goals simp

theorem decode_encode (i : Instr) : decode (encode i) = .ok i := by
  obtain ⟨row, hrow, hop, hmatch⟩ := encodesRow i
  rw [decode_of_rowMatches hrow hmatch, build_encode i row hrow hop]

/-- A whole word has the same bits in the table's numbering (R46, R60). -/
theorem tableWord_toNat (w : CmdWord) : tableWord 64 w.toNat = w := by
  rw [tableWord, Nat.mod_eq_of_lt w.isLt, BitVec.ofNat_toNat, BitVec.setWidth_eq]

theorem decodeTableWord_encode (i : Instr) : decodeTableWord 64 (encode i).toNat = some i := by
  simp only [decodeTableWord, tableWord_toNat, decode_encode]

/-- Settles O2: the word matches the row of the command's operation code, and that row reads every operand back. -/
theorem decodeOfEncode : Obligations.DecodeOfEncode := by
  unfold Obligations.DecodeOfEncode
  exact fun i => ⟨decode_encode i, decodeTableWord_encode i⟩

/-- Settles O3: a matching word has the row's operation code, a zero `RSV`, and no operand bit that the row drops. -/
theorem encodeOfDecode : Obligations.EncodeOfDecode := by
  unfold Obligations.EncodeOfDecode
  exact fun _ _ h => encode_of_decode h

/-- Settles O6: a word that matches a row has the row's operation code, and no code stands in two places. -/
theorem atMostOneRowMatches : Obligations.AtMostOneRowMatches := by
  unfold Obligations.AtMostOneRowMatches
  refine ⟨?_, fun _ _ _ h1 h2 => row_eq_of_rowMatches h1 h2⟩
  refine (List.pairwise_map.mp table_ops_nodup).imp_of_mem fun h1 h2 hne w hmatch => ?_
  exact hne (congrArg OpRow.op (row_eq_of_rowMatches h1 h2 hmatch.1 hmatch.2))

/-- Settles O1: the sample words are evaluated. -/
theorem sampleWordsDecode : Obligations.SampleWordsDecode := by
  unfold Obligations.SampleWordsDecode
  decide

end Sys2Proof
end

section
/-! PROOFS. The refused words, and what a refusal does (R65, R66, R86, R154). -/

namespace Sys2Proof.Machine

/-- The operation codes of no row are the reserved ones of R65. -/
theorem unknown_op_iff (op : BitVec 8) : (¬ ∃ row ∈ opcodeTable, row.op = op) ↔
    (op.toNat = 0 ∨ (0x06 ≤ op.toNat ∧ op.toNat ≤ 0x0F) ∨ 0x19 ≤ op.toNat) := by
  simp only [opcodeTable, List.mem_cons, List.not_mem_nil, or_false, exists_eq_or_imp, exists_eq_left, BitVec.toNat_eq,
    BitVec.reduceToNat]
  omega

/-- A refused word only sets the refusal mark, in every phase but `FAULTED`. -/
theorem hostWord_refused_of_alive {w : CmdWord} {reason : RefuseReason} (h : decode w = .error reason) {s : State}
    (halive : s.seq.phase ≠ .faulted) : hostWord w s = .next { s with ctl := { s.ctl with refused := true } } := by
  rw [hostWord_refused h, hostStep_of_alive _ halive, refuse_eq, State.setCtl]

/-- Settles O4: the reserved codes are the codes of no row, and no word with one matches. -/
theorem reservedOpcodesRefused : Obligations.ReservedOpcodesRefused := by
  unfold Obligations.ReservedOpcodesRefused
  exact ⟨fun w => decode_error_opcode_iff.trans (unknown_op_iff (opOf w)),
    fun _ _ hdec halive => hostWord_refused_of_alive hdec halive⟩

/-- Settles O5: the row of the word's operation code is the only one that it could match; a `SETMODE` word is one that
`encode` makes. -/
theorem reservedBitsRefused : Obligations.ReservedBitsRefused := by
  unfold Obligations.ReservedBitsRefused
  refine ⟨fun w => ?_, fun _ _ hdec halive => hostWord_refused_of_alive hdec halive,
    fun b e m => ⟨_, decode_encode (.setMode b e m)⟩⟩
  simp only [decode_error_reservedBits_iff, rowMatches, beq_eq_false_iff_ne]

end Sys2Proof.Machine
end

section
/-! PROOFS. The assembler's words (R69, R70). -/

namespace Sys2Proof.Machine

theorem toNat_append_eq_add {m n : Nat} (x : BitVec m) (y : BitVec n) :
    (x ++ y).toNat = x.toNat * 2 ^ n + y.toNat := by
  rw [BitVec.toNat_append, ← Nat.shiftLeft_add_eq_or_of_lt y.isLt, Nat.shiftLeft_eq]

/-- A command's word as a number: `(OP << 56) | operand fields` (R69). -/
theorem encode_eq_ofNat (i : Instr) : encode i = BitVec.ofNat 64 ((opcodeOf i).toNat * 2 ^ 56 + (argOf i).toNat) := by
  apply BitVec.eq_of_toNat_eq
  have hop := (opcodeOf i).isLt
  have harg := (argOf i).isLt
  rw [encode, toNat_append_eq_add, toNat_append_eq_add, BitVec.toNat_ofNat, BitVec.toNat_ofNat]
  omega

theorem fits_iff {w n : Nat} : fits w n = true ↔ n < 2 ^ w := decide_eq_true_iff

/-- A statement that stands for one command assembles to that command's word, given as a number, when its operands
fit, and to no word otherwise. -/
theorem assemble_of_single {a : Asm} {i : Instr} {p : Prop} [Decidable p] {n : Nat} (ha : expand a = [i])
    (hp : a.wellFormed = true ↔ p) (hn : p → (opcodeOf i).toNat * 2 ^ 56 + (argOf i).toNat = n) :
    assemble a = if p then some [BitVec.ofNat 64 n] else none := by
  unfold assemble
  by_cases h : p
  · rw [if_pos (hp.mpr h), if_pos h, ha, List.map_singleton, encode_eq_ofNat, hn h]
  · rw [if_neg (fun hwf => h (hp.mp hwf)), if_neg h]

/-- A statement of one command whose operand is one field of `w` bits. -/
theorem assemble_of_field {a : Asm} {i : Instr} {v op limit : Nat} (w : Nat) (hw : w ≤ 48) (ha : expand a = [i])
    (hf : a.wellFormed = fits w v) (hv : argOf i = (BitVec.ofNat w v).setWidth 48) (hop : (opcodeOf i).toNat = op)
    (hlimit : 2 ^ w = limit) : assemble a = if v < limit then some [BitVec.ofNat 64 (op * 2 ^ 56 + v)] else none := by
  subst hop hlimit
  refine assemble_of_single ha (hf ▸ fits_iff) fun h => ?_
  rw [hv, BitVec.toNat_setWidth_of_le hw, BitVec.toNat_ofNat, Nat.mod_eq_of_lt h]

/-- The statements of a list assemble one by one, or not at all. -/
theorem mapM_assemble (as : List Asm) : as.mapM assemble =
    if as.all Asm.wellFormed then some (as.map fun a => (expand a).map encode) else none := by
  induction as with
  | nil => rfl
  | cons a as ih =>
    rw [List.mapM_cons, ih, assemble, List.all_cons]
    cases a.wellFormed with
    | false => rfl
    | true => cases as.all Asm.wellFormed <;> rfl

/-- A statement that stands for the commands of a list of statements assembles to their words in order, when each of
them is well formed. -/
theorem assemble_of_list {a : Asm} {as : List Asm} (ha : expand a = as.flatMap expand)
    (hp : a.wellFormed = as.all Asm.wellFormed) : assemble a = (as.mapM assemble).map List.flatten := by
  rw [assemble, mapM_assemble, ha, hp, List.map_flatMap, List.flatMap_def]
  split <;> rfl

theorem assemble_setAddr (c v b : Nat) : assemble (.setAddr c v b) =
    if c < 0x10000 ∧ v < 0x10000 ∧ b < 0x10000 then
      some [BitVec.ofNat 64 (0x01 * 2 ^ 56 + c * 2 ^ 32 + v * 2 ^ 16 + b)] else none := by
  refine assemble_of_single rfl (by simp [Asm.wellFormed, fits_iff, and_assoc]) fun h => ?_
  simp only [opcodeOf, argOf, toNat_append_eq_add, BitVec.toNat_ofNat]
  omega

theorem assemble_setMode (b e m : Nat) : assemble (.setMode b e m) =
    if b < 2 ∧ e < 2 ∧ m < 2 then some [BitVec.ofNat 64 (0x02 * 2 ^ 56 + b * 4 + e * 2 + m)] else none := by
  refine assemble_of_single rfl (by simp [Asm.wellFormed, fits_iff, and_assoc]) fun h => ?_
  simp only [opcodeOf, argOf, toNat_append_eq_add, BitVec.toNat_setWidth, BitVec.toNat_ofNat]
  omega

theorem assemble_wrBg (i c : Nat) : assemble (.wrBg i c) =
    if i < 4 ∧ c < 16 then some [BitVec.ofNat 64 (0x18 * 2 ^ 56 + i * 16 + c)] else none := by
  refine assemble_of_single rfl (by simp [Asm.wellFormed, fits_iff]) fun h => ?_
  simp only [opcodeOf, argOf, toNat_append_eq_add, BitVec.toNat_setWidth, BitVec.toNat_ofNat]
  omega

theorem wellFormed_initRegs (bd t den vw hw ys xs g0 g1 g2 g3 : Nat) :
    (Asm.initRegs bd t den vw hw ys xs g0 g1 g2 g3).wellFormed =
      [Asm.wrBorder bd, .wrRaster t, .wrDen den, .wrVwide vw, .wrHwide hw, .wrYscroll ys, .wrXscroll xs, .wrBg 0 g0,
        .wrBg 1 g1, .wrBg 2 g2, .wrBg 3 g3].all Asm.wellFormed := by
  simp [Asm.wellFormed, Bool.and_assoc, fits]

/-- Settles O7: a statement of one command is that command's word as a number; a pseudo-instruction is its expansion. -/
theorem statementsAssemble : Obligations.StatementsAssemble := by
  unfold Obligations.StatementsAssemble
  exact ⟨assemble_setAddr, assemble_setMode,
    fun _ => assemble_of_field 4 (by decide) rfl rfl rfl rfl rfl,
    fun _ => assemble_of_field 9 (by decide) rfl rfl rfl rfl rfl,
    fun _ => assemble_of_field 1 (by decide) rfl rfl rfl rfl rfl,
    fun _ => assemble_of_field 1 (by decide) rfl rfl rfl rfl rfl,
    fun _ => assemble_of_field 1 (by decide) rfl rfl rfl rfl rfl,
    fun _ => assemble_of_field 3 (by decide) rfl rfl rfl rfl rfl,
    fun _ => assemble_of_field 3 (by decide) rfl rfl rfl rfl rfl,
    assemble_wrBg, rfl, rfl, rfl, rfl, rfl, rfl, rfl, rfl, rfl, rfl, rfl,
    fun bd t den vw hw ys xs g0 g1 g2 g3 =>
      assemble_of_list rfl (wellFormed_initRegs bd t den vw hw ys xs g0 g1 g2 g3)⟩

end Sys2Proof.Machine
end

section
/-! PROOFS. `INITREGS` (R70, R75, R171). -/

namespace Sys2Proof.Machine

theorem setReady_eq (s : State) : setReady s = s.setCtl { s.ctl with ready := true } := by
  unfold setReady
  split
  · next h => rw [← h]; rfl
  · rfl

theorem commandEffect_seq (i : Instr) (s : State) : (commandEffect i s).seq = s.seq := by
  cases i
  case ready =>
    obtain ⟨_, _, heq⟩ := commandEffect_ready s
    rw [heq, State.setCtl_seq]
  all_goals rfl

/-- Outside `FAULTED` a list of commands has every one of its effects, in order (R86). -/
theorem execAll_of_alive (is : List Instr) {s : State} (h : s.seq.phase ≠ .faulted) :
    execAll is s = .next (is.foldl (fun t i => commandEffect i t) s) := by
  induction is generalizing s with
  | nil => rfl
  | cons i is ih =>
    have hexec : exec i s = .next (commandEffect i s) := exec_next_iff.mpr ⟨h, rfl⟩
    rw [execAll, hexec]
    exact ih (by rwa [commandEffect_seq])

/-- `READY` with every register-port field set is accepted (R75; log 22). -/
theorem exec_ready_of_allSet {s : State} (h : s.seq.phase ≠ .faulted) (hset : allSet s.regs = true) :
    exec .ready s = .next { s with ctl := { s.ctl with ready := true } } := by
  rw [exec_next_iff, commandEffect, if_pos hset, setReady_eq]
  exact ⟨h, rfl⟩

/-- The eleven writes of `INITREGS`, performed in order, leave every register-port field with its operand. -/
theorem initRegs_effect (s : State) (bd t den vw hw ys xs g0 g1 g2 g3 : Nat) :
    (expand (.initRegs bd t den vw hw ys xs g0 g1 g2 g3)).foldl (fun u i => commandEffect i u) s = s.setRegs
      ⟨some (.ofNat 4 bd), some (.ofNat 9 t), some (.ofNat 1 den), some (.ofNat 1 vw), some (.ofNat 1 hw),
        some (.ofNat 3 ys), some (.ofNat 3 xs), some (.ofNat 4 g0), some (.ofNat 4 g1), some (.ofNat 4 g2),
        some (.ofNat 4 g3)⟩ := by
  simp [expand, commandEffect, writeBg, State.setRegs]

/-- Settles O8: each of the eleven writes has its effect, and together they write every register-port field. -/
theorem initRegsPreparesReady : Obligations.InitRegsPreparesReady := by
  unfold Obligations.InitRegsPreparesReady
  intro s bd t den vw hw ys xs g0 g1 g2 g3 halive _
  refine ⟨_, execAll_of_alive _ halive, initRegs_effect s bd t den vw hw ys xs g0 g1 g2 g3, ?_⟩
  rw [initRegs_effect]
  exact exec_ready_of_allSet halive rfl

end Sys2Proof.Machine
end

section
/-! PROOFS. The host commands (R71 to R86, R88). -/

namespace Sys2Proof.Machine

/-! ### What every command does -/

/-- Outside `FAULTED` every command completes with its effect (R86). -/
theorem exec_of_alive (i : Instr) {s : State} (h : s.seq.phase ≠ .faulted) : exec i s = .next (commandEffect i s) :=
  exec_next_iff.mpr ⟨h, rfl⟩

theorem exec_of_faulted (i : Instr) {s : State} (h : s.seq.phase = .faulted) : exec i s = .fault .hostStuck := by
  rw [exec_eq_hostStep, hostStep_of_faulted _ h]

/-- What a command may write (RasterState's addresses and staged mode, the three flags, the responses, the register-port
fields) leaves all of this as it was (R88). -/
theorem exec_frame {i : Instr} {s t : State} (h : exec i s = .next t) :
    t.fb = s.fb ∧ t.raster.currentMode = s.raster.currentMode ∧ t.seq = s.seq ∧ t.out.trace = s.out.trace ∧
      t.cfg = s.cfg ∧ t.ctl.fault = s.ctl.fault ∧ t.ctl.faultInfo = s.ctl.faultInfo ∧ t.env = s.env := by
  obtain ⟨-, ⟨r, rfl, hmode, -⟩ | ⟨c, rfl, hfault, hinfo, -⟩ | ⟨r, rfl⟩ | ⟨r, rfl, -⟩⟩ := exec_next_cases h
  · exact ⟨rfl, hmode, rfl, rfl, rfl, rfl, rfl, rfl⟩
  · exact ⟨rfl, rfl, rfl, rfl, rfl, hfault, hinfo, rfl⟩
  · exact ⟨rfl, rfl, rfl, rfl, rfl, rfl, rfl, rfl⟩
  · exact ⟨rfl, rfl, rfl, rfl, rfl, rfl, rfl, rfl⟩

/-- Settles O21: pixels, bytes and colour cells are read from the frame buffer and the environment, which no command
writes. -/
theorem commandFrame : Obligations.CommandFrame := by
  unfold Obligations.CommandFrame
  intro i s t h
  obtain ⟨hfb, hmode, hseq, htrace, hcfg, hfault, hinfo, henv⟩ := exec_frame h
  exact ⟨hfb, hmode, hseq, htrace, hcfg, hfault, hinfo, fun R c => by rw [hfb], fun a => by rw [henv],
    fun n => by rw [henv], henv⟩

/-- Settles O11: a command and a refused word are host steps, and a decoded word is its command. -/
theorem commandsAcceptedByPhase : Obligations.CommandsAcceptedByPhase := by
  unfold Obligations.CommandsAcceptedByPhase
  refine ⟨fun i s halive => ⟨_, exec_of_alive i halive⟩, fun i s hdead => exec_of_faulted i hdead, fun w s hdead => ?_⟩
  cases hdec : decode w with
  | ok i => rw [hostWord_decoded hdec, exec_of_faulted i hdead]
  | error reason => rw [hostWord_refused hdec, hostStep_of_faulted _ hdead]

/-! ### The engine's commands (R71 to R76) -/

/-- The mask keeps the bits from 13 on. -/
theorem maskBitmap_eq_shift (a : Addr) : maskBitmap a = a >>> 13 <<< 13 := by
  have hbits : ∀ i < 16, (0xE000#16).getLsbD i = !decide (i < 13) := by decide
  unfold maskBitmap
  ext i hi
  rw [BitVec.getElem_and, BitVec.getElem_shiftLeft, ← BitVec.getLsbD_eq_getElem (x := 0xE000#16), hbits i hi]
  by_cases h13 : i < 13
  · simp [h13]
  · simp [h13, BitVec.getLsbD_eq_getElem hi, Nat.add_sub_cancel' (Nat.le_of_not_lt h13)]

/-- The bitmap address is rounded down to a multiple of 8 KiB (R71). -/
theorem maskBitmap_toNat (a : Addr) : (maskBitmap a).toNat = a.toNat / 8192 * 8192 := by
  rw [maskBitmap_eq_shift, BitVec.toNat_shiftLeft, BitVec.toNat_ushiftRight, Nat.shiftRight_eq_div_pow,
    Nat.shiftLeft_eq]
  exact Nat.mod_eq_of_lt (lt_of_le_of_lt (Nat.div_mul_le_self _ _) a.isLt)

/-- Settles O12: the three addresses are the command's own write, the bitmap address masked. -/
theorem setAddrStoresAddresses : Obligations.SetAddrStoresAddresses := by
  unfold Obligations.SetAddrStoresAddresses
  exact fun c v b _ halive => ⟨_, exec_of_alive (.setAddr c v b) halive, rfl, rfl, maskBitmap_toNat b, rfl, rfl⟩

/-- Settles O13: staging is the command's whole effect. -/
theorem setModeStages : Obligations.SetModeStages := by
  unfold Obligations.SetModeStages
  exact fun b e m _ halive => exec_of_alive (.setMode b e m) halive

/-- Settles O14: the eight inputs are evaluated. -/
theorem resolveModePrecedence : Obligations.ResolveModePrecedence := by
  unfold Obligations.ResolveModePrecedence
  decide

/-- A stop request is made once (R73). -/
theorem requestStop_of_stopReq {s : State} (h : s.ctl.stopReq = true) : requestStop s = s := by
  unfold requestStop
  rw [← h]
  rfl

/-- Settles O15: `TERM`'s effect is the stop request, which a second `TERM` finds set. -/
theorem termRequestsStop : Obligations.TermRequestsStop := by
  unfold Obligations.TermRequestsStop
  refine fun s halive => ⟨exec_of_alive .term halive, fun hstop => ?_⟩
  rw [exec_of_alive .term halive, commandEffect, requestStop_of_stopReq hstop]

/-- Settles O16: the two reads have the same effect, the response. -/
theorem lineReadsReturnLine : Obligations.LineReadsReturnLine := by
  unfold Obligations.LineReadsReturnLine
  exact fun _ halive => ⟨exec_of_alive .getLine halive, exec_of_alive .rdRaster halive⟩

/-- Settles O17: the effect of the read looks at the line and not at the target, which is all that the write changes. -/
theorem rasterReadIgnoresTarget : Obligations.RasterReadIgnoresTarget := by
  unfold Obligations.RasterReadIgnoresTarget
  refine ⟨fun target s t u hwrite hread => ?_, fun s t u target hread hread' => ?_⟩
  · obtain ⟨-, rfl⟩ := exec_next_iff.mp hwrite
    obtain ⟨-, rfl⟩ := exec_next_iff.mp hread
    rfl
  · obtain ⟨-, rfl⟩ := exec_next_iff.mp hread
    obtain ⟨-, rfl⟩ := exec_next_iff.mp hread'
    rfl

theorem allSet_iff {r : PortRegs} : allSet r = true ↔ r.border ≠ none ∧ r.rasterTarget ≠ none ∧ r.den ≠ none ∧
    r.vwide ≠ none ∧ r.hwide ≠ none ∧ r.yscroll ≠ none ∧ r.xscroll ≠ none ∧ r.bg0 ≠ none ∧ r.bg1 ≠ none ∧
    r.bg2 ≠ none ∧ r.bg3 ≠ none := by
  simp only [allSet, Bool.and_eq_true, Option.isSome_iff_ne_none, and_assoc]

/-- The ready signal is given once (R75). -/
theorem setReady_of_ready {s : State} (h : s.ctl.ready = true) : setReady s = s := if_pos h

/-- Settles O18: the effect of `READY` by its two tests, every field set and the signal given already. -/
theorem readyNeedsEveryField : Obligations.ReadyNeedsEveryField := by
  unfold Obligations.ReadyNeedsEveryField
  refine fun s halive => ⟨exec_ready_of_allSet halive, fun hset hready => ?_, fun hunset => ?_, allSet_iff⟩
  · rw [exec_of_alive .ready halive, commandEffect, if_pos hset, setReady_of_ready hready]
  · rw [exec_of_alive .ready halive, commandEffect, if_neg (Bool.eq_false_iff.mp hunset), refuse_eq, State.setCtl]

/-! ### The register-port writes (R77, R78, R80 to R85) -/

/-- Settles O19: each write is its command's whole effect. -/
theorem portWritesStoreOneField : Obligations.PortWritesStoreOneField := by
  unfold Obligations.PortWritesStoreOneField
  exact fun _ halive => ⟨fun c => exec_of_alive (.wrBorder c) halive, fun t => exec_of_alive (.wrRaster t) halive,
    fun v => exec_of_alive (.wrDen v) halive, fun v => exec_of_alive (.wrVwide v) halive,
    fun v => exec_of_alive (.wrHwide v) halive, fun v => exec_of_alive (.wrYscroll v) halive,
    fun v => exec_of_alive (.wrXscroll v) halive⟩

/-- Settles O20: `writeBg` is evaluated at each of the four indices. -/
theorem wrBgStoresIndexedColour : Obligations.WrBgStoresIndexedColour := by
  unfold Obligations.WrBgStoresIndexedColour
  exact fun c _ halive => ⟨exec_of_alive (.wrBg 0 c) halive, exec_of_alive (.wrBg 1 c) halive,
    exec_of_alive (.wrBg 2 c) halive, exec_of_alive (.wrBg 3 c) halive⟩

end Sys2Proof.Machine
end

section
/-! PROOFS. Starting, stopping and advancing the engine (R97, R100 to R102), and what it publishes (R98, R121, R122). -/

namespace Sys2Proof.Machine

/-! ### Starting and stopping -/

theorem engineStep_of_stopped (granted : Bool) {s : State} (h : s.seq.phase = .stopped) :
    engineStep granted s = .next s := by
  simp only [engineStep, h]

/-- A requested stop comes before the snapshot (R100). -/
theorem lineStep_of_stopReq {s : State} (h : s.ctl.stopReq = true) : lineStep s = .next (stop s) := if_pos h

theorem engineStep_lineStart (granted : Bool) {s : State} (hp : s.seq.phase = .running)
    (hsub : s.seq.sub = .lineStart) : engineStep granted s = lineStep s := by
  simp only [engineStep, hp, hsub]

theorem engineStep_waitReady (granted : Bool) {s : State} (hp : s.seq.phase = .waitReady) :
    engineStep granted s =
      .next (if s.ctl.stopReq then stopWaiting s else if s.ctl.ready then start s else s) := by
  simp only [engineStep, hp]
  split
  · rfl
  · split <;> rfl

/-- Settles O39: the stop is the line step, and a stopped engine waits. -/
theorem stopAtLineBoundary : Obligations.StopAtLineBoundary := by
  unfold Obligations.StopAtLineBoundary
  exact fun g s hp hsub hstop => ⟨stop s, (engineStep_lineStart g hp hsub).trans (lineStep_of_stopReq hstop), rfl,
    engineStep_of_stopped g rfl⟩

/-- Settles O40: the stop request is tested first. -/
theorem stopBeforeStart : Obligations.StopBeforeStart := by
  unfold Obligations.StopBeforeStart
  intro g s hp hstop
  rw [engineStep_waitReady g hp, if_pos hstop]
  rfl

/-- Settles O41: the three outcomes of a wait, and the invariant's clauses on the engine's position. -/
theorem startOnReady : Obligations.StartOnReady := by
  unfold Obligations.StartOnReady
  refine ⟨fun g s hp hready hstop => ?_, fun g s hp hready hstop => ?_, fun s h hp => ?_⟩
  · rw [engineStep_waitReady g hp, hstop, hready]
    rfl
  · rw [engineStep_waitReady g hp, hstop, hready]
    rfl
  · obtain ⟨hline, hframe, -⟩ := h.waits hp
    refine ⟨hline, ?_, hframe⟩
    cases hsub : s.seq.sub with
    | lineStart => rfl
    | advancing => exact absurd hsub (h.not_advancing (by simp [hp]))

/-! ### The advance (R97) -/

/-- Settles O36: the turn of a granted engine and the grant are both `AdvanceDone`. -/
theorem advanceMovesToNextLine : Obligations.AdvanceMovesToNextLine := by
  unfold Obligations.AdvanceMovesToNextLine
  intro s hp hsub
  obtain ⟨hregs, hcfg, hctl, -, hraster, hfb, -⟩ := advanceDone_fields s
  refine ⟨advanceDone s, engineStep_advancing hp hsub true, grantStep_advancing hp hsub, hraster, hctl, hregs, hfb,
    hcfg, fun hlast => ?_, fun hnext => ?_⟩
  · rw [advanceDone_last hlast]
    exact ⟨rfl, rfl⟩
  · rw [advanceDone_next hnext]
    exact ⟨rfl, rfl⟩

/-! ### The published frames (R98, R121, R122) -/

/-- The advance of the frame's last line is pending. -/
def State.EndsFrame (s : State) : Prop :=
  s.seq.phase = .running ∧ s.seq.sub = .advancing ∧ s.seq.line.toNat = s.cfg.geo.totalLines - 1

/-- The events from `s` to `t` publish nothing but the frame buffer of `s`, and that at the end of its frame. -/
def PublishesOwnFrame (s t : State) : Prop :=
  ∃ es, t.out.trace = s.out.trace ++ es ∧ ∀ fb ∈ publishedFrames es, fb = s.fb ∧ s.EndsFrame

theorem PublishesOwnFrame.of_unpublished {s t : State} {es : List Event} (htrace : t.out.trace = s.out.trace ++ es)
    (hes : publishedFrames es = []) : PublishesOwnFrame s t :=
  ⟨es, htrace, by simp [hes]⟩

theorem PublishesOwnFrame.of_trace {s t : State} (h : t.out.trace = s.out.trace) : PublishesOwnFrame s t :=
  .of_unpublished (es := []) (by rw [h, List.append_nil]) rfl

theorem advanceDone_publishesOwnFrame {s : State} (hp : s.seq.phase = .running) (hsub : s.seq.sub = .advancing) :
    PublishesOwnFrame s (advanceDone s) := by
  obtain ⟨-, -, -, -, -, -, -, ⟨es, htrace, hnone | ⟨hframe, hlast⟩⟩, -⟩ := advanceDone_fields s
  · exact .of_unpublished htrace hnone
  · refine ⟨es, htrace, fun fb hfb => ⟨?_, hp, hsub, hlast⟩⟩
    rwa [hframe, List.mem_singleton] at hfb

theorem AgentStep.publishesOwnFrame {s t : State} (h : AgentStep s t) : PublishesOwnFrame s t := by
  cases h with
  | line _ snap _ heq =>
    obtain ⟨-, -, -, -, -, -, -, -, -, ⟨_, htrace, hnone⟩, -⟩ := renderStep_fields snap s
    exact heq ▸ .of_unpublished htrace hnone
  | advance hp hsub heq => exact heq ▸ advanceDone_publishesOwnFrame hp hsub
  | stopWaiting _ _ heq => exact heq ▸ .of_unpublished (es := [.stopped]) rfl rfl
  | start _ _ _ heq => exact heq ▸ .of_unpublished (es := [.resume]) rfl rfl
  | stop _ _ _ heq => exact heq ▸ .of_unpublished (es := [.stopped]) rfl rfl
  | wait _ heq | memWrite _ _ heq | lineWrite _ _ heq => exact heq ▸ .of_trace rfl

/-- The input list is no part of a frame, so taking an input off it changes nothing here. -/
theorem step_publishesOwnFrame {s t : State} (h : step s = .next t) : PublishesOwnFrame s t := by
  obtain ⟨rest, hcases⟩ := step_cases h
  suffices PublishesOwnFrame (s.setEnv { s.env with inputs := rest }) t from this
  obtain ⟨_, hexec⟩ | ⟨-, reason, rfl⟩ | hagent := hcases
  · obtain ⟨-, -, -, htrace, -⟩ := exec_frame hexec
    exact .of_trace htrace
  · exact .of_trace rfl
  · exact hagent.publishesOwnFrame

/-- In a complete frame buffer every pixel has been written, with a colour index. -/
theorem FrameBuffer.Complete.pixel {g : Geometry} {fb : FrameBuffer} (h : FrameBuffer.Complete g fb) {R x : Nat}
    (hR : R < g.frameH) (hx : x < g.frameW) : ∃ v, fbFind fb R x = some v ∧ v.toNat ≤ 15 := by
  obtain ⟨hsound, hcomplete⟩ := h R hR
  obtain ⟨v, hv⟩ := Option.isSome_iff_exists.mp (hcomplete x hx)
  exact ⟨v, hv, (rowSound_iff.mp hsound).2 x v hv⟩

/-- Settles O31: a step publishes only at the end of a frame, where the invariant makes the frame buffer complete. -/
theorem publishedFramesAreComplete : Obligations.PublishedFramesAreComplete := by
  unfold Obligations.PublishedFramesAreComplete
  intro s t es hinv hstep htrace fb hfb
  obtain ⟨es', htrace', hown⟩ := step_publishesOwnFrame hstep
  obtain rfl : es = es' := List.append_cancel_left (htrace.symm.trans htrace')
  obtain ⟨rfl, hp, hsub, hlast⟩ := hown fb hfb
  exact ⟨rfl, fun R x hR hx => (hinv.frame_complete hp hsub hlast).pixel hR hx⟩

end Sys2Proof.Machine
end

section
/-! PROOFS. The bad line: its place in the frame (R89, R103), its effects (R92 to R95), and the order of a line step's
events (R99). -/

namespace Sys2Proof.Machine

/-! ### Where the bad lines are -/

/-- `isBadLine_iff` with the period's value. -/
theorem isBadLine_iff_mod_eight {line : Nat} {ys : BitVec 3} : isBadLine line ys = true ↔ line % 8 = ys.toNat :=
  isBadLine_iff

/-- Settles O32: `mod 8` is the low three bits. -/
theorem badLineIsLineModEight : Obligations.BadLineIsLineModEight := by
  unfold Obligations.BadLineIsLineModEight
  refine fun L line ys => ⟨isBadLine_iff_mod_eight, isBadLine_iff_mod_eight.trans ?_⟩
  rw [← BitVec.toNat_inj, BitVec.extractLsb'_toNat, Nat.shiftRight_zero]

/-- A bad line `d` lines on bounds how far the first one is. -/
theorem exists_badLineAfter_le {totalLines L d : Nat} {ys : BitVec 3}
    (h : isBadLine ((L + d) % totalLines) ys = true) : ∃ d', badLineAfter totalLines L d' ys ∧ d' ≤ d := by
  have hex : ∃ d, isBadLine ((L + d) % totalLines) ys = true := ⟨d, h⟩
  exact ⟨Nat.find hex, ⟨Nat.find_spec hex, fun e he => Bool.eq_false_iff.mpr (Nat.find_min hex he)⟩,
    Nat.find_min' hex h⟩

/-- Among eight lines in a row one is bad; if the lines per frame are a multiple of 8, across the wrap too. -/
theorem exists_badLine_aligned {totalLines : Nat} (L : Nat) (ys : BitVec 3) (h : totalLines % 8 = 0) :
    ∃ d, d ≤ 7 ∧ isBadLine ((L + d) % totalLines) ys = true := by
  have hys : ys.toNat < 8 := ys.isLt
  refine ⟨(ys.toNat + 8 - L % 8) % 8, by omega, isBadLine_iff_mod_eight.mpr ?_⟩
  rw [Nat.mod_mod_of_dvd _ (Nat.dvd_of_mod_eq_zero h)]
  omega

/-- With an uneven wrap, the last lines of a frame may all be good; then line `ys` of the next frame is bad. -/
theorem exists_badLine {totalLines L : Nat} (ys : BitVec 3) (htotal : 8 ≤ totalLines) (hL : L < totalLines) :
    ∃ d, d ≤ 14 ∧ isBadLine ((L + d) % totalLines) ys = true := by
  have hys : ys.toNat < 8 := ys.isLt
  by_cases hnear : L + (ys.toNat + 8 - L % 8) % 8 < totalLines
  · refine ⟨(ys.toNat + 8 - L % 8) % 8, by omega, isBadLine_iff_mod_eight.mpr ?_⟩
    rw [Nat.mod_eq_of_lt hnear]
    omega
  · refine ⟨totalLines - L + ys.toNat, by omega, isBadLine_iff_mod_eight.mpr ?_⟩
    rw [show L + (totalLines - L + ys.toNat) = ys.toNat + totalLines by omega, Nat.add_mod_right,
      Nat.mod_eq_of_lt (hys.trans_le htotal), Nat.mod_eq_of_lt hys]

/-- Settles O42: the first bad line is no further than the one these lemmas point at. -/
theorem badLineDistance : Obligations.BadLineDistance := by
  unfold Obligations.BadLineDistance
  intro totalLines L ys htotal hL
  obtain ⟨d, hd, hbad⟩ := exists_badLine ys htotal hL
  obtain ⟨d', hfirst, hle⟩ := exists_badLineAfter_le hbad
  refine ⟨d', hfirst, fun haligned => ?_, hle.trans hd⟩
  obtain ⟨c, hc, hbad'⟩ := exists_badLine_aligned L ys haligned
  by_contra hfar
  exact absurd hbad' (Bool.eq_false_iff.mp (hfirst.2 c (by omega)))

/-! ### The events of a line step (R99) -/

/-- The events of rendering a line that completes: the interrupt (R107), then the two sprite calls (R112, R114). -/
def renderEvents (snap : Snapshot) (s : State) : List Event :=
  (if s.seq.line = snap.rasterTarget then [.rasterIrq s.seq.line] else []) ++
    if visible s.cfg.geo s.seq.line.toNat && inWindowRow s.cfg.geo snap s.row then
      [.spriteBack snap.videoAddr s.row (spriteCoord s.cfg.geo s.row),
       .spriteFront s.row (spriteCoord s.cfg.geo s.row)]
    else []

theorem renderEvents_congr (snap : Snapshot) {s u : State} (hcfg : u.cfg = s.cfg) (hseq : u.seq = s.seq) :
    renderEvents snap u = renderEvents snap s := by
  unfold renderEvents State.row
  rw [hcfg, hseq]

theorem steal_notMem_renderEvents (snap : Snapshot) (s : State) (n : Nat) : .steal n ∉ renderEvents snap s := by
  unfold renderEvents
  split <;> split <;> simp

theorem rasterCompare_trace (snap : Snapshot) (s : State) :
    (rasterCompare snap s).out.trace = s.out.trace ++
      if s.seq.line = snap.rasterTarget then [.rasterIrq s.seq.line] else [] := by
  rw [rasterCompare_eq]
  split
  · rfl
  · rw [List.append_nil]

theorem renderLine_trace_ok {snap : Snapshot} {mode : ModeVariant} {s t : State} (h : renderLine snap mode s = .ok t) :
    t.out.trace = s.out.trace ++ renderEvents snap s := by
  rw [renderLine_eq] at h
  unfold renderEvents
  rw [← List.append_assoc, ← rasterCompare_trace]
  split at h
  · next hv =>
    simp only [renderRow, rasterCompare_cfg] at h
    split at h
    · next hw =>
      obtain ⟨row, rfl, -⟩ := composeWindowRow_ok h
      simp [State.row, hv, hw]
    · next hw =>
      cases h
      simp [State.row, hw]
  · next hv =>
    cases h
    simp [hv]

/-- A fault cuts the events of rendering short (R139, R151). -/
theorem renderLine_trace_error {snap : Snapshot} {mode : ModeVariant} {s t : State} {a : Nat}
    (h : renderLine snap mode s = .error (a, t)) :
    ∃ es, es <+: renderEvents snap s ∧ t.out.trace = s.out.trace ++ es := by
  rw [renderLine_eq] at h
  unfold renderEvents
  split at h
  · next hv =>
    simp only [renderRow, rasterCompare_cfg] at h
    split at h
    · next hw =>
      obtain ⟨k, -, -, ⟨rfl, -⟩ | ⟨rfl, -⟩⟩ := composeWindowRow_error h
      · exact ⟨_, ⟨_, rfl⟩, by rw [State.setRow_out, rasterCompare_trace]⟩
      · have hsprites : (visible s.cfg.geo s.seq.line.toNat && inWindowRow s.cfg.geo snap s.row) = true := by
          simp [State.row, hv, hw]
        rw [hsprites, if_pos (rfl : true = true)]
        exact ⟨_ ++ [.spriteBack snap.videoAddr s.row (spriteCoord s.cfg.geo s.row)],
          ⟨[.spriteFront s.row (spriteCoord s.cfg.geo s.row)], List.append_assoc ..⟩,
          by simp [State.row, rasterCompare_trace]⟩
    · cases h
  · cases h

/-- The whole event list of a line step that completes (R99). -/
theorem renderStep_trace_ok {snap : Snapshot} {s u : State}
    (hu : renderLine snap (beforeRender snap s).raster.currentMode (beforeRender snap s) = .ok u)
    (heq : renderStep snap s = requestAdvance u) :
    (renderStep snap s).out.trace = s.out.trace ++
      ((if isBadLine s.seq.line.toNat snap.yscroll then [.steal Config.badlinePenalty] else []) ++
        renderEvents snap s ++ [.advance Config.cyclesPerLine]) := by
  obtain ⟨hcfg, hseq, -⟩ := beforeRender_fields snap s
  simp only [heq, requestAdvance_out, renderLine_trace_ok hu, renderEvents_congr snap hcfg hseq, beforeRender_trace,
    List.append_assoc]

/-- The charge comes first, and no other event of a line step is one (R92, R93, R99). -/
theorem renderStep_trace (snap : Snapshot) (s : State) :
    ∃ es, (renderStep snap s).out.trace = s.out.trace ++
        ((if isBadLine s.seq.line.toNat snap.yscroll then [.steal Config.badlinePenalty] else []) ++ es) ∧
      ∀ n, .steal n ∉ es := by
  have hno := steal_notMem_renderEvents snap s
  obtain ⟨u, hu, heq⟩ | ⟨a, u, hu, heq⟩ := renderStep_cases snap s
  · refine ⟨renderEvents snap s ++ [.advance Config.cyclesPerLine], ?_, fun n => by simp [hno]⟩
    rw [renderStep_trace_ok hu heq, List.append_assoc _ (renderEvents snap s)]
  · obtain ⟨es, hcut, htrace⟩ := renderLine_trace_error hu
    obtain ⟨hcfg, hseq, -⟩ := beforeRender_fields snap s
    rw [renderEvents_congr snap hcfg hseq] at hcut
    refine ⟨es ++ [.faulted .addrRange], by simp [heq, htrace, beforeRender_trace], fun n => ?_⟩
    simpa using fun hmem => hno n (hcut.subset hmem)

theorem renderStep_raster (snap : Snapshot) (s : State) :
    (renderStep snap s).raster =
      if isBadLine s.seq.line.toNat snap.yscroll then committed s.raster else s.raster := by
  obtain ⟨-, -, -, -, -, -, -, -, hraster, -⟩ := renderStep_fields snap s
  exact hraster

theorem renderStep_raster_good {snap : Snapshot} {s : State} (h : isBadLine s.seq.line.toNat snap.yscroll = false) :
    (renderStep snap s).raster = s.raster := by
  rw [renderStep_raster, if_neg (by simp [h])]

theorem renderStep_raster_bad {snap : Snapshot} {s : State} (h : isBadLine s.seq.line.toNat snap.yscroll = true) :
    (renderStep snap s).raster = committed s.raster := by
  rw [renderStep_raster, if_pos h]

/-- Settles O33: `renderStep_trace` has the charge and `renderStep_raster` the commit, under one test. -/
theorem badLineEffectsTogether : Obligations.BadLineEffectsTogether := by
  unfold Obligations.BadLineEffectsTogether
  intro g s t snap hat hsnap hstep
  rw [engineStep_running g hat hsnap] at hstep
  cases hstep
  obtain ⟨es, htrace, hno⟩ := renderStep_trace snap s
  refine ⟨fun hbad => ?_, fun hgood => ?_⟩
  · rw [if_pos hbad] at htrace
    rw [renderStep_raster_bad hbad]
    exact ⟨⟨es, htrace, hno⟩, committed_currentMode _, committed_scheduledMode _⟩
  · rw [if_neg (by simp [hgood])] at htrace
    exact ⟨⟨es, htrace, hno⟩, renderStep_raster_good hgood⟩

/-- Settles O34: a line step that leaves the engine running has completed, and its frame is the line step's. -/
theorem lineStepEventOrder : Obligations.LineStepEventOrder := by
  unfold Obligations.LineStepEventOrder
  intro g s t snap hat hsnap hstep hrunning
  rw [engineStep_running g hat hsnap] at hstep
  cases hstep
  obtain ⟨hregs, hcfg, -⟩ := renderStep_fields snap s
  obtain ⟨-, hchar, hvideo, hbitmap, -⟩ := renderStep_hostStateKept snap s
  obtain ⟨u, hu, heq⟩ | ⟨a, u, -, heq⟩ := renderStep_cases snap s
  · obtain ⟨-, ⟨hseq, hctl⟩ | hdead⟩ := renderStep_seq snap s
    · refine ⟨?_, hseq, hregs, hctl, hcfg, hchar, hvideo, hbitmap, renderStep_raster_good⟩
      simp only [renderStep_trace_ok hu heq, renderEvents, List.append_assoc]
      rfl
    · rw [hdead] at hrunning
      cases hrunning
  · rw [heq] at hrunning
    cases hrunning

/-! ### The commit latency (R103) -/

/-- A run of several steps that comes to an end has a first one. -/
theorem runSteps_succ {n : Nat} {s t : State} (h : runSteps (n + 1) s = .next t) :
    ∃ u, step s = .next u ∧ runSteps n u = .next t := by
  unfold runSteps at h
  split at h
  · next u hu => exact ⟨u, hu, h⟩
  · cases h
  · cases h

theorem badLineAfter_zero {totalLines L : Nat} {ys : BitVec 3} (h : badLineAfter totalLines L 0 ys)
    (hL : L < totalLines) : isBadLine L ys = true := by
  have hbad := h.1
  rwa [Nat.add_zero, Nat.mod_eq_of_lt hL] at hbad

/-- Seen from the next line, the first bad line is one line nearer. -/
theorem badLineAfter_succ {totalLines L d : Nat} {ys : BitVec 3} (h : badLineAfter totalLines L (d + 1) ys)
    (hL : L < totalLines) : isBadLine L ys = false ∧ badLineAfter totalLines ((L + 1) % totalLines) d ys := by
  obtain ⟨hbad, hgood⟩ := h
  have hshift : ∀ e, ((L + 1) % totalLines + e) % totalLines = (L + (e + 1)) % totalLines := fun e => by
    rw [Nat.mod_add_mod, Nat.add_assoc, Nat.add_comm 1]
  refine ⟨?_, ?_, fun e he => ?_⟩
  · have h0 := hgood 0 (Nat.succ_pos d)
    rwa [Nat.add_zero, Nat.mod_eq_of_lt hL] at h0
  · rw [hshift]
    exact hbad
  · rw [hshift]
    exact hgood (e + 1) (Nat.succ_lt_succ he)

/-- The engine is about to take a line step with snapshot `snap`, and no input is left. -/
structure State.RunsAlone (snap : Snapshot) (s : State) : Prop where
  at_ : s.AtLine
  line : s.LineInRange
  inputs : s.env.inputs = []
  hsnap : snapshot s = some snap

theorem State.RunsAlone.step_eq {snap : Snapshot} {s : State} (h : s.RunsAlone snap) :
    step s = .next (renderStep snap s) :=
  (step_empty h.inputs).trans (engineStep_running true h.at_ h.hsnap)

theorem State.RunsAlone.runSteps_succ_eq {snap : Snapshot} {s : State} (h : s.RunsAlone snap) (n : Nat) :
    runSteps (n + 1) s = runSteps n (renderStep snap s) := by
  simp only [runSteps, h.step_eq]

/-- After the line step of a good line the next step, if there is one, reaches the next line's step in the same
RasterState. -/
theorem State.RunsAlone.next_line {snap : Snapshot} {s t : State} (h : s.RunsAlone snap)
    (hgood : isBadLine s.seq.line.toNat snap.yscroll = false) (hstep : step (renderStep snap s) = .next t) :
    t.RunsAlone snap ∧ t.raster = s.raster ∧ t.cfg = s.cfg ∧
      t.seq.line.toNat = (s.seq.line.toNat + 1) % s.cfg.geo.totalLines := by
  obtain ⟨hp, -, hstop⟩ := h.at_
  obtain ⟨hinputs, hend⟩ := renderStep_seq snap s
  obtain ⟨hregs, hcfg, -⟩ := renderStep_fields snap s
  have hraster := renderStep_raster_good hgood
  rw [step_empty (hinputs.trans h.inputs)] at hstep
  obtain ⟨hseq, hctl⟩ | hdead := hend
  · rw [engineStep_advancing (by rw [hseq, hp]) (by rw [hseq]) true, if_pos rfl] at hstep
    cases hstep
    have hrange : (renderStep snap s).LineInRange := by
      rw [State.LineInRange, hseq, hcfg]
      exact h.line
    obtain ⟨aregs, acfg, actl, -, araster, -, aphase, -, arange⟩ := advanceDone_fields (renderStep snap s)
    obtain ⟨aline, asub⟩ := advanceDone_line hrange
    have hraster' := araster.trans hraster
    refine ⟨⟨⟨?_, asub, ?_⟩, arange hrange, ?_, ?_⟩, hraster', acfg.trans hcfg, ?_⟩
    · exact aphase.trans (by rw [hseq, hp])
    · exact (congrArg ControlFlags.stopReq (actl.trans hctl)).trans hstop
    · exact (advanceDone_inputs _).trans (hinputs.trans h.inputs)
    · exact (snapshot_congr (aregs.trans hregs) (by rw [hraster']) (by rw [hraster'])
        (by rw [hraster'])).trans h.hsnap
    · rw [aline, hseq, hcfg]
  · rw [engineStep_of_faulted true (by rw [hdead])] at hstep
    cases hstep

/-- Two steps of a good line and the rest of the run, which starts at the next line in the same RasterState. -/
theorem State.RunsAlone.runSteps_good {snap : Snapshot} {n : Nat} {s t : State} (h : s.RunsAlone snap)
    (hgood : isBadLine s.seq.line.toNat snap.yscroll = false) (hrun : runSteps (n + 2) s = .next t) :
    ∃ u, runSteps n u = .next t ∧ u.RunsAlone snap ∧ u.raster = s.raster ∧ u.cfg = s.cfg ∧
      u.seq.line.toNat = (s.seq.line.toNat + 1) % s.cfg.geo.totalLines := by
  rw [h.runSteps_succ_eq] at hrun
  obtain ⟨u, hu, hrun⟩ := runSteps_succ hrun
  exact ⟨u, hrun, h.next_line hgood hu⟩

/-- By induction on the distance: two steps a line keep RasterState, up to the line step that commits. -/
theorem State.RunsAlone.commits {snap : Snapshot} {d : Nat} {s : State} (h : s.RunsAlone snap)
    (hd : badLineAfter s.cfg.geo.totalLines s.seq.line.toNat d snap.yscroll) :
    (∀ k t, k ≤ 2 * d → runSteps k s = .next t → t.raster = s.raster) ∧
      ∀ t, runSteps (2 * d + 1) s = .next t → t.raster = committed s.raster := by
  induction d generalizing s with
  | zero =>
    refine ⟨fun k t hk hrun => ?_, fun t hrun => ?_⟩
    · obtain rfl := Nat.le_zero.mp hk
      cases hrun
      rfl
    · rw [h.runSteps_succ_eq] at hrun
      cases hrun
      exact renderStep_raster_bad (badLineAfter_zero hd h.line)
  | succ d ih =>
    obtain ⟨hgood, hnext⟩ := badLineAfter_succ hd h.line
    refine ⟨fun k t hk hrun => ?_, fun t hrun => ?_⟩
    · match k with
      | 0 =>
        cases hrun
        rfl
      | 1 =>
        rw [h.runSteps_succ_eq] at hrun
        cases hrun
        exact renderStep_raster_good hgood
      | k + 2 =>
        obtain ⟨u, hrun, hu, hraster, hcfg, hline⟩ := h.runSteps_good hgood hrun
        exact ((ih hu (by rwa [hcfg, hline])).1 k t (by omega) hrun).trans hraster
    · obtain ⟨u, hrun, hu, hraster, hcfg, hline⟩ := h.runSteps_good hgood hrun
      rw [(ih hu (by rwa [hcfg, hline])).2 t hrun, hraster]

/-- Settles O43: until the bad line RasterState is the one at the start, and then its commit. -/
theorem modeCommitsAtFirstBadLine : Obligations.ModeCommitsAtFirstBadLine := by
  unfold Obligations.ModeCommitsAtFirstBadLine
  intro s snap v d hat hline hinputs hsnap hstaged hd
  obtain ⟨hkept, hcommit⟩ := State.RunsAlone.commits ⟨hat, hline, hinputs, hsnap⟩ hd
  refine ⟨fun k t hk hrun => ?_, fun t hrun => ?_⟩
  · rw [hkept k t hk hrun]
    exact ⟨rfl, hstaged⟩
  · rw [hcommit t hrun, committed_currentMode, hstaged]
    exact ⟨rfl, committed_scheduledMode _⟩

end Sys2Proof.Machine
end

section
/-! PROOFS. Line composition (42_line_composition.md): what a line step paints in its row (R105, R106, R109 to R120,
R124) and when it raises the raster interrupt (R107, R176). -/

namespace Sys2Proof.Machine

/-! ### The extents of the window and the strips beside it (R108, R115) -/

/-- Settles O44: each extent is chosen by its own bit. -/
theorem windowExtents : Obligations.WindowExtents := by
  unfold Obligations.WindowExtents
  intro g
  have hwide : hExtent g 1 = (g.contentX0 + 7, g.contentX0 + 320 - 9) := rfl
  have vwide : vExtent g 1 = (g.contentY0 + 4, g.contentY0 + 200 - 4) := rfl
  refine ⟨rfl, hwide.trans ?_, rfl, vwide.trans ?_⟩
  · rw [Nat.add_sub_assoc (by decide)]
  · rw [Nat.add_sub_assoc (by decide)]

/-- Settles O48: the two strips are the columns on either side of the window. -/
theorem borderStripsCoverOutside : Obligations.BorderStripsCoverOutside := by
  unfold Obligations.BorderStripsCoverOutside
  exact fun cfg b h row x hx => borderStrips_find b _ _ row hx

/-! ### The state in which the pixel work begins -/

/-- The line step up to its pixel work: the bad-line effects and the raster compare have happened (R90, R106). -/
def pixelStart (snap : Snapshot) (s : State) : State := rasterCompare snap (beforeRender snap s)

@[simp] theorem pixelStart_cfg (snap : Snapshot) (s : State) : (pixelStart snap s).cfg = s.cfg := by
  obtain ⟨hcfg, -⟩ := beforeRender_fields snap s
  rw [pixelStart, rasterCompare_cfg, hcfg]

@[simp] theorem pixelStart_seq (snap : Snapshot) (s : State) : (pixelStart snap s).seq = s.seq := by
  obtain ⟨-, hseq, -⟩ := beforeRender_fields snap s
  rw [pixelStart, rasterCompare_seq, hseq]

@[simp] theorem pixelStart_ctl (snap : Snapshot) (s : State) : (pixelStart snap s).ctl = s.ctl := by
  obtain ⟨-, -, hctl, -⟩ := beforeRender_fields snap s
  rw [pixelStart, rasterCompare_ctl, hctl]

@[simp] theorem pixelStart_fb (snap : Snapshot) (s : State) : (pixelStart snap s).fb = s.fb := by
  obtain ⟨-, -, -, -, hfb, -⟩ := beforeRender_fields snap s
  rw [pixelStart, rasterCompare_fb, hfb]

@[simp] theorem pixelStart_env (snap : Snapshot) (s : State) : (pixelStart snap s).env = s.env := by
  obtain ⟨-, -, -, -, -, henv, -⟩ := beforeRender_fields snap s
  rw [pixelStart, rasterCompare_env, henv]

@[simp] theorem pixelStart_back (snap : Snapshot) (s : State) (m : ModeVariant) (r c : Nat) :
    back (pixelStart snap s) m snap r c = back s m snap r c := by
  rw [pixelStart, rasterCompare_back, beforeRender_back]

@[simp] theorem pixelStart_fore (snap : Snapshot) (s : State) (m : ModeVariant) (r c : Nat) :
    fore (pixelStart snap s) m snap r c = fore s m snap r c := by
  rw [pixelStart, rasterCompare_fore, beforeRender_fore]

/-- The events before the pixel work: the charge of a bad line (R93), the interrupt on the target line (R107). -/
def startEvents (snap : Snapshot) (s : State) : List Event :=
  (if isBadLine s.seq.line.toNat snap.yscroll then [.steal Config.badlinePenalty] else []) ++
    if s.seq.line = snap.rasterTarget then [.rasterIrq s.seq.line] else []

theorem mem_startEvents {snap : Snapshot} {s : State} {e : Event} (h : e ∈ startEvents snap s) :
    e = .steal Config.badlinePenalty ∨ e = .rasterIrq s.seq.line := by
  obtain h | h := List.mem_append.mp h
  · exact .inl (List.mem_singleton.mp (List.mem_ite_nil_right.mp h).2)
  · exact .inr (List.mem_singleton.mp (List.mem_ite_nil_right.mp h).2)

theorem pixelStart_trace (snap : Snapshot) (s : State) :
    (pixelStart snap s).out.trace = s.out.trace ++ startEvents snap s := by
  obtain ⟨-, hseq, -⟩ := beforeRender_fields snap s
  rw [pixelStart, rasterCompare_trace, beforeRender_trace, hseq, startEvents, List.append_assoc]

/-! ### The line step of each kind of row (R106) -/

theorem renderLine_pixelStart (snap : Snapshot) (mode : ModeVariant) (s : State) :
    renderLine snap mode (beforeRender snap s) =
      if visible s.cfg.geo s.seq.line.toNat then renderRow s.seq.line.toNat snap mode (pixelStart snap s)
      else .ok (pixelStart snap s) := by
  obtain ⟨hcfg, hseq, -⟩ := beforeRender_fields snap s
  rw [renderLine_eq, hcfg, hseq, pixelStart]

theorem renderStep_of_renderLine {snap : Snapshot} {s u : State}
    (h : renderLine snap (beforeRender snap s).raster.currentMode (beforeRender snap s) = .ok u) :
    renderStep snap s = requestAdvance u := by
  simp only [renderStep, h]

/-- Without a row in the window the line step completes: a visible row is filled with the border colour (R116), an
invisible line draws nothing (R105). -/
theorem renderStep_of_not_inWindow {snap : Snapshot} {s : State} (h : ¬ s.InWindow snap) :
    renderStep snap s = requestAdvance (
      if visible s.cfg.geo s.seq.line.toNat then
        (pixelStart snap s).setRow s.row (fillBorderRow s.cfg.geo.frameW snap.border (fbRow s.fb s.row))
      else pixelStart snap s) := by
  refine renderStep_of_renderLine ?_
  rw [renderLine_pixelStart]
  split
  · next hv =>
    have hrow : ¬ inWindowRow s.cfg.geo snap (rowOf s.cfg.geo s.seq.line.toNat) = true := fun hw => h ⟨hv, hw⟩
    simp [renderRow, hrow, State.row]
  · rfl

/-- The background of frame column `x` in the line in progress (R110, R111). -/
abbrev State.backAt (s : State) (snap : Snapshot) (x : Nat) : Except Nat Nibble :=
  back s (lineMode s snap) snap s.contentRow (x - s.cfg.geo.contentX0)

/-- Its foreground, none where the content is background (R110, R113). -/
abbrev State.foreAt (s : State) (snap : Snapshot) (x : Nat) : Except Nat (Option Nibble) :=
  fore s (lineMode s snap) snap s.contentRow (x - s.cfg.geo.contentX0)

/-- In column `x` the row holds the final pixel (R120): of both passes and both draws inside the window, the border
colour outside. -/
def FinalColumn (snap : Snapshot) (s : State) (row : Row) (x : Nat) : Prop :=
  if s.InColumns snap x then
    ∃ b f, s.backAt snap x = .ok b ∧ s.foreAt snap x = .ok f ∧
      rowFind row x = some (finalPixel (drawPixel (secondDraw s.env) x) (f.map toPixel) (drawPixel (nextDraw s.env) x)
        (toPixel b))
  else rowFind row x = some (toPixel snap.border)

/-- What a line step that faults in the window has met and emitted: a column that cannot be computed (R139), after the
back call or before it (R151). -/
def FaultedInWindow (snap : Snapshot) (s u : State) : Prop :=
  (∃ k a, s.InColumns snap k ∧ (s.backAt snap k = .error a ∨ s.foreAt snap k = .error a)) ∧
    (u.out.trace = (pixelStart snap s).out.trace ∨
      u.out.trace = (callSpriteBack snap s.row (pixelStart snap s)).out.trace)

/-- The line step of an in-window row paints every column or faults (R110, R120, R139). -/
theorem renderStep_inWindow {snap : Snapshot} {s : State} (h : s.InWindow snap) :
    (∃ row, renderStep snap s = requestAdvance ((afterSprites snap s.row (pixelStart snap s)).setRow s.row row) ∧
        ∀ x, x < s.cfg.geo.frameW → FinalColumn snap s row x) ∨
      ∃ a u, renderStep snap s = raiseFault .addrRange a u ∧ FaultedInWindow snap s u := by
  have hcompose : renderLine snap (beforeRender snap s).raster.currentMode (beforeRender snap s) =
      composeWindowRow s.row snap (lineMode s snap) (hExtent s.cfg.geo snap.hwide).1 (hExtent s.cfg.geo snap.hwide).2
        (pixelStart snap s) := by
    obtain ⟨hv, hw⟩ := h
    rw [renderLine_pixelStart, beforeRender_currentMode, if_pos hv]
    simp only [renderRow, pixelStart_cfg]
    exact if_pos hw
  obtain ⟨u, hu, heq⟩ | ⟨a, u, hu, heq⟩ := renderStep_cases snap s
  · obtain ⟨row, rfl, -, -, hrow⟩ := composeWindowRow_ok (hcompose.symm.trans hu)
    simp only [pixelStart_cfg, pixelStart_env, pixelStart_back, pixelStart_fore] at hrow
    exact .inl ⟨row, heq, hrow⟩
  · obtain ⟨k, hlo, hhi, hfault⟩ := composeWindowRow_error (hcompose.symm.trans hu)
    simp only [pixelStart_cfg, pixelStart_back, pixelStart_fore] at hfault
    refine .inr ⟨a, u, heq, ?_⟩
    obtain ⟨rfl, hback, -⟩ | ⟨rfl, hfore, -⟩ := hfault
    · exact ⟨⟨k, a, ⟨hlo, hhi⟩, .inl hback⟩, .inl rfl⟩
    · exact ⟨⟨k, a, ⟨hlo, hhi⟩, .inr hfore⟩, .inr rfl⟩

/-! ### The raster interrupt (R107, R176) -/

theorem interrupts_append (a b : List Event) : interrupts (a ++ b) = interrupts a ++ interrupts b :=
  List.filter_append ..

theorem interrupts_startEvents (snap : Snapshot) (s : State) :
    interrupts (startEvents snap s) = if s.seq.line = snap.rasterTarget then [.rasterIrq s.seq.line] else [] := by
  rw [startEvents, interrupts_append]
  split <;> split <;> rfl

/-- After the raster compare a line step emits no interrupt, whether it completes or faults. -/
theorem renderStep_trace_pixelStart (snap : Snapshot) (s : State) :
    ∃ es, (renderStep snap s).out.trace = (pixelStart snap s).out.trace ++ es ∧ interrupts es = [] := by
  by_cases h : s.InWindow snap
  · obtain ⟨row, heq, -⟩ | ⟨a, u, heq, -, htrace | htrace⟩ := renderStep_inWindow h
    · exact ⟨[.spriteBack snap.videoAddr s.row (spriteCoord s.cfg.geo s.row),
        .spriteFront s.row (spriteCoord s.cfg.geo s.row), .advance Config.cyclesPerLine], by simp [heq], rfl⟩
    · exact ⟨[.faulted .addrRange], by simp [heq, htrace], rfl⟩
    · exact ⟨[.spriteBack snap.videoAddr s.row (spriteCoord s.cfg.geo s.row), .faulted .addrRange],
        by simp [heq, htrace], rfl⟩
  · rw [renderStep_of_not_inWindow h]
    refine ⟨[.advance Config.cyclesPerLine], ?_, rfl⟩
    split <;> rfl

/-- Settles O35: the compare runs once before the pixel work, and nothing after it interrupts. -/
theorem rasterInterruptAtTarget : Obligations.RasterInterruptAtTarget := by
  unfold Obligations.RasterInterruptAtTarget
  intro g s t snap hat hsnap hstep
  rw [engineStep_running g hat hsnap] at hstep
  cases hstep
  obtain ⟨-, -, -, -, -, -, hline, -⟩ := renderStep_fields snap s
  obtain ⟨es, htrace, hnone⟩ := renderStep_trace_pixelStart snap s
  refine ⟨hline, startEvents snap s ++ es, ?_, ?_⟩
  · rw [htrace, pixelStart_trace, List.append_assoc]
  · rw [interrupts_append, interrupts_startEvents, hnone, List.append_nil]

/-! ### Lines and rows outside the window (R105, R116) -/

/-- Settles O47: nothing is painted and no sprite is called. -/
theorem invisibleLinesDrawNothing : Obligations.InvisibleLinesDrawNothing := by
  unfold Obligations.InvisibleLinesDrawNothing
  intro g s snap hat hsnap hrange
  have hv : ¬ visible s.cfg.geo s.seq.line.toNat = true := fun hv => hrange (visible_iff.mp hv)
  have heq := renderStep_of_not_inWindow (s := s) (snap := snap) fun h => hv h.1
  rw [if_neg hv] at heq
  refine ⟨_, engineStep_running g hat hsnap, ?_, ?_, ?_⟩
  · simp [heq, hat.1]
  · simp [heq]
  · simp [heq]

theorem fbFind_setRow_same (fb : FrameBuffer) (r : Nat) (row : Row) (x : Nat) :
    fbFind (fbSetRow fb r row) r x = rowFind row x := by
  rw [fbFind, fbRow_setRow_same]

/-- A line step paints no row but the line's. -/
theorem renderStep_fbFind_other (snap : Snapshot) (s : State) {R : Nat} (hR : R ≠ s.row) (x : Nat) :
    fbFind (renderStep snap s).fb R x = fbFind s.fb R x := by
  obtain ⟨-, -, -, -, -, -, -, -, -, -, hfb | ⟨-, row, hfb⟩⟩ := renderStep_fields snap s
  · rw [hfb]
  · rw [hfb, fbFind_setRow_other _ _ hR]

theorem renderStep_border_find {snap : Snapshot} {s : State} (hv : visible s.cfg.geo s.seq.line.toNat = true)
    (h : ¬ s.InWindow snap) {x : Nat} (hx : x < s.cfg.geo.frameW) :
    fbFind (renderStep snap s).fb s.row x = some (toPixel snap.border) := by
  rw [renderStep_of_not_inWindow h, if_pos hv, requestAdvance_fb, State.setRow_fb, fbFind_setRow_same,
    fillBorderRow_find _ _ hx]

theorem not_inWindow_of_border {snap : Snapshot} {s : State}
    (h : snap.den = 0 ∨ ¬ ((vExtent s.cfg.geo snap.vwide).1 ≤ s.row ∧ s.row < (vExtent s.cfg.geo snap.vwide).2)) :
    ¬ s.InWindow snap := by
  rintro ⟨-, hw⟩
  obtain ⟨htop, hbottom, hden⟩ := inWindowRow_iff.mp hw
  obtain h | h := h
  · rw [h] at hden
    cases hden
  · exact h ⟨htop, hbottom⟩

/-- Settles O46: the row is filled, and only the charge, the interrupt and the advance request are emitted. -/
theorem borderRowsFillAndCannotFault : Obligations.BorderRowsFillAndCannotFault := by
  unfold Obligations.BorderRowsFillAndCannotFault
  intro g s snap hat hsnap hv hborder
  have hout := not_inWindow_of_border hborder
  have heq := renderStep_of_not_inWindow hout
  rw [if_pos hv] at heq
  refine ⟨_, engineStep_running g hat hsnap, by simp [heq, hat.1], by simp [heq], by simp [heq],
    fun x hx => ?_, startEvents snap s ++ [.advance Config.cyclesPerLine], by simp [heq, pixelStart_trace],
    fun v R c hmem => ?_, fun R c hmem => ?_⟩
  · rw [fbPixel, renderStep_border_find hv hout hx, Option.getD_some]
  · obtain hmem | hmem := mem_startEvents (by simpa using hmem) <;> cases hmem
  · obtain hmem | hmem := mem_startEvents (by simpa using hmem) <;> cases hmem

/-! ### The painted row (R120) -/

/-- Both layers of every window column of the line can be computed. -/
def State.WindowComputes (s : State) (snap : Snapshot) : Prop :=
  ∀ x, s.InColumns snap x → (∃ b, s.backAt snap x = .ok b) ∧ ∃ f, s.foreAt snap x = .ok f

/-- `t` has the line's row of `s` painted as R120 says. -/
structure RowPainted (snap : Snapshot) (s t : State) : Prop where
  window : s.InWindow snap → ∀ {x}, x < s.cfg.geo.frameW → s.InColumns snap x → ∀ {b f}, s.backAt snap x = .ok b →
    s.foreAt snap x = .ok f → fbFind t.fb s.row x =
      some (finalPixel (drawPixel (secondDraw s.env) x) (f.map toPixel) (drawPixel (nextDraw s.env) x) (toPixel b))
  border : ∀ {x}, x < s.cfg.geo.frameW → ¬ (s.InWindow snap ∧ s.InColumns snap x) →
    fbFind t.fb s.row x = some (toPixel snap.border)

theorem RowPainted.of_columns {snap : Snapshot} {s t : State} {fb : FrameBuffer} {row : Row} (h : s.InWindow snap)
    (hfb : t.fb = fbSetRow fb s.row row) (hrow : ∀ x, x < s.cfg.geo.frameW → FinalColumn snap s row x) :
    RowPainted snap s t where
  window _ x hx hcol b f hb hf := by
    obtain ⟨b', f', hb', hf', hpixel⟩ := (if_pos hcol).mp (hrow x hx)
    cases hb.symm.trans hb'
    cases hf.symm.trans hf'
    rw [hfb, fbFind_setRow_same, hpixel]
  border hx hout := by
    rw [hfb, fbFind_setRow_same]
    exact (if_neg fun hcol => hout ⟨h, hcol⟩).mp (hrow _ hx)

/-- A line step that completes in the window has computed both layers of every column. -/
theorem windowComputes_of_running {snap : Snapshot} {s : State} (h : s.InWindow snap)
    (hrunning : (renderStep snap s).seq.phase = .running) : s.WindowComputes snap := by
  intro x hcol
  obtain ⟨-, -, -, hright⟩ := hExtent_bounds s.cfg snap.hwide
  obtain ⟨row, -, hrow⟩ | ⟨a, u, heq, -⟩ := renderStep_inWindow h
  · obtain ⟨b, f, hb, hf, -⟩ := (if_pos hcol).mp (hrow x (hcol.2.trans_le hright))
    exact ⟨⟨b, hb⟩, f, hf⟩
  · rw [heq] at hrunning
    cases hrunning

/-- A visible line whose window columns can be computed, if its row is in the window at all, completes and paints its
row (R110, R116, R120). -/
theorem renderStep_paintsRow {snap : Snapshot} {s : State} (hv : visible s.cfg.geo s.seq.line.toNat = true)
    (hcompute : s.InWindow snap → s.WindowComputes snap) :
    (renderStep snap s).seq = { s.seq with sub := .advancing } ∧ RowPainted snap s (renderStep snap s) := by
  by_cases h : s.InWindow snap
  · obtain ⟨row, heq, hrow⟩ | ⟨a, u, -, ⟨k, a', hcol, hfault⟩, -⟩ := renderStep_inWindow h
    · exact ⟨by simp [heq], .of_columns (fb := s.fb) h (by simp [heq]) hrow⟩
    · obtain ⟨⟨b, hb⟩, f, hf⟩ := hcompute h k hcol
      rw [hb, hf] at hfault
      obtain hfault | hfault := hfault <;> cases hfault
  · exact ⟨by simp [renderStep_of_not_inWindow h, apply_ite State.seq],
      fun hw => absurd hw h, fun hx _ => renderStep_border_find hv h hx⟩

/-- Settles O45: `renderStep_paintsRow`, with the in-window row spelled out. -/
theorem lineStepPaintsFinalPixels : Obligations.LineStepPaintsFinalPixels := by
  unfold Obligations.LineStepPaintsFinalPixels
  intro g s snap hat hsnap hv hcompute
  have hrow : s.InWindow snap ↔
      snap.den = 1 ∧ (vExtent s.cfg.geo snap.vwide).1 ≤ s.row ∧ s.row < (vExtent s.cfg.geo snap.vwide).2 := by
    rw [State.InWindow, inWindowRow_iff]
    exact ⟨fun ⟨_, htop, hbottom, hden⟩ => ⟨hden, htop, hbottom⟩,
      fun ⟨hden, htop, hbottom⟩ => ⟨hv, htop, hbottom, hden⟩⟩
  obtain ⟨hseq, hpaint⟩ := renderStep_paintsRow hv fun h x hcol => by
    obtain ⟨hden, htop, hbottom⟩ := hrow.mp h
    exact hcompute hden htop hbottom x hcol
  refine ⟨_, engineStep_running g hat hsnap, by rw [hseq, hat.1], by rw [hseq], fun hden htop hbottom x hx hcol b f hb
    hf => ?_, fun x hx hout => ?_, fun R c hR => ?_⟩
  · rw [fbPixel, hpaint.window (hrow.mpr ⟨hden, htop, hbottom⟩) hx hcol hb hf]
    rfl
  · rw [fbPixel, hpaint.border hx, Option.getD_some]
    rintro ⟨h, hcol⟩
    obtain ⟨hden, htop, hbottom⟩ := hrow.mp h
    exact hout ⟨hden, htop, hbottom, hcol⟩
  · rw [fbPixel, fbPixel, renderStep_fbFind_other snap s hR]

/-! ### What a row depends on (R124, R140) -/

/-- Where nobody writes in the interval, a read answers what memory holds, at whatever cycle (R55). -/
theorem memRead_quiet_congr {s u : State} (hs : intervalWrites s.env = []) (hu : intervalWrites u.env = [])
    (hmem : s.env.mem = u.env.mem) (id : ReadId) (a : Nat) : memRead s id a = memRead u id a := by
  simp only [memRead, memOracle_quiet hs, memOracle_quiet hu, hmem]

theorem colorRead_quiet_congr {s u : State} (hs : intervalWrites s.env = []) (hu : intervalWrites u.env = [])
    (hcolor : s.env.color = u.env.color) (id : ReadId) (n : Nat) : colorRead s id n = colorRead u id n := by
  rw [colorRead_quiet hs, colorRead_quiet hu, hcolor]

/-- Nobody writes memory in the interval of the line, of neither state, and both hold the same. -/
structure SameQuietMemory (s u : State) : Prop where
  left : intervalWrites s.env = []
  right : intervalWrites u.env = []
  mem : s.env.mem = u.env.mem
  color : s.env.color = u.env.color

theorem SameQuietMemory.back {s u : State} (h : SameQuietMemory s u) (mode : ModeVariant) (snap : Snapshot)
    (r c : Nat) : back s mode snap r c = back u mode snap r c := by
  have hread := memRead_quiet_congr h.left h.right h.mem
  cases mode with
  | textNormal | textMulti | bitmapMulti => rfl
  | textExtended => simp only [Machine.back, backTextExtended, fetchVM, hread]
  | bitmapNormal => simp only [Machine.back, backBitmapNormal, fetchVM, hread]

theorem SameQuietMemory.fore {s u : State} (h : SameQuietMemory s u) (mode : ModeVariant) (snap : Snapshot)
    (r c : Nat) : fore s mode snap r c = fore u mode snap r c := by
  have hread := memRead_quiet_congr h.left h.right h.mem
  have hcolor := colorRead_quiet_congr h.left h.right h.color
  cases mode with
  | textNormal => simp only [Machine.fore, foreTextNormal, fetchVM, fetchCR, fetchCH, hread, hcolor]
  | textMulti => simp only [Machine.fore, foreTextMulti, fetchVM, fetchCR, fetchCH, hread, hcolor]
  | textExtended => simp only [Machine.fore, foreTextExtended, fetchVM, fetchCR, fetchCH, hread, hcolor]
  | bitmapNormal => simp only [Machine.fore, foreBitmapNormal, fetchVM, fetchBM, hread]
  | bitmapMulti => simp only [Machine.fore, foreBitmapMulti, fetchVM, fetchCR, fetchBM, hread, hcolor]

/-- `u` renders the line that `s` renders, from the same inputs: the geometry, the line, the mode, the memory that
nobody writes, and the draws (R140). -/
structure SameLineInputs (snap : Snapshot) (s u : State) : Prop where
  cfg : s.cfg = u.cfg
  line : s.seq.line = u.seq.line
  mode : lineMode s snap = lineMode u snap
  memory : SameQuietMemory s u
  draws : s.env.draws = u.env.draws

section
variable {snap : Snapshot} {s u : State} (h : SameLineInputs snap s u)
include h

theorem SameLineInputs.row : u.row = s.row := by rw [State.row, State.row, h.cfg, h.line]

theorem SameLineInputs.inWindow : u.InWindow snap ↔ s.InWindow snap := by
  simp only [State.InWindow, State.row, h.cfg, h.line]

theorem SameLineInputs.inColumns (x : Nat) : u.InColumns snap x ↔ s.InColumns snap x := by
  simp only [State.InColumns, h.cfg]

theorem SameLineInputs.backAt (x : Nat) : u.backAt snap x = s.backAt snap x := by
  simp only [State.backAt, State.contentRow, h.row, h.mode, h.cfg, h.memory.back]

theorem SameLineInputs.foreAt (x : Nat) : u.foreAt snap x = s.foreAt snap x := by
  simp only [State.foreAt, State.contentRow, h.row, h.mode, h.cfg, h.memory.fore]

theorem SameLineInputs.windowComputes (hs : s.WindowComputes snap) : u.WindowComputes snap := by
  intro x hcol
  rw [h.backAt, h.foreAt]
  exact hs x ((h.inColumns x).mp hcol)

/-- The final pixel of every column is the same, so the painted rows are. -/
theorem SameLineInputs.rows_eq {t t' : State} (hs : s.InWindow snap → s.WindowComputes snap)
    (ht : RowPainted snap s t) (ht' : RowPainted snap u t') {x : Nat} (hx : x < s.cfg.geo.frameW) :
    fbFind t'.fb s.row x = fbFind t.fb s.row x := by
  have hx' : x < u.cfg.geo.frameW := h.cfg ▸ hx
  rw [← h.row]
  by_cases hcol : s.InWindow snap ∧ s.InColumns snap x
  · obtain ⟨hwin, hcol⟩ := hcol
    obtain ⟨⟨b, hb⟩, f, hf⟩ := hs hwin x hcol
    rw [ht'.window (h.inWindow.mpr hwin) hx' ((h.inColumns x).mpr hcol) ((h.backAt x).trans hb)
      ((h.foreAt x).trans hf), h.row, ht.window hwin hx hcol hb hf]
    simp only [secondDraw, nextDraw, h.draws]
  · rw [ht'.border hx' (by rwa [h.inWindow, h.inColumns]), h.row, ht.border hx hcol]

end

/-- Settles O50: the first rendering completes, so every layer can be computed in both. -/
theorem equalInputsPaintEqualRows : Obligations.EqualInputsPaintEqualRows := by
  unfold Obligations.EqualInputsPaintEqualRows
  intro g s s' t snap hat hat' hcfg hline hsnap hsnap' hmode hquiet hquiet' hmem hcolor hdraws hv hstep hrunning
  rw [engineStep_running g hat hsnap] at hstep
  cases hstep
  have hsame : SameLineInputs snap s s' := ⟨hcfg, hline, hmode, ⟨hquiet, hquiet', hmem, hcolor⟩, hdraws⟩
  have hs : s.InWindow snap → s.WindowComputes snap := fun hwin => windowComputes_of_running hwin hrunning
  obtain ⟨-, hpaint⟩ := renderStep_paintsRow hv hs
  obtain ⟨hseq', hpaint'⟩ := renderStep_paintsRow (s := s') (snap := snap) (by rwa [← hcfg, ← hline]) fun hwin =>
    hsame.windowComputes (hs (hsame.inWindow.mp hwin))
  exact ⟨_, engineStep_running g hat' hsnap', by rw [hseq', hat'.1], fun x hx => hsame.rows_eq hs hpaint hpaint' hx⟩

end Sys2Proof.Machine
end

section
/-! PROOFS. The frame with the screen disabled (R104, R116, R123). -/

namespace Sys2Proof.Machine

/-! ### A run line by line -/

/-- A run is a first part, if that comes to an end, and the rest. -/
theorem runSteps_add {m n : Nat} {s u : State} (h : runSteps m s = .next u) : runSteps (m + n) s = runSteps n u := by
  induction m generalizing s with
  | zero =>
    cases h
    rw [Nat.zero_add]
  | succ m ih =>
    obtain ⟨v, hstep, hrun⟩ := runSteps_succ h
    rw [Nat.succ_add, ← ih hrun]
    simp only [runSteps, hstep]

theorem State.RunsAlone.sub {snap : Snapshot} {s : State} (h : s.RunsAlone snap) : s.seq.sub = .lineStart := by
  obtain ⟨-, hsub, -⟩ := h.at_
  exact hsub

/-- A line step that completes and its advance are two steps of a run. -/
theorem State.RunsAlone.runSteps_line {snap : Snapshot} {s : State} (h : s.RunsAlone snap)
    (hseq : (renderStep snap s).seq = { s.seq with sub := .advancing }) :
    runSteps 2 s = .next (advanceDone (renderStep snap s)) := by
  obtain ⟨hp, -⟩ := h.at_
  obtain ⟨hinputs, -⟩ := renderStep_seq snap s
  rw [h.runSteps_succ_eq]
  simp only [runSteps, step_empty (hinputs.trans h.inputs)]
  rw [engineStep_advancing (by rw [hseq, hp]) (by rw [hseq]) true, if_pos rfl]

/-- After it the next line is about to run, with the same snapshot. -/
theorem State.RunsAlone.next_lineStart {snap : Snapshot} {s : State} (h : s.RunsAlone snap)
    (hseq : (renderStep snap s).seq = { s.seq with sub := .advancing }) (hctl : (renderStep snap s).ctl = s.ctl) :
    (advanceDone (renderStep snap s)).RunsAlone snap := by
  obtain ⟨hp, -, hstop⟩ := h.at_
  obtain ⟨hinputs, -⟩ := renderStep_seq snap s
  obtain ⟨-, hcfg, -⟩ := renderStep_fields snap s
  obtain ⟨hregs, hchar, hvideo, hbitmap, -⟩ := renderStep_hostStateKept snap s
  obtain ⟨aregs, -, actl, -, araster, -, aphase, -, arange⟩ := advanceDone_fields (renderStep snap s)
  have hrange : (renderStep snap s).LineInRange := by
    rw [State.LineInRange, hseq, hcfg]
    exact h.line
  refine ⟨⟨?_, advanceDone_sub _, ?_⟩, arange hrange, ?_, ?_⟩
  · rw [aphase, hseq, hp]
  · rw [actl, hctl, hstop]
  · rw [advanceDone_inputs, hinputs, h.inputs]
  · rw [← h.hsnap]
    exact snapshot_congr (aregs.trans hregs) (by rw [araster, hchar]) (by rw [araster, hvideo])
      (by rw [araster, hbitmap])

/-! ### The blank lines -/

/-- The rows of the visible lines below line `n` are all `p`. -/
def PaintedBelow (g : Geometry) (p : Pixel) (n : Nat) (fb : FrameBuffer) : Prop :=
  ∀ R x, g.visFirst + R < n → R < g.frameH → x < g.frameW → fbFind fb R x = some p

/-- With the screen disabled no row is an in-window row (R109). -/
theorem not_inWindow_of_den {snap : Snapshot} (hden : snap.den = 0) (s : State) : ¬ s.InWindow snap :=
  not_inWindow_of_border (.inl hden)

/-- With the screen disabled a line step completes (R116). -/
theorem renderStep_blank {snap : Snapshot} (hden : snap.den = 0) (s : State) :
    (renderStep snap s).seq = { s.seq with sub := .advancing } ∧ (renderStep snap s).ctl = s.ctl := by
  rw [renderStep_of_not_inWindow (not_inWindow_of_den hden s)]
  split <;> simp

theorem renderStep_paintedBelow {snap : Snapshot} (hden : snap.den = 0) {s : State}
    (h : PaintedBelow s.cfg.geo (toPixel snap.border) s.seq.line.toNat s.fb) :
    PaintedBelow s.cfg.geo (toPixel snap.border) (s.seq.line.toNat + 1) (renderStep snap s).fb := by
  intro R x hbelow hR hx
  by_cases hline : s.cfg.geo.visFirst + R = s.seq.line.toNat
  · have hrow : s.row = R := by rw [State.row, rowOf, ← hline, Nat.add_sub_cancel_left]
    rw [← hrow]
    exact renderStep_border_find (visible_iff.mpr (by omega)) (not_inWindow_of_den hden s) hx
  · have hrow : R ≠ s.row := by
      rw [State.row, rowOf]
      omega
    rw [renderStep_fbFind_other snap s hrow]
    exact h R x (by omega) hR hx

/-- `u` is at line `n` of the frame that began at `s`: nothing has been published, and the rows of the lines done are
border. -/
structure BlankFrame (snap : Snapshot) (s : State) (n : Nat) (u : State) : Prop where
  cfg : u.cfg = s.cfg
  regs : u.regs = s.regs
  ctl : u.ctl = s.ctl
  seq : u.seq = { s.seq with line := BitVec.ofNat 9 n, sub := u.seq.sub, cycle := s.seq.cycle + 64 * n }
  trace : ∃ es, u.out.trace = s.out.trace ++ es ∧ publishedFrames es = []
  painted : PaintedBelow s.cfg.geo (toPixel snap.border) (linesDone u.seq) u.fb

theorem BlankFrame.start (snap : Snapshot) {s : State} (hline : s.seq.line = 0) (hsub : s.seq.sub = .lineStart) :
    BlankFrame snap s 0 s where
  cfg := rfl
  regs := rfl
  ctl := rfl
  seq := by
    have hzero : s.seq.line = BitVec.ofNat 9 0 := hline
    rw [Nat.mul_zero, Nat.add_zero, ← hzero]
  trace := ⟨[], (List.append_nil _).symm, rfl⟩
  painted R x hbelow := by simp [linesDone, hline, hsub] at hbelow

section
variable {snap : Snapshot} {s u : State} {n : Nat} (h : BlankFrame snap s n u)
include h

theorem BlankFrame.line : u.seq.line = BitVec.ofNat 9 n := congrArg Sequencer.line h.seq

theorem BlankFrame.cycle : u.seq.cycle = s.seq.cycle + 64 * n := congrArg Sequencer.cycle h.seq

theorem BlankFrame.line_toNat (hn : n < s.cfg.geo.totalLines) : u.seq.line.toNat = n := by
  obtain ⟨-, htotal, -⟩ := s.cfg.ok
  rw [h.line, BitVec.toNat_ofNat, Nat.mod_eq_of_lt (hn.trans_le htotal)]

theorem BlankFrame.render (hden : snap.den = 0) (hsub : u.seq.sub = .lineStart) :
    BlankFrame snap s n (renderStep snap u) where
  cfg := by
    obtain ⟨-, hcfg, -⟩ := renderStep_fields snap u
    rw [hcfg, h.cfg]
  regs := by
    obtain ⟨hregs, -⟩ := renderStep_fields snap u
    rw [hregs, h.regs]
  ctl := by
    obtain ⟨-, hctl⟩ := renderStep_blank hden u
    rw [hctl, h.ctl]
  seq := by
    obtain ⟨hseq, -⟩ := renderStep_blank hden u
    rw [hseq, h.seq]
  trace := by
    obtain ⟨es, htrace, hnone⟩ := h.trace
    obtain ⟨-, -, -, -, -, -, -, -, -, ⟨es', htrace', hnone'⟩, -⟩ := renderStep_fields snap u
    exact ⟨es ++ es', by rw [htrace', htrace, List.append_assoc], by rw [publishedFrames_append, hnone, hnone']; rfl⟩
  painted := by
    obtain ⟨hseq, -⟩ := renderStep_blank hden u
    have hpainted := h.painted
    rw [← h.cfg] at hpainted ⊢
    simp only [linesDone, hsub, hseq] at hpainted ⊢
    exact renderStep_paintedBelow hden hpainted

/-- The next line of the frame: the rows done are the same (R97). -/
theorem BlankFrame.advance (hsub : u.seq.sub = .advancing) (hn : n + 1 < s.cfg.geo.totalLines) :
    BlankFrame snap s (n + 1) (advanceDone u) := by
  have hline := h.line_toNat (Nat.lt_of_succ_lt hn)
  have hnext : u.seq.line + 1 = BitVec.ofNat 9 (n + 1) := by
    rw [h.line, BitVec.ofNat_add]
    rfl
  have hcycle : u.seq.cycle + Config.cyclesPerLine = s.seq.cycle + 64 * (n + 1) := by
    rw [h.cycle, Config.cyclesPerLine]
    omega
  have hadvance := advanceDone_next (s := u) (by rw [hline, h.cfg]; omega)
  rw [hcycle, hnext] at hadvance
  obtain ⟨-, htotal, -⟩ := s.cfg.ok
  have hdone : linesDone (advanceDone u).seq = linesDone u.seq := by
    have hnextNo : (BitVec.ofNat 9 (n + 1)).toNat = n + 1 := by
      rw [BitVec.toNat_ofNat, Nat.mod_eq_of_lt (hn.trans_le htotal)]
    simp only [hadvance, linesDone, State.setSeq_seq, hline, hsub, hnextNo, reduceCtorEq, if_true, if_false,
      Nat.add_zero]
  obtain ⟨hregs, hcfg, hctl, -, -, hfb, -⟩ := advanceDone_fields u
  refine ⟨hcfg.trans h.cfg, hregs.trans h.regs, hctl.trans h.ctl, ?_, ?_, ?_⟩
  · rw [hadvance, State.setSeq_seq, h.seq]
  · rw [hadvance]
    exact h.trace
  · rw [hdone, hfb]
    exact h.painted

end

/-- Two steps a line, by induction on the lines of the frame. -/
theorem blankFrame_runs {snap : Snapshot} (hden : snap.den = 0) {s : State} (h : s.RunsAlone snap)
    (hline : s.seq.line = 0) {n : Nat} (hn : n < s.cfg.geo.totalLines) :
    ∃ u, runSteps (2 * n) s = .next u ∧ u.RunsAlone snap ∧ BlankFrame snap s n u := by
  induction n with
  | zero => exact ⟨s, rfl, h, .start snap hline h.sub⟩
  | succ n ih =>
    obtain ⟨u, hrun, halone, hblank⟩ := ih (Nat.lt_of_succ_lt hn)
    obtain ⟨hseq, hctl⟩ := renderStep_blank hden u
    refine ⟨advanceDone (renderStep snap u), ?_, halone.next_lineStart hseq hctl,
      (hblank.render hden halone.sub).advance (by rw [hseq]) hn⟩
    rw [Nat.mul_succ, runSteps_add hrun, halone.runSteps_line hseq]

/-- Settles O49: the run reaches the last line, whose advance publishes the frame buffer, by then all border. -/
theorem blankFrameIsAllBorder : Obligations.BlankFrameIsAllBorder := by
  unfold Obligations.BlankFrameIsAllBorder
  intro s snap hat hline hinputs hsnap hden
  obtain ⟨htotal, -, -, hvisible, -⟩ := s.cfg.ok
  have hrange : s.LineInRange := by
    rw [State.LineInRange, hline]
    exact htotal
  have hbefore : s.cfg.geo.totalLines - 1 < s.cfg.geo.totalLines := Nat.sub_one_lt_of_lt htotal
  obtain ⟨u, hrun, halone, hblank⟩ := blankFrame_runs hden ⟨hat, hrange, hinputs, hsnap⟩ hline hbefore
  obtain ⟨hseq, -⟩ := renderStep_blank hden u
  have hlast := hblank.render hden halone.sub
  obtain ⟨es, htrace, hnone⟩ := hlast.trace
  have hlineNo := hlast.line_toNat hbefore
  have hend := advanceDone_last (s := renderStep snap u) (by rw [hlineNo, hlast.cfg])
  obtain ⟨hregs, -, hctl, -⟩ := advanceDone_fields (renderStep snap u)
  refine ⟨advanceDone (renderStep snap u), es ++ [.publish (renderStep snap u).fb], (renderStep snap u).fb, ?_, ?_, ?_,
    fun R x hR hx => hlast.painted R x ?_ hR hx, ?_, hregs.trans hlast.regs, hctl.trans hlast.ctl⟩
  · rw [show 2 * s.cfg.geo.totalLines = 2 * (s.cfg.geo.totalLines - 1) + 2 by omega, runSteps_add hrun,
      halone.runSteps_line hseq]
  · simp [hend, htrace]
  · rw [publishedFrames_append, hnone]
    rfl
  · rw [linesDone, hlineNo, hseq, if_pos rfl]
    omega
  · obtain ⟨-, hsub, -⟩ := hat
    have hcycle : (renderStep snap u).seq.cycle + Config.cyclesPerLine = s.seq.cycle + 64 * s.cfg.geo.totalLines := by
      rw [hlast.cycle, Config.cyclesPerLine]
      omega
    rw [hend, State.setSeq_seq, hcycle, hlast.seq, ← hline, ← hsub]

end Sys2Proof.Machine
end

section
/-! PROOFS. The mode rasterers: cells, the pixel order within a byte, the bitmap reads, and the pixels of the five
modes from the bytes fetched (R130 to R136). -/

namespace Sys2Proof.Machine

/-! ### Cells, the pixel order within a byte, and bitmap reads (R130, R131) -/

/-- The bit a column selects, as a digit of the byte (R131, R47). -/
theorem hbit_eq (x : Byte) (cx : Nat) : hbit x cx = decide (x.toNat / 2 ^ (7 - cx) % 2 = 1) :=
  Nat.testBit_eq_decide_div_mod_eq

/-- The pair a column selects, as a base-4 digit of the byte (R131). -/
theorem mpair_toNat (x : Byte) (cx : Nat) : (mpair x cx).toNat = x.toNat / 2 ^ (6 - 2 * (cx / 2)) % 4 := by
  rw [mpair, BitVec.extractLsb'_toNat, Nat.shiftRight_eq_div_pow]

/-- Columns of the same pixel pair select the same two bits. -/
theorem mpair_congr (x : Byte) {cx cx' : Nat} (h : cx / 2 = cx' / 2) : mpair x cx = mpair x cx' := by
  rw [mpair, mpair, h]

/-- Settles O53: the selectors are digits of the byte, and a pair's digit depends on half the column only. -/
theorem cellsAndPixelOrder : Obligations.CellsAndPixelOrder := by
  unfold Obligations.CellsAndPixelOrder
  refine ⟨fun r c hr hc => ⟨rfl, cellOf_lt hr hc⟩, fun x cx _ => hbit_eq x cx, fun x k _ => ⟨?_, ?_⟩⟩
  · rw [mpair_toNat, Nat.mul_div_cancel_left k (by decide : 0 < 2)]
  · exact mpair_congr x (by omega)

/-- Settles O54: the bitmap's 8000 bytes fit in the 8192 that begin at an aligned address. -/
theorem bitmapReadNeverFaults : Obligations.BitmapReadNeverFaults := by
  unfold Obligations.BitmapReadNeverFaults
  exact fun s snap content c n cy halign hn hcy => ⟨_, memRead_of_lt _ (bitmap_lt halign hn hcy)⟩

/-! ### The fields of a byte and of a colour as numbers (R132 to R136) -/

theorem hiNibble_eq (x : Byte) : hiNibble x = BitVec.ofNat 4 (x.toNat / 16) := by
  rw [hiNibble, BitVec.extractLsb', Nat.shiftRight_eq_div_pow]

theorem loNibble_eq (x : Byte) : loNibble x = BitVec.ofNat 4 (x.toNat % 16) := by
  apply BitVec.eq_of_toNat_eq
  rw [loNibble, BitVec.extractLsb'_toNat, BitVec.toNat_ofNat, Nat.shiftRight_zero, Nat.mod_mod]

theorem low3_eq (k : Nibble) : low3 k = BitVec.ofNat 4 (k.toNat % 8) := by
  apply BitVec.eq_of_toNat_eq
  rw [low3, BitVec.toNat_setWidth, BitVec.extractLsb'_toNat, BitVec.toNat_ofNat, Nat.shiftRight_zero]

theorem bit3_eq (k : Nibble) : bit3 k = decide (8 ≤ k.toNat) := by
  revert k
  decide

/-- The glyph code of extended text (R134). -/
theorem glyph_toNat (v : Byte) : (v.extractLsb' 0 6).toNat = v.toNat % 64 := by
  rw [BitVec.extractLsb'_toNat, Nat.shiftRight_zero]

/-- The background index of extended text (R134). -/
theorem backgroundIndex_eq (v : Byte) : v.extractLsb' 6 2 = BitVec.ofNat 2 (v.toNat / 64) := by
  rw [BitVec.extractLsb', Nat.shiftRight_eq_div_pow]

/-! ### The multicolour pixels (R133, R136) -/

/-- The colour a pixel pair chooses out of three; pair 0 is background. -/
def pairColor (p : BitVec 2) (one two three : Nibble) : Option Nibble :=
  if p = 0#2 then none else if p = 1#2 then some one else if p = 2#2 then some two else some three

theorem textMultiPixel_of_lt (snap : Snapshot) (g : Byte) {k : Nibble} (cx : Nat) (hk : k.toNat < 8) :
    textMultiPixel snap g k cx = if hbit g cx then some (BitVec.ofNat 4 (k.toNat % 8)) else none := by
  have hbit3 : bit3 k = false := by rw [bit3_eq, decide_eq_false (Nat.not_le.mpr hk)]
  rw [textMultiPixel, if_pos hbit3, low3_eq]

theorem textMultiPixel_of_ge (snap : Snapshot) (g : Byte) {k : Nibble} (cx : Nat) (hk : 8 ≤ k.toNat) :
    textMultiPixel snap g k cx = pairColor (mpair g cx) snap.bg1 snap.bg2 (BitVec.ofNat 4 (k.toNat % 8)) := by
  have hbit3 : ¬ bit3 k = false := by rw [bit3_eq, decide_eq_true hk]; decide
  rw [textMultiPixel, if_neg hbit3, low3_eq, pairColor]

theorem bitmapMultiPixel_eq (b v : Byte) (k : Nibble) (cx : Nat) :
    bitmapMultiPixel b v k cx =
      pairColor (mpair b cx) (BitVec.ofNat 4 (v.toNat / 16)) (BitVec.ofNat 4 (v.toNat % 16)) k := by
  rw [bitmapMultiPixel, hiNibble_eq, loNibble_eq, pairColor]

/-! ### The pixels of each mode from the bytes its reads answer -/

section

variable {s : State} {snap : Snapshot} {r c : Nat} {v g b : Byte}

theorem fore_textNormal (hv : fetchVM s snap true c (cellOf r c) = .ok v)
    (hg : fetchCH s snap true c v.toNat (r % 8) = .ok g) :
    fore s .textNormal snap r c = .ok (if hbit g (c % 8) then some (fetchCR s true c (cellOf r c)) else none) := by
  simp only [fore, foreTextNormal, hv, hg, bind, Except.bind, pure, Except.pure]

theorem fore_textMulti (hv : fetchVM s snap true c (cellOf r c) = .ok v)
    (hg : fetchCH s snap true c v.toNat (r % 8) = .ok g) :
    fore s .textMulti snap r c = .ok (textMultiPixel snap g (fetchCR s true c (cellOf r c)) (c % 8)) := by
  simp only [fore, foreTextMulti, hv, hg, bind, Except.bind, pure, Except.pure]

theorem fore_textExtended (hv : fetchVM s snap true c (cellOf r c) = .ok v)
    (hg : fetchCH s snap true c (v.toNat % 64) (r % 8) = .ok g) :
    fore s .textExtended snap r c = .ok (if hbit g (c % 8) then some (fetchCR s true c (cellOf r c)) else none) := by
  simp only [fore, foreTextExtended, glyph_toNat, hv, hg, bind, Except.bind, pure, Except.pure]

theorem back_textExtended (hv : fetchVM s snap false c (cellOf r c) = .ok v) :
    back s .textExtended snap r c = .ok (bgColor snap (BitVec.ofNat 2 (v.toNat / 64))) := by
  simp only [back, backTextExtended, backgroundIndex_eq, hv, bind, Except.bind, pure, Except.pure]

theorem fore_bitmapNormal (hv : fetchVM s snap true c (cellOf r c) = .ok v)
    (hb : fetchBM s snap true c (cellOf r c) (r % 8) = .ok b) :
    fore s .bitmapNormal snap r c =
      .ok (if hbit b (c % 8) then some (BitVec.ofNat 4 (v.toNat / 16)) else none) := by
  simp only [fore, foreBitmapNormal, hiNibble_eq, hv, hb, bind, Except.bind, pure, Except.pure]

theorem back_bitmapNormal (hv : fetchVM s snap false c (cellOf r c) = .ok v) :
    back s .bitmapNormal snap r c = .ok (BitVec.ofNat 4 (v.toNat % 16)) := by
  simp only [back, backBitmapNormal, loNibble_eq, hv, bind, Except.bind, pure, Except.pure]

theorem fore_bitmapMulti (hv : fetchVM s snap true c (cellOf r c) = .ok v)
    (hb : fetchBM s snap true c (cellOf r c) (r % 8) = .ok b) :
    fore s .bitmapMulti snap r c = .ok (pairColor (mpair b (c % 8)) (BitVec.ofNat 4 (v.toNat / 16))
      (BitVec.ofNat 4 (v.toNat % 16)) (fetchCR s true c (cellOf r c))) := by
  simp only [fore, foreBitmapMulti, bitmapMultiPixel_eq, hv, hb, bind, Except.bind, pure, Except.pure]

end

/-- Settles O55: the colour's high bit chooses between one bit and a pixel pair; the video byte's two high bits choose
the background of extended text. -/
theorem textModePixels : Obligations.TextModePixels := by
  unfold Obligations.TextModePixels
  refine fun s snap r c v g hv => ⟨⟨rfl, rfl⟩, fun hg => ⟨fore_textNormal hv hg, fun hk => ?_, fun hk => ?_⟩,
    fun hg => fore_textExtended hv hg, fun u hu => ?_⟩
  · rw [fore_textMulti hv hg, textMultiPixel_of_lt snap g _ hk]
  · rw [fore_textMulti hv hg, textMultiPixel_of_ge snap g _ hk]
    refine ⟨?_, ?_, ?_, ?_⟩
    all_goals
      intro hpair
      rw [hpair]
      rfl
  · rw [back_textExtended hu]
    refine ⟨?_, ?_, ?_, ?_⟩
    all_goals
      intro hindex
      rw [hindex]
      rfl

/-- Settles O56: the pixel pair chooses among the video byte's two halves and the cell's colour. -/
theorem bitmapModePixels : Obligations.BitmapModePixels := by
  unfold Obligations.BitmapModePixels
  intro s snap r c v b hv hb
  rw [fore_bitmapMulti hv hb]
  refine ⟨fore_bitmapNormal hv hb, ?_, ?_, ?_, ?_, rfl, fun u hu => back_bitmapNormal hu⟩
  all_goals
    intro hpair
    rw [hpair]
    rfl

end Sys2Proof.Machine
end

section
/-! PROOFS. The arbiter's grant: the engine's wait for it, and a grant with no advance pending (R147, log 3). -/

namespace Sys2Proof.Machine

/-- A grant that no advance waits for is spent without effect (R147, log 3). -/
theorem grantStep_of_not_advancing {s : State} (halive : s.seq.phase ≠ .faulted)
    (hnone : ¬ (s.seq.phase = .running ∧ s.seq.sub = .advancing)) : grantStep s = .next s := by
  cases hp : s.seq.phase with
  | waitReady => simp only [grantStep, hp]
  | running =>
    cases hsub : s.seq.sub with
    | lineStart => simp only [grantStep, hp, hsub]
    | advancing => exact absurd ⟨hp, hsub⟩ hnone
  | stopped => simp only [grantStep, hp]
  | faulted => exact absurd hp halive

/-- Settles O37: the turn of an engine without its grant, and the grant that finds no pending advance. -/
theorem advanceWaitsForGrant : Obligations.AdvanceWaitsForGrant := by
  unfold Obligations.AdvanceWaitsForGrant
  exact ⟨fun _ hp hsub => engineStep_advancing hp hsub false, fun _ => grantStep_of_not_advancing⟩

end Sys2Proof.Machine
end

section
/-! PROOFS. The fault of a line step (60_exceptions.md): what it leaves (R151), which read raises it (R139, R152), and
when it is raised at all (R153). -/

namespace Sys2Proof.Machine

/-! ### What a faulting line step leaves (R151, R152) -/

/-- `a` is the address of the first read of the line that faults (R139): `Backfill` goes over the columns first, and
`RasterContent` after it. -/
def FirstFault (snap : Snapshot) (s : State) (a : Nat) : Prop :=
  ∃ x, s.InColumns snap x ∧
    (s.backAt snap x = .error a ∧ (∀ y, s.InColumns snap y → y < x → ∃ b, s.backAt snap y = .ok b) ∨
      s.foreAt snap x = .error a ∧ (∀ y, s.InColumns snap y → ∃ b, s.backAt snap y = .ok b) ∧
        ∀ y, s.InColumns snap y → y < x → ∃ f, s.foreAt snap y = .ok f)

theorem FirstFault.memSize_le {snap : Snapshot} {s : State} {a : Nat} (h : FirstFault snap s a) :
    Config.memSize ≤ a := by
  obtain ⟨x, -, ⟨hback, -⟩ | ⟨hfore, -⟩⟩ := h
  · obtain ⟨hge, rfl⟩ := back_error hback
    exact hge
  · exact fore_error_ge hfore

/-- The events a faulting line step has emitted before `Faulted`: `Backfill` comes before the back call, and
`RasterContent` after it (R99, R110). -/
def EventsBeforeFault (snap : Snapshot) (s : State) (es : List Event) : Prop :=
  es = startEvents snap s ∨
    es = startEvents snap s ++ [.spriteBack snap.videoAddr s.row (spriteCoord s.cfg.geo s.row)]

theorem EventsBeforeFault.mem {snap : Snapshot} {s : State} {es : List Event} (h : EventsBeforeFault snap s es)
    {e : Event} (he : e ∈ es) : e = .steal Config.badlinePenalty ∨ e = .rasterIrq s.seq.line ∨
      e = .spriteBack snap.videoAddr s.row (spriteCoord s.cfg.geo s.row) := by
  obtain rfl | rfl := h
  · exact (mem_startEvents he).imp_right .inl
  · obtain he | he := List.mem_append.mp he
    · exact (mem_startEvents he).imp_right .inl
    · exact .inr (.inr (List.mem_singleton.mp he))

/-- The line of an in-window row is rendered by composing its row (R106, R110). -/
theorem renderLine_of_inWindow {snap : Snapshot} {s : State} (h : s.InWindow snap) :
    renderLine snap (beforeRender snap s).raster.currentMode (beforeRender snap s) =
      composeWindowRow s.row snap (lineMode s snap) (hExtent s.cfg.geo snap.hwide).1 (hExtent s.cfg.geo snap.hwide).2
        (pixelStart snap s) := by
  obtain ⟨hv, hw⟩ := h
  rw [renderLine_pixelStart, beforeRender_currentMode, if_pos hv]
  simp only [renderRow, pixelStart_cfg]
  exact if_pos hw

/-- Composing the line's row faults on the first read that does, with the sequencer as it was (R139). -/
theorem composeLine_error {snap : Snapshot} {s u : State} {a : Nat}
    (h : composeWindowRow s.row snap (lineMode s snap) (hExtent s.cfg.geo snap.hwide).1
      (hExtent s.cfg.geo snap.hwide).2 (pixelStart snap s) = .error (a, u)) :
    FirstFault snap s a ∧ u.seq = s.seq ∧ ∃ es, u.out.trace = s.out.trace ++ es ∧ EventsBeforeFault snap s es := by
  obtain ⟨-, -, -, hright⟩ := hExtent_bounds s.cfg snap.hwide
  obtain ⟨x, hlo, hhi, hfault⟩ := composeWindowRow_error h
  simp only [pixelStart_cfg, pixelStart_back, pixelStart_fore, Nat.min_eq_left hright] at hfault
  obtain ⟨rfl, hback, hbefore⟩ | ⟨rfl, hfore, hbacks, hbefore⟩ := hfault
  · exact ⟨⟨x, ⟨hlo, hhi⟩, .inl ⟨hback, fun y hy => hbefore y hy.1⟩⟩, by simp,
      startEvents snap s, by simp [pixelStart_trace], .inl rfl⟩
  · exact ⟨⟨x, ⟨hlo, hhi⟩, .inr ⟨hfore, fun y hy => hbacks y hy.1 hy.2, fun y hy => hbefore y hy.1⟩⟩, by simp,
      _, by simp [pixelStart_trace], .inr rfl⟩

/-- Only the line step of an in-window row faults. -/
theorem inWindow_of_faulted {snap : Snapshot} {s : State} (hp : s.seq.phase = .running)
    (h : (renderStep snap s).seq.phase = .faulted) : s.InWindow snap := by
  by_contra hout
  rw [renderStep_of_not_inWindow hout, requestAdvance_seq, apply_ite State.seq] at h
  simp [hp] at h

/-- A faulting line step raises `ADDR_RANGE` with the first read that faults (R139, R151, R152). -/
theorem renderStep_faulted {snap : Snapshot} {s : State} (hp : s.seq.phase = .running)
    (h : (renderStep snap s).seq.phase = .faulted) :
    ∃ a u, renderStep snap s = raiseFault .addrRange a u ∧ FirstFault snap s a ∧ u.seq = s.seq ∧
      ∃ es, u.out.trace = s.out.trace ++ es ∧ EventsBeforeFault snap s es := by
  have hwin := inWindow_of_faulted hp h
  obtain ⟨u, hu, heq⟩ | ⟨a, u, hu, heq⟩ := renderStep_cases snap s
  · rw [heq, requestAdvance_seq, (renderLine_frame_ok hu).seq] at h
    obtain ⟨-, hseq, -⟩ := beforeRender_fields snap s
    simp [hseq, hp] at h
  · exact ⟨a, u, heq, composeLine_error ((renderLine_of_inWindow hwin).symm.trans hu)⟩

theorem exists_snapshot_of_engineStep {g : Bool} {s t : State} (hat : s.AtLine) (h : engineStep g s = .next t) :
    ∃ snap, snapshot s = some snap := by
  obtain ⟨hp, hsub, hstop⟩ := hat
  rw [engineStep_lineStart g hp hsub, lineStep, hstop, if_neg (by decide)] at h
  split at h
  · next snap hsnap => exact ⟨snap, hsnap⟩
  · cases h

/-- Settles O58: the fault is raised where composing the row met it, and `FAULTED` has no step. -/
theorem faultEndsTheEngine : Obligations.FaultEndsTheEngine := by
  unfold Obligations.FaultEndsTheEngine
  intro g s t hat hstep hfaulted
  obtain ⟨snap, hsnap⟩ := exists_snapshot_of_engineStep hat hstep
  rw [engineStep_running g hat hsnap] at hstep
  cases hstep
  have hwin := inWindow_of_faulted hat.1 hfaulted
  obtain ⟨a, u, heq, hfirst, hseq, es, htrace, hevents⟩ := renderStep_faulted hat.1 hfaulted
  have houtside := hfirst.memSize_le
  obtain ⟨x, hcol, hreads⟩ := hfirst
  refine ⟨by simp [heq], rfl, ⟨a, snap, x, by simp [heq, hseq], houtside, hsnap, hwin, hcol, hreads⟩,
    by simp [heq, hseq], ⟨es, by simp [heq, htrace], fun n hmem => ?_, fun R c hmem => ?_⟩,
    fun R c hR => renderStep_fbFind_other snap s hR c, fun v hnext => ?_⟩
  · obtain hmem | hmem | hmem := hevents.mem hmem <;> cases hmem
  · obtain hmem | hmem | hmem := hevents.mem hmem <;> cases hmem
  · obtain ⟨-, -, -, -, halive, -⟩ := step_flagsKept hnext
    exact halive hfaulted

/-! ### When a line step faults (R131, R153) -/

/-- `Fore` needs its video-matrix byte and, in a text mode, its glyph byte in memory; the other direction is
`fore_total`. -/
theorem fore_ok_addresses {s : State} {mode : ModeVariant} {snap : Snapshot} {r c : Nat} {f : Option Nibble}
    (h : fore s mode snap r c = .ok f) :
    snap.videoAddr.toNat + cellOf r c < Config.memSize ∧
      ∀ code, glyphCode mode (memOracle s ⟨true, c, .vm⟩ (snap.videoAddr.toNat + cellOf r c)) = some code →
        snap.charAddr.toNat + 8 * code + r % 8 < Config.memSize := by
  have hvideo : snap.videoAddr.toNat + cellOf r c < Config.memSize := by
    by_contra hge
    have hread := memRead_of_ge (s := s) ⟨true, c, .vm⟩ (Nat.not_lt.mp hge)
    cases mode <;>
      simp [fore, foreTextNormal, foreTextMulti, foreTextExtended, foreBitmapNormal, foreBitmapMulti, fetchVM, hread,
        bind, Except.bind] at h
  refine ⟨hvideo, fun code hcode => ?_⟩
  by_contra hge
  have hread := memRead_of_ge (s := s) ⟨true, c, .ch⟩ (Nat.not_lt.mp hge)
  cases mode
  case bitmapNormal | bitmapMulti => cases hcode
  all_goals
    cases hcode
    simp [fore, foreTextNormal, foreTextMulti, foreTextExtended, fetchVM, fetchCH, memRead_of_lt _ hvideo, hread,
      bind, Except.bind] at h

/-- The address of the video-matrix byte of frame column `x` in the line in progress (R130, R131). -/
abbrev State.videoAt (s : State) (snap : Snapshot) (x : Nat) : Nat :=
  snap.videoAddr.toNat + cellOf s.contentRow (x - s.cfg.geo.contentX0)

/-- The video-matrix byte of frame column `x` lies in memory, and so does the glyph byte its answer selects in a text
mode. -/
def State.ReadsFit (s : State) (snap : Snapshot) (x : Nat) : Prop :=
  s.videoAt snap x < Config.memSize ∧
    ∀ code, glyphCode (lineMode s snap) (memOracle s ⟨true, x - s.cfg.geo.contentX0, .vm⟩ (s.videoAt snap x)) =
        some code → snap.charAddr.toNat + 8 * code + s.contentRow % 8 < Config.memSize

/-- The window covers cells of the content area only (R108, R130). -/
theorem windowCell_lt {snap : Snapshot} {s : State} (h : s.InWindow snap) {x : Nat} (hcol : s.InColumns snap x) :
    cellOf s.contentRow (x - s.cfg.geo.contentX0) < 1000 := by
  obtain ⟨htop, hbottom, -⟩ := inWindowRow_iff.mp h.2
  have hrows := vExtent_bounds s.cfg snap.vwide
  have hcols := hExtent_bounds s.cfg snap.hwide
  refine cellOf_lt ?_ (by omega)
  rw [State.contentRow]
  omega

/-- A covered pixel is computed exactly when its reads lie in memory; an aligned bitmap's always do. -/
theorem column_computes_iff {snap : Snapshot} {s : State} (h : s.InWindow snap)
    (halign : snap.bitmapAddr.extractLsb' 0 13 = 0) {x : Nat} (hcol : s.InColumns snap x) :
    ((∃ b, s.backAt snap x = .ok b) ∧ ∃ f, s.foreAt snap x = .ok f) ↔ s.ReadsFit snap x :=
  ⟨fun ⟨_, _, hf⟩ => fore_ok_addresses hf,
    fun ⟨hvideo, hglyph⟩ => ⟨back_total _ hvideo, fore_total hvideo hglyph halign (windowCell_lt h hcol)⟩⟩

/-- A line step completes when the window, if the row is in it at all, can be computed (R105, R116, R120). -/
theorem renderStep_completes {snap : Snapshot} {s : State} (h : s.InWindow snap → s.WindowComputes snap) :
    (renderStep snap s).seq = { s.seq with sub := .advancing } := by
  by_cases hv : visible s.cfg.geo s.seq.line.toNat = true
  · exact (renderStep_paintsRow hv h).1
  · rw [renderStep_of_not_inWindow fun hwin => hv hwin.1, if_neg hv, requestAdvance_seq, pixelStart_seq]

/-- A line step faults exactly on a covered column that cannot be computed (R139). -/
theorem renderStep_faulted_iff {snap : Snapshot} {s : State} (hp : s.seq.phase = .running) (h : s.InWindow snap) :
    (renderStep snap s).seq.phase = .faulted ↔ ¬ s.WindowComputes snap := by
  constructor
  · intro hfaulted hcomputes
    rw [renderStep_completes fun _ => hcomputes] at hfaulted
    simp [hp] at hfaulted
  · intro hno
    obtain ⟨-, ⟨hseq, -⟩ | hseq⟩ := renderStep_seq snap s
    · exact absurd (windowComputes_of_running h (by rw [hseq, hp])) hno
    · rw [hseq]

/-- Where nobody writes in the interval, the glyph is the one that memory holds. -/
theorem not_readsFit_iff_of_quiet {snap : Snapshot} {s : State} (hquiet : intervalWrites s.env = []) (x : Nat) :
    ¬ s.ReadsFit snap x ↔
      (0x10000 ≤ s.videoAt snap x ∨
        ((lineMode s snap = .textNormal ∨ lineMode s snap = .textMulti) ∧
          0x10000 ≤ snap.charAddr.toNat + s.contentRow % 8 + 8 * (memByte s.env.mem (s.videoAt snap x)).toNat) ∨
        (lineMode s snap = .textExtended ∧
          0x10000 ≤ snap.charAddr.toNat + s.contentRow % 8 +
            8 * ((memByte s.env.mem (s.videoAt snap x)).toNat % 64))) := by
  rw [State.ReadsFit, memOracle_quiet hquiet, Config.memSize]
  cases lineMode s snap <;> simp [glyphCode] <;> omega

/-- Settles O59: the window can be computed exactly when the reads of its columns fit. -/
theorem faultsExactlyWhenOutOfRange : Obligations.FaultsExactlyWhenOutOfRange := by
  unfold Obligations.FaultsExactlyWhenOutOfRange
  intro g s snap hat halign hsnap hwin hquiet
  obtain ⟨-, -, -, hbitmap⟩ := snapshot_some hsnap
  refine ⟨_, engineStep_running g hat hsnap, (renderStep_faulted_iff hat.1 hwin).trans ?_⟩
  simp only [State.WindowComputes, not_forall, exists_prop]
  refine exists_congr fun x => and_congr_right fun hcol => ?_
  rw [column_computes_iff hwin (hbitmap ▸ halign) hcol]
  exact not_readsFit_iff_of_quiet hquiet x

/-! ### Addresses with room for the whole area (R153) -/

theorem glyphCode_lt {mode : ModeVariant} {v : Byte} {code : Nat} (h : glyphCode mode v = some code) : code < 256 := by
  have hv := v.isLt
  cases mode <;> cases h <;> omega

/-- 0xFC18 leaves room for 1000 cells and 0xF800 for 256 glyphs of 8 bytes. -/
theorem readsFit_of_roomy {snap : Snapshot} {s : State} (h : s.InWindow snap)
    (hvideo : snap.videoAddr.toNat ≤ 0xFC18) (hchar : snap.charAddr.toNat ≤ 0xF800) {x : Nat}
    (hcol : s.InColumns snap x) : s.ReadsFit snap x := by
  have hcell := windowCell_lt h hcol
  rw [State.ReadsFit, State.videoAt, Config.memSize]
  refine ⟨by omega, fun code hcode => ?_⟩
  have hcode := glyphCode_lt hcode
  omega

/-- Settles O60: every read of every column fits, whichever glyphs the video matrix selects. -/
theorem roomyAddressesNeverFault : Obligations.RoomyAddressesNeverFault := by
  unfold Obligations.RoomyAddressesNeverFault
  intro g s snap hat halign hsnap hvideo hchar
  obtain ⟨-, -, -, hbitmap⟩ := snapshot_some hsnap
  have hseq := renderStep_completes (s := s) fun hwin x hcol =>
    (column_computes_iff hwin (hbitmap ▸ halign) hcol).mpr (readsFit_of_roomy hwin hvideo hchar hcol)
  exact ⟨_, engineStep_running g hat hsnap, by rw [hseq, hat.1], by rw [hseq]⟩

end Sys2Proof.Machine
end

section
/-! PROOFS. The state after construction (R168, R169), and that it meets the invariant (R33). -/

namespace Sys2Proof.Machine

/-! ### The parts of a constructed state (R169) -/

@[simp] theorem State.construct_cfg (cfg : Config) : (State.construct cfg).cfg = cfg := rfl
@[simp] theorem State.construct_seq (cfg : Config) : (State.construct cfg).seq = .reset := rfl
@[simp] theorem State.construct_raster (cfg : Config) : (State.construct cfg).raster = .reset := rfl
@[simp] theorem State.construct_ctl (cfg : Config) : (State.construct cfg).ctl = .reset := rfl
@[simp] theorem State.construct_regs (cfg : Config) : (State.construct cfg).regs = .reset := rfl
@[simp] theorem State.construct_fb (cfg : Config) : (State.construct cfg).fb = [] := rfl
@[simp] theorem State.construct_trace (cfg : Config) : (State.construct cfg).out.trace = [] := rfl

/-- In a frame buffer without rows no pixel has been written. -/
@[simp] theorem fbFind_nil (r c : Nat) : fbFind [] r c = none := rfl

/-- Settles O23: each part of the state has its reset value, and a frame buffer without rows holds no pixel. -/
theorem resetState : Obligations.ResetState := by
  unfold Obligations.ResetState
  intro cfg
  simp [Sequencer.reset, RasterState.reset, Config.resetMode, ControlFlags.reset, PortRegs.reset]

/-! ### The invariant after construction -/

/-- No row has its line step behind it at reset: no frame is complete, and no line of the first one is done. -/
theorem Sequencer.reset_painted_nothing (visFirst R : Nat) :
    ¬ (Sequencer.reset.frame ≠ 0 ∨ visFirst + R < linesDone .reset) := by
  simp [Sequencer.reset, linesDone]

/-- Line 0 lies in every geometry (R6), and address 0 is aligned. The clauses about a phase other than `WAIT_READY`, a
pending advance, an accepted `READY`, a written location or a published frame have nothing to speak of. -/
theorem State.construct_inv (cfg : Config) : (State.construct cfg).Inv where
  line := cfg.ok.1
  bitmap := rfl
  fault := ⟨⟨nofun, nofun⟩, rfl⟩
  participates := ⟨nofun, fun h => h.elim nofun nofun⟩
  ports := ⟨nofun, nofun⟩
  sub := nofun
  stops := nofun
  waits := fun _ => ⟨rfl, rfl, rfl⟩
  cycles := by simp [State.CycleCounts, Sequencer.reset]
  memory := ⟨⟨.nil, nofun⟩, .nil, nofun⟩
  canonical := ⟨.nil, nofun⟩
  palette := fun _ => nofun
  painted := fun R _ hdone => absurd hdone (Sequencer.reset_painted_nothing cfg.geo.visFirst R)
  publishes := ⟨rfl, nofun⟩

/-- Settles O24, with the clauses of `State.construct_inv`. -/
theorem constructionMeetsInvariant : Obligations.ConstructionMeetsInvariant := by
  unfold Obligations.ConstructionMeetsInvariant
  exact State.construct_inv

end Sys2Proof.Machine
end
